-- ==== Sys2Proof/Word.lean ====
section
/-! DEFINITION. The word types of the block (00_scope R5, R7; 10_state R20). -/

namespace Sys2Proof

/-- One byte of `IN`, or half an element of `OUT`. -/
abbrev Byte := BitVec 8

/-- One register of the window, and the data word of a host access (30_encoding R53). -/
abbrev Word := BitVec 32

/-- A code, zero-extended into the 13-bit index space (30_encoding R55). -/
abbrev Code := BitVec 13

/-- A symbol, `SYM_W` = 12 bits (00_scope R5). -/
abbrev Symbol := BitVec 12

/-- One element of `OUT` (10_state R23). -/
abbrev Element := BitVec 16

/-- A bit offset into the input stream: `bitpos`, `err_pos` (10_state R13, R19). -/
abbrev BitOffset := BitVec 35

/-- A host command `{dir[40], offset[39:32], data[31:0]}` (30_encoding R59). -/
abbrev AccessWord := BitVec 41

/-- An entry of `DICT` (10_state R20); a `prefixCode` of `none` is the sentinel NONE. -/
structure DictEntry where
  len        : BitVec 13
  prefixCode : Option Code
  suffix     : Symbol
  deriving DecidableEq, Repr, Inhabited

end Sys2Proof
end

