-- ==== Sys2Proof/Config.lean ====
section
/-! DEFINITION. What the instantiation of the block fixes, what the platform leaves open, and the free
values: opaque constants without a body, so that nothing can be proved about what they are. -/

namespace Sys2Proof

/-- The stated default of the parameter `CW_CAP` (00_scope R2, R5). Every definition that depends on the parameter takes
it as an argument, the machine included (`Machine.execAt`, `Machine.stepAt`, `Machine.coreAt`; log 1). -/
def Config.CW_CAP : Nat := 12

/-- `DICT_SIZE = 2^(CW_CAP+1)` (00_scope R5). -/
def Config.dictSize (cap : Nat) : Nat := 2 ^ (cap + 1)

/-- Placement of the register window, an OPEN parameter (92_eei_decisions D2; log 14). -/
opaque Config.REG_BASE : Nat

/-- Placement of the input buffer, an OPEN parameter (92_eei_decisions D3; log 14). -/
opaque Config.IN_BASE : Nat

/-- Placement of the output buffer, an OPEN parameter (92_eei_decisions D3; log 14). -/
opaque Config.OUT_BASE : Nat

/-- How `done_o` reaches a processor: the number of the line it drives, if any. An OPEN parameter
(92_eei_decisions D20); that it is a line number is a DESIGN CHOICE (log 14). -/
opaque Config.DONE_ROUTING : Option Nat

/-- Free value: what an undefined dictionary entry holds (10_state R21, K1, K6), by the counter `dictFresh` of State
and the index (log 5). -/
opaque Config.undefinedEntry : Nat → Nat → DictEntry

/-- Free value: the first symbol of a code whose prefix chain meets no NONE entry, by the counter `dictFresh` and the
code (log 9). -/
opaque Config.undefinedFirst : Nat → Nat → Symbol

/-- Free value: a byte of `IN` that the host has not written, by its offset (10_state R27; log 6). -/
opaque Config.unwrittenIn : Nat → Byte

/-- Free value: a byte of `OUT` that nothing has written, by its offset (10_state R23, R27, K4; log 7). -/
opaque Config.unwrittenOut : Nat → Byte

/-- Free value: what an `E_SELF_REF` leaves in a byte of `OUT`, by the counter `outFresh` of State and the offset
(60_exceptions R105, K3; log 8). -/
opaque Config.corruptOut : Nat → Nat → Byte

end Sys2Proof
end

