-- ==== Sys2Proof/Syntax.lean ====
section
/-! DEFINITION. The instructions of the block: the code classes of 30_encoding R48 with the pseudo-row EXHAUST, and the
host commands of 43_host_commands. One constructor per mnemonic of the opcode table: the rows that share a mnemonic differ
only in the offset, which is an operand here (log 17). -/

namespace Sys2Proof

/-- The read-only registers of the window, in the order of their offsets (30_encoding R53). -/
inductive RoReg where
  | status | outCount | errByte | next | prev | codeCount | bitposByte | bitposBit
  deriving DecidableEq, Repr

inductive Instr where
  /-- `c = CLR` (41_control_codes R67). -/
  | clear
  /-- `c = EOI` (41_control_codes R66). -/
  | endCode
  /-- A code that names no entry (42_data_codes R72). -/
  | invalid (c : Code)
  /-- `c < CLR` (42_data_codes R80). -/
  | literal (c : Code)
  /-- `c = next` with a previous code (42_data_codes R82). -/
  | kwkwk (c : Code)
  /-- `CLR + 2 ≤ c < next` (42_data_codes R81). -/
  | known (c : Code)
  /-- Fewer than W bits remain and no code is read (41_control_codes R68). -/
  | exhaust
  /-- Write CTRL with data bit 0 = 1; `rest` is data bits 31..1, ignored (43_host_commands R87). -/
  | start (rest : BitVec 31)
  /-- Write CTRL with data bit 0 = 0 (43_host_commands R88). -/
  | ctrlNop (rest : BitVec 31)
  | readCtrl
  | readStatus
  | writeIw (d : Word)
  | writeInLen (d : Word)
  | writeExpLen (d : Word)
  | readIw
  | readInLen
  | readExpLen
  | readOutCount
  | readErrByte
  | readNext
  | readPrev
  | readCodeCount
  | readBitposByte
  | readBitposBit
  /-- Write to a read-only register (43_host_commands R93). -/
  | writeRo (r : RoReg) (d : Word)
  /-- Read of the reserved register number `k`, at offset `4 * k` (43_host_commands R86). -/
  | readRsvd (k : BitVec 6)
  /-- Write to the reserved register number `k`, at offset `4 * k` (43_host_commands R86). -/
  | writeRsvd (k : BitVec 6) (d : Word)
  deriving DecidableEq, Repr

/-- What decoding a code needs beside its bits (30_encoding R48, R52): the class is a function of the code and of the
state. -/
structure CodeContext where
  iw   : BitVec 8
  cw   : BitVec 4
  next : BitVec 14
  prev : Option Code
  deriving DecidableEq, Repr

/-- W, the width a code is read with (30_encoding R45). -/
def CodeContext.width (k : CodeContext) : Nat := k.cw.toNat + 1

/-- CLR, the clear code (30_encoding R49). -/
def CodeContext.clr (k : CodeContext) : Nat := 2 ^ k.iw.toNat

/-- EOI, the end code (30_encoding R49). -/
def CodeContext.eoi (k : CodeContext) : Nat := 2 ^ k.iw.toNat + 1

end Sys2Proof
end

