-- ==== Sys2Proof/WellFormed.lean ====
section
/-! DEFINITION. Which instructions are well formed: on their own (`wf`), and at a decoding context (`wfAt`), where a code
class holds only the codes the table gives it. -/

namespace Sys2Proof

/-- The codes of class INVALID by their condition (30_encoding R48 row 3; 42_data_codes R72). -/
def CodeContext.namesNoEntry (k : CodeContext) (c : Nat) : Bool :=
  decide (k.next.toNat < c) || (decide (c = k.next.toNat) && k.prev.isNone)

/-- The code value fits the width the block reads (30_encoding R46) and the index space (R55). -/
def CodeContext.fits (k : CodeContext) (c : Nat) : Bool :=
  decide (c < 2 ^ k.width) && decide (c < 2 ^ 13)

/-- A reserved register number: the offsets 0x30..0xFC (43_host_commands R86). -/
def reservedIndex (k : BitVec 6) : Bool := decide (12 ≤ k.toNat)

/-- What an instruction must meet whatever the state: a reserved offset is one of 0x30..0xFC, a literal is a symbol
(`SYM_W` = 12 bits, 00_scope R5). -/
def Instr.wf : Instr → Bool
  | .literal c => decide (c.toNat < 2 ^ 12)
  | .readRsvd k => reservedIndex k
  | .writeRsvd k _ => reservedIndex k
  | .clear | .endCode | .invalid _ | .kwkwk _ | .known _ | .exhaust => true
  | .start _ | .ctrlNop _ | .readCtrl | .readStatus => true
  | .writeIw _ | .writeInLen _ | .writeExpLen _ => true
  | .readIw | .readInLen | .readExpLen | .readOutCount | .readErrByte | .readNext | .readPrev => true
  | .readCodeCount | .readBitposByte | .readBitposBit | .writeRo _ _ => true

/-- What an instruction must meet at a decoding context: the condition of its row of 30_encoding R48, after the rows
before it have been ruled out. Host commands do not depend on the context. -/
def Instr.wfAt (k : CodeContext) : Instr → Bool
  | .clear => k.fits k.clr
  | .endCode => k.fits k.eoi
  | .invalid c => k.fits c.toNat && decide (c.toNat ≠ k.clr) && decide (c.toNat ≠ k.eoi) && k.namesNoEntry c.toNat
  | .literal c => k.fits c.toNat && decide (c.toNat < k.clr) && !k.namesNoEntry c.toNat
  | .kwkwk c =>
    k.fits c.toNat && decide (k.eoi < c.toNat) && decide (c.toNat = k.next.toNat) && k.prev.isSome
  | .known c => k.fits c.toNat && decide (k.clr + 2 ≤ c.toNat) && decide (c.toNat < k.next.toNat)
  | .exhaust => true
  | .readRsvd i => reservedIndex i
  | .writeRsvd i _ => reservedIndex i
  | .start _ | .ctrlNop _ | .readCtrl | .readStatus => true
  | .writeIw _ | .writeInLen _ | .writeExpLen _ => true
  | .readIw | .readInLen | .readExpLen | .readOutCount | .readErrByte | .readNext | .readPrev => true
  | .readCodeCount | .readBitposByte | .readBitposBit | .writeRo _ _ => true

/-- A data-code instruction for the code `c` (42_data_codes R71). -/
def Instr.isDataCode (i : Instr) (c : Code) : Prop := i = .literal c ∨ i = .known c ∨ i = .kwkwk c

end Sys2Proof
end

