-- ==== Sys2Proof/Decode.lean ====
section
/-! DEFINITION. The decoder, total on every input, then the encoder written from the same tables: the code classes
(30_encoding R45 to R52), the host commands (R53, R59), and the stream notation (R56). -/

namespace Sys2Proof

/-! ## Codes -/

/-- The class of a code just read: the first matching row of 30_encoding R48. -/
def classify (k : CodeContext) (c : Code) : Instr :=
  if c.toNat = k.clr then .clear
  else if c.toNat = k.eoi then .endCode
  else if k.namesNoEntry c.toNat then .invalid c
  else if c.toNat < k.clr then .literal c
  else if c.toNat = k.next.toNat then .kwkwk c
  else .known c

/-- What the engine fetches (40_unpacker R62): a code, or nothing where fewer than W bits remain. -/
def decodeCode (k : CodeContext) : Option Code → Instr
  | none => .exhaust
  | some c => classify k c

/-! ## Host commands -/

/-- Why the decoder refuses. -/
inductive DecodeError where
  /-- The offset of a window access is no multiple of 4 (20_memory R36). -/
  | misaligned (offset : BitVec 8)
  /-- The bytes are fewer than a command has. -/
  | tooShort (bytes : Nat)
  /-- A bit above bit 40 is set, where a command has no bit (30_encoding R59). -/
  | strayBits
  deriving DecidableEq, Repr

/-- The read at register number `k`, that is at offset `4 * k` (30_encoding R53). -/
def decodeRead (k : BitVec 6) : Instr :=
  match k.toNat with
  | 0 => .readCtrl
  | 1 => .readStatus
  | 2 => .readIw
  | 3 => .readInLen
  | 4 => .readExpLen
  | 5 => .readOutCount
  | 6 => .readErrByte
  | 7 => .readNext
  | 8 => .readPrev
  | 9 => .readCodeCount
  | 10 => .readBitposByte
  | 11 => .readBitposBit
  | _ => .readRsvd k

/-- The write of `d` at register number `k` (30_encoding R53). -/
def decodeWrite (k : BitVec 6) (d : Word) : Instr :=
  match k.toNat with
  | 0 => if d.getLsbD 0 then .start (d.extractLsb' 1 31) else .ctrlNop (d.extractLsb' 1 31)
  | 1 => .writeRo .status d
  | 2 => .writeIw d
  | 3 => .writeInLen d
  | 4 => .writeExpLen d
  | 5 => .writeRo .outCount d
  | 6 => .writeRo .errByte d
  | 7 => .writeRo .next d
  | 8 => .writeRo .prev d
  | 9 => .writeRo .codeCount d
  | 10 => .writeRo .bitposByte d
  | 11 => .writeRo .bitposBit d
  | _ => .writeRsvd k d

/-- A host command from its word `{dir[40], offset[39:32], data[31:0]}` (30_encoding R59); an offset that is no multiple
of 4 is refused (20_memory R36). -/
def decodeAccess (w : AccessWord) : Except DecodeError Instr :=
  let offset := w.extractLsb' 32 8
  if offset.toNat % 4 ≠ 0 then .error (.misaligned offset)
  else if w.getLsbD 40 then .ok (decodeWrite (offset.extractLsb' 2 6) (w.extractLsb' 0 32))
  else .ok (decodeRead (offset.extractLsb' 2 6))

/-! ## One decoder for both agents -/

/-- The encoded forms: a code of the stream, no code, or a window access. -/
inductive Encoded where
  | code (c : Code)
  | noCode
  | access (w : AccessWord)
  deriving DecidableEq, Repr

def decode (k : CodeContext) : Encoded → Except DecodeError Instr
  | .code c => .ok (decodeCode k (some c))
  | .noCode => .ok (decodeCode k none)
  | .access w => decodeAccess w

/-! ## From bytes -/

/-- The number whose low byte comes first: bit `i` is bit `i & 7` of byte `i >> 3`, the bit order of 20_memory R33. -/
def numberOfBytes : List Byte → Nat
  | [] => 0
  | b :: bs => b.toNat + 256 * numberOfBytes bs

/-- The code at bit `p` of a stream given as a list of bytes, or EXHAUST (40_unpacker R61, R62). -/
def decodeStream (k : CodeContext) (bytes : List Byte) (p : Nat) : Instr :=
  if 8 * bytes.length < p + k.width then decodeCode k none
  else decodeCode k (some (BitVec.ofNat 13 ((numberOfBytes bytes >>> p) % 2 ^ k.width)))

/-- A host command laid out as six bytes, low byte first, with the bytes after it. -/
def decodeAccessBytes (bytes : List Byte) : Except DecodeError (Instr × List Byte) :=
  if bytes.length < 6 then .error (.tooShort bytes.length)
  else if 2 ^ 41 ≤ numberOfBytes (bytes.take 6) then .error .strayBits
  else
    match decodeAccess (BitVec.ofNat 41 (numberOfBytes (bytes.take 6))) with
    | .ok i => .ok (i, bytes.drop 6)
    | .error e => .error e

/-- The low `n` bytes of a number, low byte first. -/
def bytesOfNumber : Nat → Nat → List Byte
  | 0, _ => []
  | n + 1, v => BitVec.ofNat 8 v :: bytesOfNumber n (v / 256)

/-- The context in which a code row of the opcode table is decoded when nothing but its bits is given: program P1 of
95_test_vectors before its fifth step, where every class has a code of W = 4 bits (log 16). CLEAR 4, END 5, LITERAL 0 to 3,
KNOWN 6 and 7, KWKWK 8, INVALID 9 to 15. -/
def tableContext : CodeContext := { iw := 2, cw := 3, next := 8, prev := some 2 }

/-- The instruction the decoder reads from the bits of a row of the opcode table. No bits: no code is read. Up to 16 bits: a
code, at `tableContext`. More: a host command (log 16). -/
def decodeTableWord (nbits w : Nat) : Option Instr :=
  if nbits = 0 then some (decodeStream tableContext [] 0)
  else if nbits ≤ 16 then some (decodeStream tableContext (bytesOfNumber 2 w) 0)
  else
    match decodeAccessBytes (bytesOfNumber 6 w) with
    | .ok (i, _) => some i
    | .error _ => none

/-! ## The opcode table's host rows -/

/-- A row of the opcode table: the words `w` with `w &&& mask = value`. -/
structure TableRow where
  mnemonic : String
  mask     : AccessWord
  value    : AccessWord
  deriving DecidableEq, Repr

def TableRow.holds (r : TableRow) (w : AccessWord) : Bool := w &&& r.mask == r.value

/-- The 31 host rows of the opcode table (30_encoding R59), in its order. -/
def hostRows : List TableRow :=
  [⟨"START", 0x1FF00000001#41, 0x10000000001#41⟩,
   ⟨"CTRL_NOP", 0x1FF00000001#41, 0x10000000000#41⟩,
   ⟨"READ_CTRL", 0x1FF00000000#41, 0x00000000000#41⟩,
   ⟨"READ_STATUS", 0x1FF00000000#41, 0x00400000000#41⟩,
   ⟨"WRITE_IW", 0x1FF00000000#41, 0x10800000000#41⟩,
   ⟨"WRITE_IN_LEN", 0x1FF00000000#41, 0x10C00000000#41⟩,
   ⟨"WRITE_EXP_LEN", 0x1FF00000000#41, 0x11000000000#41⟩,
   ⟨"READ_IW", 0x1FF00000000#41, 0x00800000000#41⟩,
   ⟨"READ_IN_LEN", 0x1FF00000000#41, 0x00C00000000#41⟩,
   ⟨"READ_EXP_LEN", 0x1FF00000000#41, 0x01000000000#41⟩] ++
  [⟨"READ_OUT_COUNT", 0x1FF00000000#41, 0x01400000000#41⟩,
   ⟨"READ_ERR_BYTE", 0x1FF00000000#41, 0x01800000000#41⟩,
   ⟨"READ_NEXT", 0x1FF00000000#41, 0x01C00000000#41⟩,
   ⟨"READ_PREV", 0x1FF00000000#41, 0x02000000000#41⟩,
   ⟨"READ_CODE_COUNT", 0x1FF00000000#41, 0x02400000000#41⟩,
   ⟨"READ_BITPOS_BYTE", 0x1FF00000000#41, 0x02800000000#41⟩,
   ⟨"READ_BITPOS_BIT", 0x1FF00000000#41, 0x02C00000000#41⟩] ++
  [⟨"WRITE_RO", 0x1FF00000000#41, 0x10400000000#41⟩,
   ⟨"WRITE_RO", 0x1FF00000000#41, 0x11400000000#41⟩,
   ⟨"WRITE_RO", 0x1FF00000000#41, 0x11800000000#41⟩,
   ⟨"WRITE_RO", 0x1FF00000000#41, 0x11C00000000#41⟩,
   ⟨"WRITE_RO", 0x1FF00000000#41, 0x12000000000#41⟩,
   ⟨"WRITE_RO", 0x1FF00000000#41, 0x12400000000#41⟩,
   ⟨"WRITE_RO", 0x1FF00000000#41, 0x12800000000#41⟩,
   ⟨"WRITE_RO", 0x1FF00000000#41, 0x12C00000000#41⟩] ++
  [⟨"READ_RSVD", 0x1F300000000#41, 0x03000000000#41⟩,
   ⟨"READ_RSVD", 0x1C300000000#41, 0x04000000000#41⟩,
   ⟨"READ_RSVD", 0x18300000000#41, 0x08000000000#41⟩,
   ⟨"WRITE_RSVD", 0x1F300000000#41, 0x13000000000#41⟩,
   ⟨"WRITE_RSVD", 0x1C300000000#41, 0x14000000000#41⟩,
   ⟨"WRITE_RSVD", 0x18300000000#41, 0x18000000000#41⟩]

/-- The mnemonic of an instruction's rows in the opcode table. -/
def Instr.mnemonic : Instr → String
  | .clear => "CLEAR"
  | .endCode => "END"
  | .invalid _ => "INVALID"
  | .literal _ => "LITERAL"
  | .kwkwk _ => "KWKWK"
  | .known _ => "KNOWN"
  | .exhaust => "EXHAUST"
  | .start _ => "START"
  | .ctrlNop _ => "CTRL_NOP"
  | .readCtrl => "READ_CTRL"
  | .readStatus => "READ_STATUS"
  | .writeIw _ => "WRITE_IW"
  | .writeInLen _ => "WRITE_IN_LEN"
  | .writeExpLen _ => "WRITE_EXP_LEN"
  | .readIw => "READ_IW"
  | .readInLen => "READ_IN_LEN"
  | .readExpLen => "READ_EXP_LEN"
  | .readOutCount => "READ_OUT_COUNT"
  | .readErrByte => "READ_ERR_BYTE"
  | .readNext => "READ_NEXT"
  | .readPrev => "READ_PREV"
  | .readCodeCount => "READ_CODE_COUNT"
  | .readBitposByte => "READ_BITPOS_BYTE"
  | .readBitposBit => "READ_BITPOS_BIT"
  | .writeRo _ _ => "WRITE_RO"
  | .readRsvd _ => "READ_RSVD"
  | .writeRsvd _ _ => "WRITE_RSVD"

/-! ## The encoder -/

/-- The register number of a read-only register (30_encoding R53). -/
def RoReg.index : RoReg → BitVec 6
  | .status => 1
  | .outCount => 5
  | .errByte => 6
  | .next => 7
  | .prev => 8
  | .codeCount => 9
  | .bitposByte => 10
  | .bitposBit => 11

/-- The word `{dir, 4 * k, data}` of an access to register number `k` (30_encoding R59). -/
def accessWord (dir k data : Nat) : AccessWord := BitVec.ofNat 41 (dir * 2 ^ 40 + 4 * k * 2 ^ 32 + data)

/-- The read of register number `k`; its data bits mean nothing and are written 0 (30_encoding R59; log 18). -/
def encodeRead (k : BitVec 6) : AccessWord := accessWord 0 k.toNat 0

/-- The write of `d` to register number `k` (30_encoding R59). -/
def encodeWrite (k : BitVec 6) (d : Word) : AccessWord := accessWord 1 k.toNat d.toNat

/-- The encoded form of an instruction at a decoding context. -/
def encode (k : CodeContext) : Instr → Encoded
  | .clear => .code (BitVec.ofNat 13 k.clr)
  | .endCode => .code (BitVec.ofNat 13 k.eoi)
  | .invalid c => .code c
  | .literal c => .code c
  | .kwkwk c => .code c
  | .known c => .code c
  | .exhaust => .noCode
  | .start rest => .access (encodeWrite 0 (BitVec.ofNat 32 (2 * rest.toNat + 1)))
  | .ctrlNop rest => .access (encodeWrite 0 (BitVec.ofNat 32 (2 * rest.toNat)))
  | .readCtrl => .access (encodeRead 0)
  | .readStatus => .access (encodeRead 1)
  | .writeIw d => .access (encodeWrite 2 d)
  | .writeInLen d => .access (encodeWrite 3 d)
  | .writeExpLen d => .access (encodeWrite 4 d)
  | .readIw => .access (encodeRead 2)
  | .readInLen => .access (encodeRead 3)
  | .readExpLen => .access (encodeRead 4)
  | .readOutCount => .access (encodeRead 5)
  | .readErrByte => .access (encodeRead 6)
  | .readNext => .access (encodeRead 7)
  | .readPrev => .access (encodeRead 8)
  | .readCodeCount => .access (encodeRead 9)
  | .readBitposByte => .access (encodeRead 10)
  | .readBitposBit => .access (encodeRead 11)
  | .writeRo r d => .access (encodeWrite r.index d)
  | .readRsvd i => .access (encodeRead i)
  | .writeRsvd i d => .access (encodeWrite i d)

/-! ## Stream notation (30_encoding R56) -/

/-- A token of a stream: `CLR`, `END` or a data code. -/
inductive Token where
  | clr
  | fin
  | code (n : Nat)
  deriving DecidableEq, Repr

/-- What the assembler tracks: the width register, the next free index, and whether there is a previous code. -/
structure AsmState where
  cw      : Nat
  next    : Nat
  hasPrev : Bool
  deriving DecidableEq, Repr

/-- Right after START or a clear code (41_control_codes R65). -/
def AsmState.fresh (iw : Nat) : AsmState := { cw := iw, next := 2 ^ iw + 2, hasPrev := false }

/-- The value of a token (30_encoding R49, R56). -/
def Token.value (iw : Nat) : Token → Nat
  | .clr => 2 ^ iw
  | .fin => 2 ^ iw + 1
  | .code n => n

/-- The width schedule of 30_encoding R47, by 42_data_codes R74 and R75, after a code of value `c`. DESIGN CHOICE: R56 gives no
width to a token that the block does not read. The end code leaves the width as it is, and every code but the two reserved
ones counts as a data code that completes, also where the block stops at it (log 22). -/
def AsmState.after (cap iw : Nat) (a : AsmState) (c : Nat) : AsmState :=
  if c = 2 ^ iw then AsmState.fresh iw
  else if c = 2 ^ iw + 1 then a
  else if a.hasPrev && decide (a.next < Config.dictSize cap) then
    { cw := if 2 ^ (a.cw + 1) ≤ a.next + 1 ∧ a.cw < cap then a.cw + 1 else a.cw
      next := a.next + 1
      hasPrev := true }
  else { a with hasPrev := true }

/-- The codes of a token list, each with the width the block reads it with where it reads it (log 22). -/
def assembleFields (cap iw : Nat) : AsmState → List Token → List (Nat × Nat)
  | _, [] => []
  | a, t :: ts => (a.cw + 1, t.value iw) :: assembleFields cap iw (a.after cap iw (t.value iw)) ts

/-- The bits of a code at a width, bit 0 first. -/
def bitsOfCode : Nat → Nat → List Bool
  | 0, _ => []
  | n + 1, v => decide (v % 2 = 1) :: bitsOfCode n (v / 2)

/-- The number whose bits are given, bit 0 first. -/
def numberOfBits : List Bool → Nat
  | [] => 0
  | b :: bs => b.toNat + 2 * numberOfBits bs

/-- The bits of a list of codes one after another, with no padding between them (20_memory R35). -/
def bitsOfFields : List (Nat × Nat) → List Bool
  | [] => []
  | f :: fs => bitsOfCode f.1 f.2 ++ bitsOfFields fs

/-- Bits packed into bytes, the last byte padded with zeros (30_encoding R56). -/
def packBits (bits : List Bool) : List Byte := bytesOfNumber ((bits.length + 7) / 8) (numberOfBits bits)

/-- The bytes of a token list for an initial width, at a width cap. -/
def assemble (iw : Nat) (ts : List Token) (cap : Nat := Config.CW_CAP) : List Byte :=
  packBits (bitsOfFields (assembleFields cap iw (AsmState.fresh iw) ts))

end Sys2Proof
end

