-- ==== Sys2Proof/Machine/State.lean ====
section
/-! DEFINITION. The state of the block (10_state R10 to R23) as plain data, what an outside agent can ask of it next, and the
ways a step can stop. -/

namespace Sys2Proof.Machine

/-- `STATE` (10_state R18). -/
inductive RunState where
  | idle | run | done | error
  deriving DecidableEq, Repr

/-- `ERR` (60_exceptions R100); the reserved values 6..15 are never produced (K8). -/
inductive ErrCode where
  | eNone | badWidth | invalidCode | overrun | underrun | selfRef
  deriving DecidableEq, Repr

/-- The size of a host access to the register window (20_memory R36). -/
inductive AccessSize where
  | byte | half | word
  deriving DecidableEq, Repr

/-- One step of an agent, chosen by the outside world (00_scope R8, 20_memory R40; log 2). -/
inductive Move where
  /-- The engine takes its turn. -/
  | engine
  /-- A host access to the register window (43_host_commands R85). -/
  | access (size : AccessSize) (w : AccessWord)
  /-- A host write of byte `i` of `IN` (43_host_commands R94). -/
  | writeIn (i : BitVec 32) (b : Byte)
  /-- A host read of element `j` of `OUT` (43_host_commands R95). -/
  | readOut (j : BitVec 32)
  /-- A hardware reset (70_reset_and_hazards R115). -/
  | hardReset
  deriving DecidableEq, Repr

/-- A byte memory: the written bytes by offset, offsets strictly rising. An offset that is not listed holds no value the
model knows; what it reads as is said once, in `State.inByte` and `State.outByte` (log 6, log 7). -/
abbrev Memory := List Host.Cell

/-- The defined entries of `DICT` by index, indices strictly rising (10_state R21; log 5). -/
abbrev Dict := List (Nat × DictEntry)

structure State where
  /-- `IW` (10_state R11). -/
  iw       : BitVec 8
  /-- `IN_LEN` (10_state R11). -/
  inLen    : BitVec 32
  /-- `EXP_LEN` (10_state R11). -/
  expLen   : BitVec 32
  /-- The code-width register (10_state R12). -/
  cw       : BitVec 4
  /-- The bit cursor (10_state R13). -/
  bitpos   : BitOffset
  /-- The next free dictionary index (10_state R14). -/
  next     : BitVec 14
  /-- The previous code; `none` is NONE (10_state R15). -/
  prev     : Option Code
  /-- The output count (10_state R16). -/
  outpos   : BitVec 32
  /-- The code counter (10_state R17). -/
  codes    : BitVec 32
  /-- `STATE` (10_state R18). -/
  st       : RunState
  /-- `ERR` (10_state R19). -/
  err      : ErrCode
  /-- `err_pos` (10_state R19). -/
  errPos   : BitOffset
  /-- `STOP_END` (10_state R19). -/
  stopEnd  : Bool
  /-- `DICT` (10_state R20, R21). -/
  dict     : Dict
  /-- `IN`, by byte index (10_state R22). -/
  inBuf    : Memory
  /-- `OUT`, by byte offset from `OUT_BASE`: element `j` at `2j` and `2j + 1` (10_state R23, 20_memory R34). -/
  outBuf   : Memory
  /-- The model's own: what the host's last read returned (log 4). -/
  hostData : Word
  /-- The model's own: the moves the outside world has chosen, next one first (log 2). -/
  agenda   : List Move
  /-- The model's own: selects the free values of undefined dictionary entries (log 5). -/
  dictFresh : Nat
  /-- The model's own: selects the free values an `E_SELF_REF` leaves in `OUT` (log 8). -/
  outFresh : Nat
  deriving DecidableEq, Repr

/-- Why the machine stops. -/
inductive Fault where
  /-- Raised by the expansion walk of a data code whose prefix chain never meets a NONE entry: the loop of
  42_data_codes R78 would not end. No run reaches it (10_state R26 item 4). Safe: the model stops where the block hangs. -/
  | brokenChain
  deriving DecidableEq, Repr

/-- Why the model admits no step. -/
inductive Refusal where
  /-- An instruction without a meaning yet, raised by `exec`. Safe. -/
  | notModelled (mnemonic : String)
  /-- A byte or halfword access to the register window, raised by the host's move (20_memory R36, K10). Safe. -/
  | accessSize (size : AccessSize)
  /-- An access to the register window at an offset that is no multiple of 4, raised by the host's move
  (20_memory R36, K10). Safe. -/
  | misaligned (offset : BitVec 8)
  /-- A host write to `IN` while `STATE = RUN`, raised by the host's move (43_host_commands R94, K11). Safe. -/
  | inWriteWhileRun
  deriving DecidableEq, Repr

/-- The block right after a hardware reset (10_state R27, 70_reset_and_hazards R115). `IN` and `OUT` are not reset: nothing in
them is known (log 6, log 7). The last four fields are the model's own (log 2, log 4, log 5, log 8). -/
def State.reset : State where
  iw := 0
  inLen := 0
  expLen := 0
  cw := 0
  bitpos := 0
  next := 0
  prev := none
  outpos := 0
  codes := 0
  st := .idle
  err := .eNone
  errPos := 0
  stopEnd := false
  dict := []
  inBuf := []
  outBuf := []
  hostData := 0
  agenda := []
  dictFresh := 0
  outFresh := 0

end Sys2Proof.Machine
end

