-- ==== Sys2Proof/Machine/Ops.lean ====
section
/-! DEFINITION. The operations over memories, the dictionary and the registers that the meanings share, raising an error
(60_exceptions R105) and the table reset (41_control_codes R65) among them. -/

namespace Sys2Proof.Machine

/-! ## Lists of (key, value) in canonical form: keys strictly rising -/

def Sparse.wf {α : Type} : List (Nat × α) → Bool
  | [] => true
  | [_] => true
  | x :: y :: rest => decide (x.1 < y.1) && Sparse.wf (y :: rest)

def Sparse.get? {α : Type} : List (Nat × α) → Nat → Option α
  | [], _ => none
  | x :: rest, a => if x.1 = a then some x.2 else Sparse.get? rest a

def Sparse.set {α : Type} : List (Nat × α) → Nat → α → List (Nat × α)
  | [], a, v => [(a, v)]
  | x :: rest, a, v =>
    if a < x.1 then (a, v) :: x :: rest
    else if a = x.1 then (a, v) :: rest
    else x :: Sparse.set rest a v

/-- The keys `a, a + 1, …, a + n - 1` set to what `f` gives them. -/
def Sparse.fill {α : Type} (m : List (Nat × α)) (a : Nat) (f : Nat → α) : Nat → List (Nat × α)
  | 0 => m
  | n + 1 => Sparse.set (Sparse.fill m a f n) (a + n) (f (a + n))

/-! ## Memories -/

/-- The canonical form of a memory. -/
def Memory.wf (m : Memory) : Bool := Sparse.wf m

def Memory.read (m : Memory) (a : Nat) : Option Byte := Sparse.get? m a

def Memory.write (m : Memory) (a : Nat) (b : Byte) : Memory := Sparse.set m a b

/-- `MemWrite_OUT(j, s)`: element `j`, little-endian at byte offset `2j` (20_memory R34). -/
def Memory.writeElement (m : Memory) (j : Nat) (v : Element) : Memory :=
  Memory.write (Memory.write m (2 * j) (v.extractLsb' 0 8)) (2 * j + 1) (v.extractLsb' 8 8)

/-- `MemRead_IN(i)`; a byte the host never wrote is a free value (log 6). -/
def State.inByte (s : State) (i : Nat) : Byte := (Memory.read s.inBuf i).getD (Config.unwrittenIn i)

/-- The byte of `OUT` at an offset; a byte nothing wrote is a free value (log 7). -/
def State.outByte (s : State) (a : Nat) : Byte := (Memory.read s.outBuf a).getD (Config.unwrittenOut a)

/-- `OUT[j]` (10_state R23, 20_memory R34). -/
def State.outElement (s : State) (j : Nat) : Element := s.outByte (2 * j + 1) ++ s.outByte (2 * j)

/-! ## The dictionary -/

/-- `DICT[c]`; an undefined entry is a free value (10_state R21, K1; log 5). -/
def State.entry (s : State) (c : Nat) : DictEntry :=
  (Sparse.get? s.dict c).getD (Config.undefinedEntry s.dictFresh c)

/-- The literal entries `0 .. n - 1` (41_control_codes R65). -/
def literalEntries (n : Nat) : Dict := (List.range n).map fun v => (v, ⟨1, none, BitVec.ofNat 12 v⟩)

/-- `ResetTable()` (41_control_codes R65). The entries it does not seed become undefined (10_state R21). -/
def State.resetTable (s : State) : State :=
  { s with
    dict := literalEntries (2 ^ s.iw.toNat)
    dictFresh := s.dictFresh + 1
    cw := s.iw.setWidth 4
    next := BitVec.ofNat 14 (2 ^ s.iw.toNat + 2)
    prev := none }

/-! ## Errors, the cursor and the host's latch -/

/-- `raise E_X(pos)` (60_exceptions R105): the registers hold their start-of-step values and the dictionary entries that are
not defined hold any value (K6). Applied to the state at the step's start, so that what the step staged is discarded. -/
def State.raise (s : State) (e : ErrCode) (pos : BitOffset) : State :=
  { s with st := .error, err := e, errPos := pos, dictFresh := s.dictFresh + 1 }

/-- The cursor advance of a code step that completes (40_unpacker R63). -/
def State.advance (s : State) (w : Nat) : State :=
  { s with bitpos := s.bitpos + BitVec.ofNat 35 w, codes := s.codes + 1 }

/-- A read returns a value and has no side effect (20_memory R37, 43_host_commands R85; log 4). -/
def State.reply (s : State) (v : Word) : State := { s with hostData := v }

/-- A hardware reset: every register to its reset value, `DICT` unspecified, `IN` and `OUT` unchanged
(70_reset_and_hazards R115; log 11, log 13). -/
def State.hardReset (s : State) : State :=
  { State.reset with
    inBuf := s.inBuf
    outBuf := s.outBuf
    hostData := s.hostData
    agenda := s.agenda
    dictFresh := s.dictFresh + 1
    outFresh := s.outFresh }

end Sys2Proof.Machine
end

