-- ==== Sys2Proof/Machine/Operands.lean ====
section
/-! DEFINITION. The operands of a code step: the width, the reserved codes, and the code fetched from the input stream
(30_encoding R45 to R49, 40_unpacker R60 to R62); and the operands of a data code: its entry's first symbol (42_data_codes R70). -/

namespace Sys2Proof.Machine

/-- What the decoder needs of the state (30_encoding R48). -/
def State.context (s : State) : CodeContext := { iw := s.iw, cw := s.cw, next := s.next, prev := s.prev }

/-- W (30_encoding R45). -/
def State.width (s : State) : Nat := s.cw.toNat + 1

/-- `InBit(k)` (40_unpacker R60). -/
def State.inBit (s : State) (k : Nat) : Nat := ((s.inByte (k >>> 3)).toNat >>> (k % 8)) % 2

/-- `FetchCode(p, W)` (40_unpacker R61). -/
def State.fetchCode (s : State) (p : Nat) : Nat → Nat
  | 0 => 0
  | n + 1 => s.fetchCode p n + s.inBit (p + n) <<< n

/-- The availability test and the fetch (40_unpacker R62): no code where fewer than W bits remain. -/
def State.fetch (s : State) : Option Code :=
  if 8 * s.inLen.toNat < s.bitpos.toNat + s.width then none
  else some (BitVec.ofNat 13 (s.fetchCode s.bitpos.toNat s.width))

/-- How many entries a prefix chain can have before one of them repeats: the number of codes. -/
def chainFuel : Nat := 2 ^ 13

/-- `First(d)` where it is defined (42_data_codes R70): the suffix of the NONE entry the prefix links lead to. -/
def State.firstOnChain (s : State) : Nat → Code → Option Symbol
  | 0, _ => none
  | n + 1, d =>
    match (s.entry d.toNat).prefixCode with
    | none => some (s.entry d.toNat).suffix
    | some p => s.firstOnChain n p

/-- `First(d)`; on a chain without a NONE entry R70 defines no value, and it is free (log 9). -/
def State.first (s : State) (d : Code) : Symbol :=
  (s.firstOnChain chainFuel d).getD (Config.undefinedFirst s.dictFresh d.toNat)

end Sys2Proof.Machine
end

