-- ==== Sys2Proof/Machine/ControlCodes.lean ====
section
/-! DEFINITION. The control codes: CLEAR, END and EXHAUST (41_control_codes). -/

namespace Sys2Proof.Machine

/-- CLEAR (41_control_codes R67): the table reset, and the cursor past the code at the width it was read with. -/
def execClear (s : State) : Host.Outcome State Fault Refusal :=
  .next (s.resetTable.advance s.width)

/-- END (41_control_codes R66). -/
def execEndCode (s : State) : Host.Outcome State Fault Refusal :=
  let ended := { s with stopEnd := true }
  if s.outpos = s.expLen then .next { ended.advance s.width with st := .done }
  else .next (ended.raise .underrun s.bitpos)

/-- EXHAUST (41_control_codes R68). -/
def execExhaust (s : State) : Host.Outcome State Fault Refusal :=
  let ended := { s with stopEnd := false }
  if s.outpos = s.expLen then .next { ended with st := .done }
  else .next (ended.raise .underrun s.bitpos)

end Sys2Proof.Machine
end

