-- ==== Sys2Proof/Machine/DataCodes.lean ====
section
/-! DEFINITION. The data codes LITERAL, KNOWN and KWKWK over the one procedure DataCode, and INVALID (42_data_codes). -/

namespace Sys2Proof.Machine

/-- The entry a step learns after the previous code `p` (42_data_codes R73). -/
def State.learnedEntry (s : State) (c p : Code) : DictEntry where
  len := (s.entry p.toNat).len + 1
  prefixCode := some p
  suffix := if c.toNat = s.next.toNat then s.first p else s.first c

/-- The width after a step that learns, tested on the incremented index (42_data_codes R75). -/
def State.bumpedWidth (s : State) (cap : Nat) : BitVec 4 :=
  if 2 ^ (s.cw.toNat + 1) ≤ s.next.toNat + 1 ∧ s.cw.toNat < cap then s.cw + 1 else s.cw

/-- Learning and the width bump (42_data_codes R74, R75), staged before the expansion (R76). -/
def State.learn (s : State) (c : Code) (cap : Nat) : State :=
  match s.prev with
  | none => s
  | some p =>
    if s.next.toNat < Config.dictSize cap then
      { s with
        dict := Sparse.set s.dict s.next.toNat (s.learnedEntry c p)
        next := s.next + 1
        cw := s.bumpedWidth cap }
    else s

/-- How an expansion walk ends. -/
inductive Expansion where
  /-- At a NONE entry, with the run written. -/
  | complete (out : Memory)
  /-- At an entry that is its own prefix (42_data_codes R83). -/
  | selfRef
  /-- Never: an entry was met twice. -/
  | broken
  deriving DecidableEq, Repr

/-- The expansion walk from entry `d` (42_data_codes R78); `base` is `outpos`. Each entry writes its suffix at the end of the
sequence it names. -/
def State.expand (s : State) (base : Nat) : Nat → Code → Memory → Expansion
  | 0, _, _ => .broken
  | n + 1, d, out =>
    let e := s.entry d.toNat
    let written := Memory.writeElement out (base + e.len.toNat - 1) (e.suffix.setWidth 16)
    match e.prefixCode with
    | none => .complete written
    | some p => if p = d then .selfRef else s.expand base n p written

/-- What an `E_SELF_REF` leaves in `OUT`: any value in the elements `outpos .. EXP_LEN - 1` (60_exceptions R105, K3; log 8). -/
def State.corruptOutput (s : State) : State :=
  { s with
    outBuf := Sparse.fill s.outBuf (2 * s.outpos.toNat) (Config.corruptOut s.outFresh)
      (2 * (s.expLen.toNat - s.outpos.toNat))
    outFresh := s.outFresh + 1 }

/-- The commit of a successful data-code step (42_data_codes R79): `run` symbols were written, to `out`, by a code of `w` bits. -/
def State.commit (learned : State) (c : Code) (run : Nat) (out : Memory) (w : Nat) : State :=
  State.advance
    { learned with outBuf := out, outpos := learned.outpos + BitVec.ofNat 32 run, prev := some c } w

/-- `DataCode(c, W)` (42_data_codes R84): learn, check the output bound (R77), expand (R78), commit (R79). An error is raised on
the state at the step's start, which discards what was staged (60_exceptions R105). -/
def State.dataCode (s : State) (c : Code) (cap : Nat) : Host.Outcome State Fault Refusal :=
  let learned := s.learn c cap
  let run := (learned.entry c.toNat).len.toNat
  if s.expLen.toNat < s.outpos.toNat + run then .next (s.raise .overrun s.bitpos)
  else
    match learned.expand s.outpos.toNat chainFuel c s.outBuf with
    | .complete out => .next (learned.commit c run out s.width)
    | .selfRef => .next (s.corruptOutput.raise .selfRef s.bitpos)
    | .broken => .fault .brokenChain

/-- INVALID (42_data_codes R72). -/
def execInvalid (_c : Code) (s : State) : Host.Outcome State Fault Refusal :=
  .next (s.raise .invalidCode s.bitpos)

/-- LITERAL (42_data_codes R80). -/
def execLiteral (c : Code) (s : State) (cap : Nat := Config.CW_CAP) : Host.Outcome State Fault Refusal :=
  s.dataCode c cap

/-- KNOWN (42_data_codes R81). -/
def execKnown (c : Code) (s : State) (cap : Nat := Config.CW_CAP) : Host.Outcome State Fault Refusal :=
  s.dataCode c cap

/-- KWKWK (42_data_codes R82): the entry learned is the one expanded. -/
def execKwkwk (c : Code) (s : State) (cap : Nat := Config.CW_CAP) : Host.Outcome State Fault Refusal :=
  s.dataCode c cap

end Sys2Proof.Machine
end

