-- ==== Sys2Proof/Machine/Flags.lean ====
section
/-! DEFINITION. The block has no condition codes (10_state R24): its derived conditions, the status encodings of 30_encoding R54,
what each register of the window reads as (R53), and where the platform sees them (20_memory R34). -/

namespace Sys2Proof.Machine

/-- `first_code` (10_state R24). -/
def State.firstCode (s : State) : Bool := s.prev.isNone

/-- `table_full` (10_state R24). -/
def State.tableFull (s : State) (cap : Nat := Config.CW_CAP) : Bool := decide (s.next.toNat = Config.dictSize cap)

/-- `busy` (10_state R24). -/
def State.busy (s : State) : Bool := decide (s.st = .run)

/-- The level `done_o` (43_host_commands R96). -/
def State.doneO (s : State) : Bool := decide (s.st = .done) || decide (s.st = .error)

/-- The line of the processor that `done_o` asserts, if it is routed to one (92_eei_decisions D20; log 14). -/
def State.assertedLine (s : State) : Option Nat := if s.doneO then Config.DONE_ROUTING else none

/-- The encoding of `STATE` (30_encoding R54). -/
def RunState.code : RunState → BitVec 2
  | .idle => 0
  | .run => 1
  | .done => 2
  | .error => 3

/-- The encoding of `ERR` (60_exceptions R100). -/
def ErrCode.code : ErrCode → BitVec 4
  | .eNone => 0
  | .badWidth => 1
  | .invalidCode => 2
  | .overrun => 3
  | .underrun => 4
  | .selfRef => 5

/-- The `STATUS` word (43_host_commands R91). -/
def State.statusWord (s : State) : Word :=
  s.st.code.setWidth 32 ||| (BitVec.ofBool s.stopEnd).setWidth 32 <<< 2 ||| s.err.code.setWidth 32 <<< 4 |||
    s.cw.setWidth 32 <<< 8 ||| (s.errPos &&& 7).setWidth 32 <<< 12

/-- The `PREV` word (43_host_commands R92). -/
def State.prevWord (s : State) : Word :=
  match s.prev with
  | none => 1 <<< 31
  | some p => p.setWidth 32

/-- What register number `k` of the window, at offset `4 * k`, reads as (30_encoding R53, 43_host_commands R86, R88, R91, R92). -/
def State.registerValue (s : State) (k : BitVec 6) : Word :=
  match k.toNat with
  | 1 => s.statusWord
  | 2 => s.iw.setWidth 32
  | 3 => s.inLen
  | 4 => s.expLen
  | 5 => s.outpos
  | 6 => (s.errPos >>> 3).setWidth 32
  | 7 => s.next.setWidth 32
  | 8 => s.prevWord
  | 9 => s.codes
  | 10 => (s.bitpos >>> 3).setWidth 32
  | 11 => (s.bitpos &&& 7).setWidth 32
  | _ => 0

/-- Where the platform sees byte `b` of register number `k` (20_memory R34). -/
def registerAddress (k : BitVec 6) (b : Nat) : Nat := Config.REG_BASE + 4 * k.toNat + b

/-- Byte `b` of register number `k`, at `registerAddress k b`: bits `8b+7 .. 8b` (20_memory R34). -/
def State.registerByte (s : State) (k : BitVec 6) (b : Nat) : Byte := (s.registerValue k).extractLsb' (8 * b) 8

/-- Where the platform holds byte `i` of `IN` (20_memory R30). -/
def inAddress (i : Nat) : Nat := Config.IN_BASE + i

/-- Where the platform holds the byte of `OUT` at an offset; element `j` is at `outAddress (2 * j)` (20_memory R34). -/
def outAddress (a : Nat) : Nat := Config.OUT_BASE + a

end Sys2Proof.Machine
end

