-- ==== Sys2Proof/Machine/HostReads.lean ====
section
/-! DEFINITION. The host's reads of the register window (43_host_commands R86, R88, R91, R92): each returns the register's value
(30_encoding R53) and changes nothing else. -/

namespace Sys2Proof.Machine

def execReadCtrl (s : State) : Host.Outcome State Fault Refusal := .next (s.reply (s.registerValue 0))
def execReadStatus (s : State) : Host.Outcome State Fault Refusal := .next (s.reply (s.registerValue 1))
def execReadIw (s : State) : Host.Outcome State Fault Refusal := .next (s.reply (s.registerValue 2))
def execReadInLen (s : State) : Host.Outcome State Fault Refusal := .next (s.reply (s.registerValue 3))
def execReadExpLen (s : State) : Host.Outcome State Fault Refusal := .next (s.reply (s.registerValue 4))
def execReadOutCount (s : State) : Host.Outcome State Fault Refusal := .next (s.reply (s.registerValue 5))
def execReadErrByte (s : State) : Host.Outcome State Fault Refusal := .next (s.reply (s.registerValue 6))
def execReadNext (s : State) : Host.Outcome State Fault Refusal := .next (s.reply (s.registerValue 7))
def execReadPrev (s : State) : Host.Outcome State Fault Refusal := .next (s.reply (s.registerValue 8))
def execReadCodeCount (s : State) : Host.Outcome State Fault Refusal := .next (s.reply (s.registerValue 9))
def execReadBitposByte (s : State) : Host.Outcome State Fault Refusal := .next (s.reply (s.registerValue 10))
def execReadBitposBit (s : State) : Host.Outcome State Fault Refusal := .next (s.reply (s.registerValue 11))

/-- READ_RSVD (43_host_commands R86): the reserved register number `k`. -/
def execReadRsvd (k : BitVec 6) (s : State) : Host.Outcome State Fault Refusal := .next (s.reply (s.registerValue k))

end Sys2Proof.Machine
end

