-- ==== Sys2Proof/Machine/HostWrites.lean ====
section
/-! DEFINITION. The host's writes to the register window (43_host_commands R87 to R90, R93, R86). -/

namespace Sys2Proof.Machine

/-- START (43_host_commands R87); ignored while RUN (R90). An illegal width raises `E_BAD_WIDTH` (60_exceptions R107). -/
def execStart (_rest : BitVec 31) (s : State) (cap : Nat := Config.CW_CAP) : Host.Outcome State Fault Refusal :=
  if s.busy then .next s
  else
    let cleared :=
      { s with
        err := .eNone, errPos := 0, stopEnd := false, bitpos := 0, outpos := 0, codes := 0, prev := none }
    if s.iw.toNat < 1 ∨ cap < s.iw.toNat then .next (State.raise { cleared with cw := 0, next := 0 } .badWidth 0)
    else .next { cleared.resetTable with st := .run }

/-- CTRL written with bit 0 = 0 (43_host_commands R88). -/
def execCtrlNop (_rest : BitVec 31) (s : State) : Host.Outcome State Fault Refusal := .next s

/-- WRITE_IW (43_host_commands R89); ignored while RUN (R90). -/
def execWriteIw (d : Word) (s : State) : Host.Outcome State Fault Refusal :=
  if s.busy then .next s else .next { s with iw := d.setWidth 8 }

/-- WRITE_IN_LEN (43_host_commands R89); ignored while RUN (R90). -/
def execWriteInLen (d : Word) (s : State) : Host.Outcome State Fault Refusal :=
  if s.busy then .next s else .next { s with inLen := d }

/-- WRITE_EXP_LEN (43_host_commands R89); ignored while RUN (R90). -/
def execWriteExpLen (d : Word) (s : State) : Host.Outcome State Fault Refusal :=
  if s.busy then .next s else .next { s with expLen := d }

/-- WRITE_RO (43_host_commands R93). -/
def execWriteRo (_r : RoReg) (_d : Word) (s : State) : Host.Outcome State Fault Refusal := .next s

/-- WRITE_RSVD (43_host_commands R86). -/
def execWriteRsvd (_k : BitVec 6) (_d : Word) (s : State) : Host.Outcome State Fault Refusal := .next s

end Sys2Proof.Machine
end

