-- ==== Sys2Proof/Machine/Dispatch.lean ====
section
/-! DEFINITION. One arm per instruction. -/

namespace Sys2Proof.Machine

def exec (i : Instr) (s : State) : Host.Outcome State Fault Refusal :=
  match i with
  -- 41_control_codes, 42_data_codes
  | .clear => Sys2Proof.Machine.execClear s
  | .endCode => Sys2Proof.Machine.execEndCode s
  | .invalid c => Sys2Proof.Machine.execInvalid c s
  | .literal c => Sys2Proof.Machine.execLiteral c s
  | .kwkwk c => Sys2Proof.Machine.execKwkwk c s
  | .known c => Sys2Proof.Machine.execKnown c s
  | .exhaust => Sys2Proof.Machine.execExhaust s
  -- 43_host_commands
  | .start rest => Sys2Proof.Machine.execStart rest s
  | .ctrlNop rest => Sys2Proof.Machine.execCtrlNop rest s
  | .readCtrl => Sys2Proof.Machine.execReadCtrl s
  | .readStatus => Sys2Proof.Machine.execReadStatus s
  | .writeIw d => Sys2Proof.Machine.execWriteIw d s
  | .writeInLen d => Sys2Proof.Machine.execWriteInLen d s
  | .writeExpLen d => Sys2Proof.Machine.execWriteExpLen d s
  | .readIw => Sys2Proof.Machine.execReadIw s
  | .readInLen => Sys2Proof.Machine.execReadInLen s
  | .readExpLen => Sys2Proof.Machine.execReadExpLen s
  | .readOutCount => Sys2Proof.Machine.execReadOutCount s
  | .readErrByte => Sys2Proof.Machine.execReadErrByte s
  | .readNext => Sys2Proof.Machine.execReadNext s
  | .readPrev => Sys2Proof.Machine.execReadPrev s
  | .readCodeCount => Sys2Proof.Machine.execReadCodeCount s
  | .readBitposByte => Sys2Proof.Machine.execReadBitposByte s
  | .readBitposBit => Sys2Proof.Machine.execReadBitposBit s
  | .writeRo r d => Sys2Proof.Machine.execWriteRo r d s
  | .readRsvd k => Sys2Proof.Machine.execReadRsvd k s
  | .writeRsvd k d => Sys2Proof.Machine.execWriteRsvd k d s

end Sys2Proof.Machine
end

