-- ==== Sys2Proof/Machine/Turn.lean ====
section
/-! DEFINITION. The moves of the two agents and of the reset line, and which of them the next step takes (10_state R10,
00_scope R8, 20_memory R40). -/

namespace Sys2Proof.Machine

/-- `exec` of the block instantiated with a width cap (00_scope R5): START and the three data codes are the instructions
that depend on it (43_host_commands R87, 42_data_codes R74, R75). At the default cap it is `exec`. -/
def execAt (cap : Nat) (i : Instr) (s : State) : Host.Outcome State Fault Refusal :=
  match i with
  | .start r => execStart r s cap
  | .literal c => execLiteral c s cap
  | .kwkwk c => execKwkwk c s cap
  | .known c => execKnown c s cap
  | i => exec i s

/-- The engine's turn (40_unpacker R64): one code step while RUN; the engine has no step otherwise (log 3). -/
def State.engineTurn (s : State) (cap : Nat := Config.CW_CAP) : Host.Outcome State Fault Refusal :=
  if s.busy then execAt cap (decodeCode s.context s.fetch) s else .next s

/-- A host access to the register window (43_host_commands R85, 20_memory R36). -/
def State.windowAccess (s : State) (size : AccessSize) (w : AccessWord) (cap : Nat := Config.CW_CAP) :
    Host.Outcome State Fault Refusal :=
  match size with
  | .word =>
    match decodeAccess w with
    | .ok i => execAt cap i s
    | .error _ => .refused (.misaligned (w.extractLsb' 32 8))
  | .byte => .refused (.accessSize .byte)
  | .half => .refused (.accessSize .half)

/-- A host write of a byte of `IN` (43_host_commands R94, 20_memory R43). -/
def State.hostWriteIn (s : State) (i : BitVec 32) (b : Byte) : Host.Outcome State Fault Refusal :=
  if s.busy then .refused .inWriteWhileRun
  else .next { s with inBuf := Memory.write s.inBuf i.toNat b }

/-- A host read of an element of `OUT` (43_host_commands R95). -/
def State.hostReadOut (s : State) (j : BitVec 32) : Host.Outcome State Fault Refusal :=
  .next (s.reply ((s.outElement j.toNat).setWidth 32))

def State.perform (s : State) (m : Move) (cap : Nat := Config.CW_CAP) : Host.Outcome State Fault Refusal :=
  match m with
  | .engine => s.engineTurn cap
  | .access size w => s.windowAccess size w cap
  | .writeIn i b => s.hostWriteIn i b
  | .readOut j => s.hostReadOut j
  | .hardReset => .next s.hardReset

/-- One step: the next move of the agenda, or the engine's turn where the outside world has chosen none
(70_reset_and_hazards R127; log 2). -/
def State.turn (s : State) (cap : Nat := Config.CW_CAP) : Host.Outcome State Fault Refusal :=
  match s.agenda with
  | [] => s.engineTurn cap
  | m :: rest => State.perform { s with agenda := rest } m cap

/-- The bytes of a code row where the next step fetches its code: the block at the state of program P1 of 95_test_vectors
before its fifth step, where each class of 30_encoding R48 has a code, with the cursor at bit 0 of two bytes, or of none where
the row has no bits (log 16). -/
def State.placeCode (s : State) (nbits w : Nat) : State :=
  { s with
    agenda := .engine :: s.agenda
    st := .run
    iw := tableContext.iw
    cw := tableContext.cw
    next := tableContext.next
    prev := tableContext.prev
    bitpos := 0
    inLen := if nbits = 0 then 0 else 2
    inBuf := if nbits = 0 then s.inBuf else Memory.write (Memory.write s.inBuf 0 (BitVec.ofNat 8 w)) 1 (BitVec.ofNat 8 (w / 256))
    dict := Sparse.set (Sparse.set (literalEntries 4) 6 ⟨2, some 0, 1⟩) 7 ⟨2, some 1, 2⟩ }

/-- A row of the opcode table where the next step fetches its instruction: a host command goes to the head of the agenda
(log 16). -/
def State.placeWord (s : State) (nbits w : Nat) : State :=
  if nbits ≤ 16 then s.placeCode nbits w
  else { s with agenda := .access .word (BitVec.ofNat 41 w) :: s.agenda }

end Sys2Proof.Machine
end

