-- ==== Sys2Proof/Machine/Step.lean ====
section
/-! DEFINITION. The step, for a width cap and at the default one, and where the next instruction is fetched from. -/

namespace Sys2Proof.Machine

/-- The step of the block instantiated with a width cap (00_scope R2, R5; log 1). -/
def stepAt (cap : Nat) (s : State) : Host.Outcome State Fault Refusal := s.turn cap

/-- The step at the default cap. -/
def step (s : State) : Host.Outcome State Fault Refusal := stepAt Config.CW_CAP s

/-- The machine of the block instantiated with a width cap: `Sys2Proof.core` is the one at the default. No reset value
depends on the cap (10_state R27, R28). -/
def coreAt (cap : Nat) : Host.Core where
  State := State
  Fault := Fault
  Refusal := Refusal
  step := stepAt cap
  reset := State.reset

def State.withFetchWord (s : State) (nbits w : Nat) : State := s.placeWord nbits w

end Sys2Proof.Machine
end

