-- ==== Sys2Proof/Safety.lean ====
section
/-! DEFINITION. The terms in which claims about the block are stated: the sequence of a code (42_data_codes R70), the invariants of
10_state R26, and the host contract of 43_host_commands R97. -/

namespace Sys2Proof.Machine

/-- CLR (30_encoding R49). -/
def State.clr (s : State) : Nat := 2 ^ s.iw.toNat

/-- The defined dictionary indices (10_state R21). -/
def State.Defined (s : State) (c : Nat) : Prop := c < s.clr ∨ (s.clr + 2 ≤ c ∧ c < s.next.toNat)

/-- `l` is `Seq(d)` (42_data_codes R70). -/
inductive State.IsSeq (s : State) : Code → List Symbol → Prop where
  | literal (d : Code) (h : (s.entry d.toNat).prefixCode = none) : s.IsSeq d [(s.entry d.toNat).suffix]
  | extend (d p : Code) (l : List Symbol) (h : (s.entry d.toNat).prefixCode = some p) (hp : s.IsSeq p l) :
      s.IsSeq d (l ++ [(s.entry d.toNat).suffix])

/-- A learned entry at index `c` (10_state R26 item 4), with the bounds of R20 on its length and of 00_scope R9 on its
symbol. -/
structure State.LearnedOk (s : State) (c : Nat) (e : DictEntry) (p : Code) : Prop where
  listed     : Sparse.get? s.dict c = some e
  link       : e.prefixCode = some p
  below      : p.toNat < c
  notControl : p.toNat ≠ s.clr ∧ p.toNat ≠ s.clr + 1
  longer     : e.len.toNat = (s.entry p.toNat).len.toNat + 1
  short      : e.len.toNat + s.clr ≤ c
  symbol     : e.suffix.toNat < s.clr

/-- The invariants at the start of every engine step (10_state R26), for a width cap. -/
structure State.RunInv (s : State) (cap : Nat) : Prop where
  /-- R26 item 1. -/
  width      : 1 ≤ s.iw.toNat ∧ s.iw.toNat ≤ s.cw.toNat ∧ s.cw.toNat ≤ cap
  /-- R26 item 2. -/
  index      : s.clr + 2 ≤ s.next.toNat ∧ s.next.toNat ≤ Config.dictSize cap
  /-- R26 item 3. -/
  previous   : ∀ p, s.prev = some p → p.toNat < s.next.toNat ∧ p.toNat ≠ s.clr ∧ p.toNat ≠ s.clr + 1
  /-- R21: the literal entries. -/
  literals   : ∀ c, c < s.clr → Sparse.get? s.dict c = some ⟨1, none, BitVec.ofNat 12 c⟩
  /-- R26 item 4. -/
  learned    : ∀ c, s.clr + 2 ≤ c → c < s.next.toNat → ∃ e p, s.LearnedOk c e p
  /-- R21: nothing else is listed. -/
  onlyDefined : ∀ c, (Sparse.get? s.dict c).isSome = true → s.Defined c
  /-- R26 item 5: every code up to `next` fits W, or the width is capped, or this is `IW = 1` before its first bump. -/
  covers     : s.next.toNat < 2 ^ (s.cw.toNat + 1) ∨ s.cw.toNat = cap ∨
                 (s.iw.toNat = 1 ∧ s.cw.toNat = 1 ∧ s.next.toNat = 4)
  /-- R26 item 6. -/
  cursors    : s.outpos.toNat ≤ s.expLen.toNat ∧ s.bitpos.toNat ≤ 8 * s.inLen.toNat
  /-- The symbols written so far are colour indices (00_scope R9). -/
  symbols    : ∀ j, j < s.outpos.toNat → (s.outElement j).toNat < s.clr

/-- Element `j` of `OUT` has been written, with its upper bits 0 (10_state R23). -/
def State.Written (s : State) (j : Nat) : Prop :=
  (Memory.read s.outBuf (2 * j)).isSome = true ∧ (Memory.read s.outBuf (2 * j + 1)).isSome = true ∧
    (s.outElement j).toNat < 2 ^ 12

/-- The invariant of the machine in every state. -/
structure State.Inv (s : State) (cap : Nat := Config.CW_CAP) : Prop where
  /-- The memories and the dictionary keep their canonical form. -/
  inForm   : Memory.wf s.inBuf = true
  outForm  : Memory.wf s.outBuf = true
  dictForm : Sparse.wf s.dict = true
  /-- `ERR` is 0 exactly outside ERROR (10_state R19). -/
  error    : s.err = .eNone ↔ s.st ≠ .error
  /-- The elements below `outpos` have been written (20_memory R32). -/
  written  : ∀ j, j < s.outpos.toNat → s.Written j
  /-- `STOP_END` is set only where a run stops (10_state R19). -/
  stop     : s.st = .run → s.stopEnd = false
  run      : s.st = .run → s.RunInv cap

/-- A move the host contract allows (43_host_commands R94, R97; 20_memory R36). -/
def Move.inContract (s : State) : Move → Bool
  | .engine => true
  | .access size w => decide (size = .word) && decide ((w.extractLsb' 32 8).toNat % 4 = 0)
  | .writeIn _ _ => !s.busy
  | .readOut _ => true
  | .hardReset => true

/-- The next move, if the outside world has chosen one, is within the contract. -/
def State.NextMoveInContract (s : State) : Prop := ∀ m rest, s.agenda = m :: rest → m.inContract s = true

/-- The host command of the next step, if the next step is a host command. -/
def State.nextCommand (s : State) : Option Instr :=
  match s.agenda with
  | .access .word w :: _ => (decodeAccess w).toOption
  | _ => none

/-- The next step is the engine's turn. -/
def State.EnginesTurn (s : State) : Prop := s.agenda = [] ∨ ∃ rest, s.agenda = .engine :: rest

/-- The state after `n` steps, if none of them stops. -/
def State.after (s : State) (n : Nat) (cap : Nat := Config.CW_CAP) : Option State :=
  match n with
  | 0 => some s
  | n + 1 =>
    match stepAt cap s with
    | .next t => t.after n cap
    | .fault _ => none
    | .refused _ => none

/-- The walk from entry `d` meets an entry that is its own prefix (42_data_codes R83). -/
inductive State.MeetsSelf (s : State) : Code → Prop where
  | here (d : Code) (h : (s.entry d.toNat).prefixCode = some d) : s.MeetsSelf d
  | later (d p : Code) (h : (s.entry d.toNat).prefixCode = some p) (hne : p ≠ d) (hp : s.MeetsSelf p) : s.MeetsSelf d

/-- Two states show the host the same run: the registers a run writes, and the symbols written so far. -/
structure State.SameRun (s t : State) : Prop where
  st      : s.st = t.st
  err     : s.err = t.err
  errPos  : s.errPos = t.errPos
  stopEnd : s.stopEnd = t.stopEnd
  cw      : s.cw = t.cw
  next    : s.next = t.next
  prev    : s.prev = t.prev
  bitpos  : s.bitpos = t.bitpos
  outpos  : s.outpos = t.outpos
  codes   : s.codes = t.codes
  output  : ∀ j, j < s.outpos.toNat → s.outElement j = t.outElement j

end Sys2Proof.Machine
end

