-- ==== Sys2Proof/Certificates/Slice0/Obligations.lean ====
section
/-! DEFINITION. The statements about the model, for the provers. "Engine's turn" and the agenda are the model's form of the
interleaving of agents (log 2). `exec` and `step` are the block at the default width cap, `execAt` and `stepAt` the block at any cap
(log 1). `dictFresh` and `outFresh` are the model's own fields (log 5, log 8), and where a statement leaves
one of them open it says nothing about the free values they select. -/

open Sys2Proof Sys2Proof.Machine

/-! ## Encoding -/

/-- Decoding what a well-formed instruction encodes to gives it back, in every decoding context (30_encoding R48, R53, R59). -/
def Obligations.DecodeEncodeRoundTrip : Prop :=
  ∀ (k : CodeContext) (i : Instr), i.wfAt k = true → decode k (encode k i) = .ok i

/-- A host command decodes to an instruction of the row of the opcode table that holds it: the rows are disjoint, every word a row
holds decodes, and every word that decodes is held by a row of its instruction's mnemonic (30_encoding R53, R59). -/
def Obligations.HostDecodingFollowsTable : Prop :=
  (∀ w i, decodeAccess w = .ok i → ∃ r ∈ hostRows, r.holds w = true ∧ r.mnemonic = i.mnemonic) ∧
  (∀ w, ∀ r ∈ hostRows, r.holds w = true → ∃ i, decodeAccess w = .ok i) ∧
  (∀ w, ∀ r ∈ hostRows, ∀ r' ∈ hostRows, r.holds w = true → r'.holds w = true → r = r')

/-- The class of a code is the first row of 30_encoding R48 that matches, and the outcome is EXHAUST where fewer than W bits remain. -/
def Obligations.CodeClassesFollowTable : Prop :=
  (∀ s : State, 8 * s.inLen.toNat < s.bitpos.toNat + (s.cw.toNat + 1) → decodeCode s.context s.fetch = .exhaust) ∧
  ∀ (k : CodeContext) (c : Code),
    let isClr := c.toNat = 2 ^ k.iw.toNat
    let isEoi := c.toNat = 2 ^ k.iw.toNat + 1
    let isInvalid := k.next.toNat < c.toNat ∨ (c.toNat = k.next.toNat ∧ k.prev = none)
    let isLiteral := c.toNat < 2 ^ k.iw.toNat
    (isClr → decodeCode k (some c) = .clear) ∧
    (¬isClr → isEoi → decodeCode k (some c) = .endCode) ∧
    (¬isClr → ¬isEoi → isInvalid → decodeCode k (some c) = .invalid c) ∧
    (¬isClr → ¬isEoi → ¬isInvalid → isLiteral → decodeCode k (some c) = .literal c) ∧
    (¬isClr → ¬isEoi → ¬isInvalid → ¬isLiteral → c.toNat = k.next.toNat →
      k.prev ≠ none ∧ decodeCode k (some c) = .kwkwk c) ∧
    (¬isClr → ¬isEoi → ¬isInvalid → ¬isLiteral → c.toNat ≠ k.next.toNat →
      2 ^ k.iw.toNat + 2 ≤ c.toNat ∧ c.toNat < k.next.toNat ∧ decodeCode k (some c) = .known c)

/-- Bit `i` of a fetched code is bit `(p + i) & 7` of byte `(p + i) >> 3` of `IN`, and the code has W bits (20_memory R33, 40_unpacker
R60, R61). -/
def Obligations.FetchTakesLowBitsFirst : Prop :=
  ∀ (s : State) (p W : Nat),
    s.fetchCode p W < 2 ^ W ∧
    ∀ i, i < W → (s.fetchCode p W).testBit i = (s.inByte ((p + i) / 8)).getLsbD ((p + i) % 8)

/-- Decoding the stream as a list of bytes agrees with what the engine fetches from `IN` and decodes (40_unpacker R61, R62). -/
def Obligations.StreamDecoderAgreesWithFetch : Prop :=
  ∀ (s : State) (bytes : List Byte), s.inLen.toNat = bytes.length →
    (∀ i (h : i < bytes.length), s.inByte i = bytes[i]) →
    decodeCode s.context s.fetch = decodeStream s.context bytes s.bitpos.toNat

/-- Where `IN` holds the bytes the notation gives a list of codes, the engine reads each code back at the sum of the widths before it
(30_encoding R56, 20_memory R35). -/
def Obligations.AssembledCodesAreFetched : Prop :=
  ∀ (s : State) (fields : List (Nat × Nat)), (∀ f ∈ fields, f.2 < 2 ^ f.1) →
    (∀ i (h : i < (packBits (bitsOfFields fields)).length), s.inByte i = (packBits (bitsOfFields fields))[i]) →
    ∀ before W v rest, fields = before ++ (W, v) :: rest → s.fetchCode (before.map Prod.fst).sum W = v

/-- A few words of the opcode table, written out from 30_encoding R53 and R59, and a few codes at IW = 2 (R48), decode to the instructions
they stand for. -/
def Obligations.TableWordsDecode : Prop :=
  decodeTableWord 48 0x10000000001 = some (.start 0) ∧
  decodeTableWord 48 0x00400000000 = some .readStatus ∧
  decodeTableWord 48 0x10800000102 = some (.writeIw 0x102) ∧
  decodeTableWord 48 0x12C00000007 = some (.writeRo .bitposBit 7) ∧
  decodeTableWord 48 0x0FC00000000 = some (.readRsvd 63) ∧
  decodeTableWord 48 0x10200000000 = none ∧
  decodeTableWord 8 4 = some .clear ∧
  decodeTableWord 8 5 = some .endCode ∧
  decodeTableWord 8 3 = some (.literal 3) ∧
  decodeTableWord 8 7 = some (.known 7) ∧
  decodeTableWord 8 8 = some (.kwkwk 8) ∧
  decodeTableWord 8 9 = some (.invalid 9)

/-! ## A step runs the decoded instruction -/

/-- On the engine's turn in RUN, a step is `exec` of the code of W bits at the cursor, or of EXHAUST where fewer than W bits remain
(40_unpacker R62, R64). The agenda around it is the model's (log 2). -/
def Obligations.EngineTurnRunsFetchedCode : Prop :=
  ∀ s : State, s.st = .run → s.EnginesTurn →
    (8 * s.inLen.toNat < s.bitpos.toNat + (s.cw.toNat + 1) →
      step s = exec .exhaust { s with agenda := s.agenda.tail }) ∧
    (s.bitpos.toNat + (s.cw.toNat + 1) ≤ 8 * s.inLen.toNat → ∀ c : Code, c.toNat < 2 ^ (s.cw.toNat + 1) →
      s.cw.toNat ≤ 12 →
      (∀ i, i < s.cw.toNat + 1 →
        c.getLsbD i = (s.inByte ((s.bitpos.toNat + i) / 8)).getLsbD ((s.bitpos.toNat + i) % 8)) →
      step s = exec (decodeCode s.context (some c)) { s with agenda := s.agenda.tail })

/-- A host access at the head of the agenda runs the command it decodes to, in any state (43_host_commands R85). The agenda is the
model's (log 2). -/
def Obligations.HostAccessRunsDecodedCommand : Prop :=
  ∀ (s : State) (w : AccessWord) (i : Instr) (rest : List Move),
    s.agenda = .access .word w :: rest → decodeAccess w = .ok i → step s = exec i { s with agenda := rest }

/-- The engine has no step outside RUN (40_unpacker R64): its turn changes nothing but the agenda. That a turn without a step is a step
of the model that stutters is the model's choice (log 3). -/
def Obligations.EngineRestsOutsideRun : Prop :=
  ∀ s : State, s.st ≠ .run → s.EnginesTurn → step s = .next { s with agenda := s.agenda.tail }

/-- The window admits aligned word accesses only: a byte or halfword access, and an access at an offset that is no multiple of 4, is
refused (20_memory R36). -/
def Obligations.OnlyAlignedWordsReachTheWindow : Prop :=
  ∀ (s : State) (size : AccessSize) (w : AccessWord) (rest : List Move),
    s.agenda = .access size w :: rest →
    (size ≠ .word → step s = .refused (.accessSize size)) ∧
    (size = .word → (w.extractLsb' 32 8).toNat % 4 ≠ 0 → step s = .refused (.misaligned (w.extractLsb' 32 8))) ∧
    (size = .word → (w.extractLsb' 32 8).toNat % 4 = 0 →
      ∃ i, decodeAccess w = .ok i ∧ step s = exec i { s with agenda := rest })

/-- A host write to `IN` sets that byte and nothing else while not RUN, and is refused while RUN (43_host_commands R94). -/
def Obligations.InputWritesOnlyOutsideRun : Prop :=
  ∀ (s : State) (i : BitVec 32) (b : Byte) (rest : List Move), s.agenda = .writeIn i b :: rest →
    (s.st = .run → step s = .refused .inWriteWhileRun) ∧
    (s.st ≠ .run → ∃ t, step s = .next t ∧ t = { s with inBuf := t.inBuf, agenda := rest } ∧
      t.inByte i.toNat = b ∧ ∀ a, a ≠ i.toNat → t.inByte a = s.inByte a)

/-- A host read of `OUT` returns the element, in any state, and has no side effect (43_host_commands R95, 20_memory R37); below `outpos`
the element is a symbol that was written. Where the returned value is kept is the model's choice (log 4). -/
def Obligations.OutputReadsReturnElements : Prop :=
  ∀ (s : State) (j : BitVec 32) (rest : List Move), s.agenda = .readOut j :: rest → s.Inv →
    ∃ v, step s = .next { s with hostData := v, agenda := rest } ∧ v.toNat = (s.outElement j.toNat).toNat ∧
      (j.toNat < s.outpos.toNat → s.Written j.toNat ∧ v.toNat < 2 ^ 12)

/-! ## Reset -/

/-- A hardware reset, in any state, sets every register to its reset value and changes neither `IN` nor `OUT`; every register then reads
0 but `PREV`. Reset is the only event other than START that leaves DONE or ERROR (70_reset_and_hazards R115). -/
def Obligations.HardResetClearsRegisters : Prop :=
  (∀ (s : State) (rest : List Move), s.agenda = .hardReset :: rest → ∃ t, step s = .next t ∧
    t.st = .idle ∧ t.err = .eNone ∧ t.errPos = 0 ∧ t.stopEnd = false ∧
    t.iw = 0 ∧ t.inLen = 0 ∧ t.expLen = 0 ∧
    t.cw = 0 ∧ t.next = 0 ∧ t.bitpos = 0 ∧ t.outpos = 0 ∧ t.codes = 0 ∧ t.prev = none ∧
    t.inBuf = s.inBuf ∧ t.outBuf = s.outBuf ∧ t.doneO = false ∧
    ∀ k : BitVec 6, t.registerValue k = if k = 8 then 0x80000000 else 0) ∧
  ∀ s t : State, s.st = .done ∨ s.st = .error → step s = .next t → t.st ≠ s.st →
    s.agenda.head? = some .hardReset ∨ ∃ r, s.nextCommand = some (.start r)

/-- The invariant holds right after reset. -/
def Obligations.InvHoldsAtReset : Prop := State.reset.Inv

/-! ## Invariants and whole-machine rules -/

/-- Every step from a state that meets the invariant gives one that meets it: 10_state R26 at every engine step, the canonical memories,
and `ERR` 0 outside ERROR. -/
def Obligations.EveryStepKeepsInv : Prop :=
  ∀ s t : State, s.Inv → step s = .next t → t.Inv

/-- From a state that meets the invariant, a step stops only on a move outside the host contract: no data ends a run in a fault
(43_host_commands R97, 42_data_codes R83). -/
def Obligations.ContractStepsNeverStop : Prop :=
  ∀ s : State, s.Inv → s.NextMoveInContract → ∃ t, step s = .next t

/-- At every legal width cap a data code that the classification admits completes, leaves STATE and ERR and keeps the run invariant, or
raises E_OVERRUN; so it never meets the self-reference check (00_scope R5, 10_state R26, 42_data_codes R83). -/
def Obligations.EveryCapKeepsRunInv : Prop :=
  ∀ (cap : Nat) (s : State) (c : Code), 1 ≤ cap → cap ≤ 12 → s.RunInv cap → c.toNat < 2 ^ s.width →
    s.bitpos.toNat + s.width ≤ 8 * s.inLen.toNat →
    let keeps := fun o : Host.Outcome State Fault Refusal => ∃ t, o = .next t ∧
      ((t.st = s.st ∧ t.err = s.err ∧ t.RunInv cap) ∨ (t.st = .error ∧ t.err = .overrun))
    (decodeCode s.context (some c) = .literal c → keeps (execLiteral c s cap)) ∧
    (decodeCode s.context (some c) = .known c → keeps (execKnown c s cap)) ∧
    (decodeCode s.context (some c) = .kwkwk c → keeps (execKwkwk c s cap))

/-- A run ends, in DONE or ERROR, after at most `8 * IN_LEN / 2 + 1` engine steps (40_unpacker R64, 70_reset_and_hazards R128), with at
most the agenda's moves of the host between them, at every legal width cap: unless the host first resets the block or leaves the contract,
and always where every move of the agenda is an engine's turn or an access that the contract allows a host of a running block. The
agenda is the model's (log 2). -/
def Obligations.RunsTerminate : Prop :=
  ∀ (cap : Nat) (s : State), 1 ≤ cap → cap ≤ 12 → s.Inv cap → s.st = .run →
    let bound := 8 * s.inLen.toNat / 2 + 1 + s.agenda.countP (fun m => decide (m ≠ .engine))
    (∃ n t, n ≤ bound ∧ s.after n cap = some t ∧
      (t.st = .done ∨ t.st = .error ∨ t.agenda.head? = some .hardReset ∨ ¬t.NextMoveInContract)) ∧
    ((∀ m ∈ s.agenda, m ≠ .hardReset ∧ m.inContract s = true) →
      ∃ n t, n ≤ bound ∧ s.after n cap = some t ∧ (t.st = .done ∨ t.st = .error))

/-- No rule reads an undefined dictionary entry (10_state R21): an engine step does the same whatever values they have. -/
def Obligations.UndefinedEntriesAreNeverRead : Prop :=
  ∀ (s t : State) (n : Nat), s.Inv → s.st = .run → s.EnginesTurn → step s = .next t →
    ∃ m, step { s with dictFresh := n } = .next { t with dictFresh := m }

/-- What a run does depends on the configuration and the bytes of `IN` alone, not on what came before its START (70_reset_and_hazards
R116, 43_host_commands R99): two blocks that agree on these go through the same states after START under the same moves of the host
and the reset line, whatever these moves are, up to the end of the run, and beyond it where no move is left. The agenda that lists the
moves is the model's (log 2). -/
def Obligations.RunResultIgnoresThePast : Prop :=
  ∀ (s s' t t' : State) (r r' : BitVec 31), s.st ≠ .run → s'.st ≠ .run → s.agenda = s'.agenda →
    s.iw = s'.iw → s.inLen = s'.inLen → s.expLen = s'.expLen → (∀ i, i < s.inLen.toNat → s.inByte i = s'.inByte i) →
    exec (.start r) s = .next t → exec (.start r') s' = .next t' →
    ∀ n u, (∀ m v, m < n → t.after m = some v → v.st = .run ∨ v.agenda = []) → t.after n = some u →
      ∃ u', t'.after n = some u' ∧ u.SameRun u'

/-- An engine step writes `OUT` only from the old output count to the new one, which never passes `EXP_LEN` (20_memory R32). -/
def Obligations.OutputStaysInBounds : Prop :=
  ∀ s t : State, s.Inv → s.st = .run → s.EnginesTurn → step s = .next t →
    s.outpos.toNat ≤ t.outpos.toNat ∧ t.outpos.toNat ≤ s.expLen.toNat ∧
    ∀ a, a < 2 * s.outpos.toNat ∨ 2 * t.outpos.toNat ≤ a → t.outByte a = s.outByte a

/-- A run that ends in DONE has produced exactly `EXP_LEN` symbols, all of them written, and only END and EXHAUST end it so
(43_host_commands R98). -/
def Obligations.DoneMeansExactLength : Prop :=
  ∀ s t : State, s.Inv → s.st = .run → step s = .next t → t.st = .done →
    t.outpos = t.expLen ∧ (∀ j, j < t.expLen.toNat → t.Written j) ∧
    (decodeCode s.context s.fetch = .endCode ∨ decodeCode s.context s.fetch = .exhaust)

/-- While RUN, the configuration writes and START have no effect, and no step but a hardware reset changes the configuration or `IN`
(43_host_commands R90, 20_memory R43). -/
def Obligations.ConfigurationIsConstantInRun : Prop :=
  ∀ s : State, s.st = .run →
    (∀ d, exec (.writeIw d) s = .next s ∧ exec (.writeInLen d) s = .next s ∧ exec (.writeExpLen d) s = .next s) ∧
    (∀ r, exec (.start r) s = .next s) ∧
    ∀ t, step s = .next t → s.agenda.head? ≠ some .hardReset →
      t.iw = s.iw ∧ t.inLen = s.inLen ∧ t.expLen = s.expLen ∧ t.inBuf = s.inBuf

/-- Outside RUN, only START and a hardware reset change the status, the datapath registers, `DICT` or `OUT` (60_exceptions R110, 10_state
R18). -/
def Obligations.StoppedBlockHolds : Prop :=
  ∀ s t : State, s.st ≠ .run → step s = .next t → s.agenda.head? ≠ some .hardReset →
    (∀ r, s.nextCommand ≠ some (.start r)) →
    t = { s with iw := t.iw, inLen := t.inLen, expLen := t.expLen, inBuf := t.inBuf, hostData := t.hostData,
                 agenda := s.agenda.tail }

/-- `done_o` is asserted exactly in DONE and in ERROR, and once asserted it stays until a START or a hardware reset (43_host_commands
R96, 60_exceptions R110, 10_state R18). -/
def Obligations.CompletionLevelHolds : Prop :=
  (∀ s : State, s.doneO = true ↔ s.st = .done ∨ s.st = .error) ∧
  ∀ s t : State, s.doneO = true → step s = .next t → s.agenda.head? ≠ some .hardReset →
    (∀ r, s.nextCommand ≠ some (.start r)) → t.doneO = true

/-- Only a START with a legal width enters RUN (70_reset_and_hazards R117, 43_host_commands R87). -/
def Obligations.OnlyStartEntersRun : Prop :=
  ∀ s t : State, s.st ≠ .run → step s = .next t → t.st = .run →
    (∃ r, s.nextCommand = some (.start r)) ∧ 1 ≤ s.iw.toNat ∧ s.iw.toNat ≤ 12

/-- A code step that completes advances the cursor by W and counts the code; an error and EXHAUST leave both (40_unpacker R63). -/
def Obligations.CursorAdvancesByWidth : Prop :=
  ∀ s t : State, s.Inv → s.st = .run → s.EnginesTurn → step s = .next t →
    (s.fetch = none ∨ t.st = .error → t.bitpos = s.bitpos ∧ t.codes = s.codes) ∧
    (s.fetch ≠ none → t.st ≠ .error →
      t.bitpos.toNat = s.bitpos.toNat + (s.cw.toNat + 1) ∧ t.bitpos.toNat ≤ 8 * s.inLen.toNat ∧
      t.codes.toNat = (s.codes.toNat + 1) % 2 ^ 32)

/-- The width is never wider than the table needs: it is the initial width, or `next` has passed `2^cw` (30_encoding R47). -/
def Obligations.WidthFollowsTheTable : Prop :=
  ∀ s t : State, s.Inv → (s.st = .run → s.cw.toNat = s.iw.toNat ∨ 2 ^ s.cw.toNat ≤ s.next.toNat) →
    step s = .next t → (t.st = .run → t.cw.toNat = t.iw.toNat ∨ 2 ^ t.cw.toNat ≤ t.next.toNat)

/-- A defined code names one sequence, of the length its entry says, between 1 and `DICT_SIZE - 3`, and `First` is its first symbol
(42_data_codes R70, 10_state R20). -/
def Obligations.SequencesMatchTheirEntries : Prop :=
  ∀ (cap : Nat) (s : State) (d : Code), 1 ≤ cap → cap ≤ 12 → s.RunInv cap → s.Defined d.toNat →
    ∃ l, s.IsSeq d l ∧ (∀ l', s.IsSeq d l' → l' = l) ∧ l.length = (s.entry d.toNat).len.toNat ∧
      1 ≤ l.length ∧ l.length ≤ 2 ^ (cap + 1) - 3 ∧ l.head? = some (s.first d)

/-! ## Host commands -/

/-- START: no effect in RUN; E_BAD_WIDTH on an illegal width; else a new run on a fresh table (43_host_commands R87, 41_control_codes
R65). -/
def Obligations.StartFollowsItsRule : Prop :=
  ∀ (s : State) (r : BitVec 31),
    (s.st = .run → exec (.start r) s = .next s) ∧
    (s.st ≠ .run → (s.iw.toNat < 1 ∨ 12 < s.iw.toNat) → ∃ t, exec (.start r) s = .next t ∧
      t = { s with st := .error, err := .badWidth, errPos := 0, stopEnd := false, bitpos := 0, outpos := 0, codes := 0,
                   prev := none, cw := 0, next := 0, dictFresh := t.dictFresh }) ∧
    (s.st ≠ .run → 1 ≤ s.iw.toNat → s.iw.toNat ≤ 12 → ∃ t, exec (.start r) s = .next t ∧
      t = { s with st := .run, err := .eNone, errPos := 0, stopEnd := false, bitpos := 0, outpos := 0, codes := 0,
                   prev := none, cw := t.cw, next := t.next, dict := t.dict, dictFresh := t.dictFresh } ∧
      t.cw.toNat = s.iw.toNat ∧ t.next.toNat = 2 ^ s.iw.toNat + 2 ∧
      ∀ v, v < 2 ^ s.iw.toNat → t.entry v = ⟨1, none, BitVec.ofNat 12 v⟩)

/-- The configuration writes outside RUN set their register, `IW` from the low 8 bits, and nothing else, and
a read gives the value back (43_host_commands R89). That a read leaves its value in `hostData` is the model's choice (log 4). -/
def Obligations.ConfigurationWritesTakeEffect : Prop :=
  ∀ (s : State) (d : Word), s.st ≠ .run →
    (∃ t, exec (.writeIw d) s = .next t ∧ t = { s with iw := t.iw } ∧ t.iw.toNat = d.toNat % 256 ∧
      exec .readIw t = .next { t with hostData := BitVec.ofNat 32 (d.toNat % 256) }) ∧
    (∃ t, exec (.writeInLen d) s = .next t ∧ t = { s with inLen := d } ∧ exec .readInLen t = .next { t with hostData := d }) ∧
    (∃ t, exec (.writeExpLen d) s = .next t ∧ t = { s with expLen := d } ∧ exec .readExpLen t = .next { t with hostData := d })

/-- A CTRL write with bit 0 = 0, a write to a read-only register and a write to a reserved offset have no effect in any state, as
instructions and as the words of the window (43_host_commands R88, R93, R86). -/
def Obligations.IneffectiveWritesChangeNothing : Prop :=
  (∀ (s : State) (r : BitVec 31), exec (.ctrlNop r) s = .next s) ∧
  (∀ (s : State) (r : RoReg) (d : Word), exec (.writeRo r d) s = .next s) ∧
  (∀ (s : State) (k : BitVec 6) (d : Word), exec (.writeRsvd k d) s = .next s) ∧
  ∀ (s : State) (w : AccessWord) (rest : List Move), s.agenda = .access .word w :: rest → w.getLsbD 40 = true →
    (w.extractLsb' 32 8 = 0 ∧ w.getLsbD 0 = false ∨ w.extractLsb' 32 8 = 4 ∨
      (0x14 ≤ (w.extractLsb' 32 8).toNat ∧ (w.extractLsb' 32 8).toNat % 4 = 0)) →
    step s = .next { s with agenda := rest }

/-- READ_STATUS returns the status fields at their places, and changes nothing else (43_host_commands R91): STATE as 10_state R18 and
30_encoding R54 number it, and ERR as 60_exceptions R100 does. That the value is kept in `hostData` is the model's choice (log 4). -/
def Obligations.StatusReadShowsFields : Prop :=
  ∀ s : State, ∃ v, exec .readStatus s = .next { s with hostData := v } ∧
    v.toNat =
      (if s.st = .idle then 0 else if s.st = .run then 1 else if s.st = .done then 2 else 3) + 4 * s.stopEnd.toNat +
      16 * (if s.err = .eNone then 0 else if s.err = .badWidth then 1 else if s.err = .invalidCode then 2
        else if s.err = .overrun then 3 else if s.err = .underrun then 4 else 5) +
      256 * s.cw.toNat + 4096 * (s.errPos.toNat % 8)

/-- The debug and result reads return their registers and change nothing else (43_host_commands R92). That the value is kept in
`hostData` is the model's choice (log 4). -/
def Obligations.RegisterReadsShowValues : Prop :=
  ∀ s : State,
    (∃ v, exec .readOutCount s = .next { s with hostData := v } ∧ v = s.outpos) ∧
    (∃ v, exec .readErrByte s = .next { s with hostData := v } ∧ v.toNat = s.errPos.toNat / 8) ∧
    (∃ v, exec .readNext s = .next { s with hostData := v } ∧ v.toNat = s.next.toNat) ∧
    (∃ v, exec .readPrev s = .next { s with hostData := v } ∧ (∀ p, s.prev = some p → v.toNat = p.toNat) ∧
      (s.prev = none → v.toNat = 2 ^ 31)) ∧
    (∃ v, exec .readCodeCount s = .next { s with hostData := v } ∧ v = s.codes) ∧
    (∃ v, exec .readBitposByte s = .next { s with hostData := v } ∧ v.toNat = s.bitpos.toNat / 8) ∧
    (∃ v, exec .readBitposBit s = .next { s with hostData := v } ∧ v.toNat = s.bitpos.toNat % 8) ∧
    (∃ v, exec .readIw s = .next { s with hostData := v } ∧ v.toNat = s.iw.toNat) ∧
    (∃ v, exec .readInLen s = .next { s with hostData := v } ∧ v = s.inLen) ∧
    (∃ v, exec .readExpLen s = .next { s with hostData := v } ∧ v = s.expLen)

/-- A CTRL read and a read of a reserved offset return 0 (43_host_commands R86, R88). That the value is kept in `hostData` is the
model's choice (log 4). -/
def Obligations.ReservedReadsReturnZero : Prop :=
  ∀ s : State,
    exec .readCtrl s = .next { s with hostData := 0 } ∧
    ∀ k : BitVec 6, (Instr.readRsvd k).wf = true → exec (.readRsvd k) s = .next { s with hostData := 0 }

/-- The bytes of a register and of an element of `OUT` are little-endian (20_memory R34). -/
def Obligations.BytesAreLittleEndian : Prop :=
  ∀ (s : State), (∀ k : BitVec 6,
      s.registerByte k 3 ++ s.registerByte k 2 ++ s.registerByte k 1 ++ s.registerByte k 0 = s.registerValue k) ∧
    ∀ j, (s.outElement j).toNat = (s.outByte (2 * j)).toNat + 256 * (s.outByte (2 * j + 1)).toNat

/-! ## Control codes -/

/-- CLEAR resets the table and the width and advances the cursor by the width it was read at; all else is unchanged (41_control_codes
R65, R67). -/
def Obligations.ClearResetsTable : Prop :=
  ∀ s : State, 1 ≤ s.iw.toNat → s.iw.toNat ≤ 12 → s.bitpos.toNat + (s.cw.toNat + 1) ≤ 8 * s.inLen.toNat →
    ∃ t, exec .clear s = .next t ∧
      t = { s with dict := t.dict, dictFresh := t.dictFresh, cw := t.cw, next := t.next, prev := none,
                   bitpos := t.bitpos, codes := t.codes } ∧
      t.cw.toNat = s.iw.toNat ∧ t.next.toNat = 2 ^ s.iw.toNat + 2 ∧
      (∀ v, v < 2 ^ s.iw.toNat → t.entry v = ⟨1, none, BitVec.ofNat 12 v⟩) ∧
      t.bitpos.toNat = s.bitpos.toNat + (s.cw.toNat + 1) ∧ t.codes.toNat = (s.codes.toNat + 1) % 2 ^ 32

/-- END sets STOP_END and stops the run: DONE where the output is complete, E_UNDERRUN where it is not (41_control_codes R66). -/
def Obligations.EndStopsRun : Prop :=
  ∀ s : State, s.bitpos.toNat + (s.cw.toNat + 1) ≤ 8 * s.inLen.toNat →
    (s.outpos = s.expLen → ∃ t, exec .endCode s = .next t ∧
      t = { s with stopEnd := true, st := .done, bitpos := t.bitpos, codes := t.codes } ∧
      t.bitpos.toNat = s.bitpos.toNat + (s.cw.toNat + 1) ∧ t.codes.toNat = (s.codes.toNat + 1) % 2 ^ 32) ∧
    (s.outpos ≠ s.expLen → ∃ t, exec .endCode s = .next t ∧
      t = { s with stopEnd := true, st := .error, err := .underrun, errPos := s.bitpos, dictFresh := t.dictFresh })

/-- EXHAUST clears STOP_END and stops the run, with the cursor and the code count unchanged (41_control_codes R68). -/
def Obligations.ExhaustStopsRun : Prop :=
  ∀ s : State,
    (s.outpos = s.expLen → ∃ t, exec .exhaust s = .next t ∧ t = { s with stopEnd := false, st := .done }) ∧
    (s.outpos ≠ s.expLen → ∃ t, exec .exhaust s = .next t ∧
      t = { s with stopEnd := false, st := .error, err := .underrun, errPos := s.bitpos, dictFresh := t.dictFresh })

/-- Reaching `EXP_LEN` does not stop the run: a CLEAR goes on, an END gives DONE, and any data code overruns (41_control_codes R69). -/
def Obligations.FullOutputDoesNotStop : Prop :=
  ∀ s : State, s.RunInv Config.CW_CAP → s.st = .run → s.outpos = s.expLen →
    (∃ t, exec .clear s = .next t ∧ t.st = .run ∧ t.outpos = s.outpos ∧ t.outBuf = s.outBuf) ∧
    (∃ t, exec .endCode s = .next t ∧ t.st = .done) ∧
    ∀ (c : Code) (i : Instr), i.isDataCode c → i.wfAt s.context = true →
      ∃ t, exec i s = .next t ∧ t.st = .error ∧ t.err = .overrun

/-! ## Data codes -/

/-- A code that names no entry is INVALID: it raises E_INVALID_CODE at its first bit and changes nothing else. With the table full no
code is INVALID (42_data_codes R72). -/
def Obligations.InvalidCodeRaises : Prop :=
  (∀ (s : State) (c : Code), ∃ t, exec (.invalid c) s = .next t ∧
    t = { s with st := .error, err := .invalidCode, errPos := s.bitpos, dictFresh := t.dictFresh }) ∧
  (∀ (s : State) (c : Code), c.toNat ≠ 2 ^ s.iw.toNat → c.toNat ≠ 2 ^ s.iw.toNat + 1 →
    (s.next.toNat < c.toNat ∨ (c.toNat = s.next.toNat ∧ s.prev = none)) → decodeCode s.context (some c) = .invalid c) ∧
  ∀ (s : State) (c : Code), s.RunInv Config.CW_CAP → s.next.toNat = Config.dictSize Config.CW_CAP →
    c.toNat < 2 ^ (s.cw.toNat + 1) → decodeCode s.context (some c) ≠ .invalid c

/-- LITERAL, where the output has room: the symbol `c` at `OUT[outpos]`, no other byte of `OUT`, and the commit (42_data_codes R79, R80).
What it learns is `LearningFollowsItsRule`. -/
def Obligations.LiteralWritesItsSymbol : Prop :=
  ∀ (s : State) (c : Code), s.RunInv Config.CW_CAP → (Instr.literal c).wfAt s.context = true →
    s.outpos.toNat < s.expLen.toNat → s.bitpos.toNat + (s.cw.toNat + 1) ≤ 8 * s.inLen.toNat →
    ∃ t, exec (.literal c) s = .next t ∧
      t = { s with dict := t.dict, next := t.next, cw := t.cw, outBuf := t.outBuf, outpos := t.outpos, prev := some c,
                   bitpos := t.bitpos, codes := t.codes } ∧
      (t.outElement s.outpos.toNat).toNat = c.toNat ∧
      (∀ a, a / 2 ≠ s.outpos.toNat → t.outByte a = s.outByte a) ∧
      t.outpos.toNat = s.outpos.toNat + 1 ∧
      t.bitpos.toNat = s.bitpos.toNat + (s.cw.toNat + 1) ∧ t.codes.toNat = (s.codes.toNat + 1) % 2 ^ 32

/-- KNOWN, where the output has room: `Seq(c)` at `OUT[outpos ..]` in order, no other byte of `OUT`, and the commit (42_data_codes R78,
R79, R81). -/
def Obligations.KnownExpandsItsSequence : Prop :=
  ∀ (s : State) (c : Code) (l : List Symbol), s.RunInv Config.CW_CAP → (Instr.known c).wfAt s.context = true →
    s.IsSeq c l → s.outpos.toNat + l.length ≤ s.expLen.toNat →
    s.bitpos.toNat + (s.cw.toNat + 1) ≤ 8 * s.inLen.toNat →
    ∃ t, exec (.known c) s = .next t ∧
      t = { s with dict := t.dict, next := t.next, cw := t.cw, outBuf := t.outBuf, outpos := t.outpos, prev := some c,
                   bitpos := t.bitpos, codes := t.codes } ∧
      (∀ j (h : j < l.length), (t.outElement (s.outpos.toNat + j)).toNat = l[j].toNat) ∧
      (∀ a, a < 2 * s.outpos.toNat ∨ 2 * (s.outpos.toNat + l.length) ≤ a → t.outByte a = s.outByte a) ∧
      t.outpos.toNat = s.outpos.toNat + l.length ∧
      t.bitpos.toNat = s.bitpos.toNat + (s.cw.toNat + 1) ∧ t.codes.toNat = (s.codes.toNat + 1) % 2 ^ 32

/-- KWKWK, where the output has room: `Seq(prev) ++ [First(prev)]` at `OUT[outpos ..]`, which the entry learned in the same step names
(42_data_codes R76, R82). -/
def Obligations.KwkwkExpandsTheNewEntry : Prop :=
  ∀ (s : State) (c p : Code) (l : List Symbol) (v : Symbol), s.RunInv Config.CW_CAP →
    (Instr.kwkwk c).wfAt s.context = true → s.prev = some p → s.IsSeq p l → l.head? = some v →
    s.outpos.toNat + l.length + 1 ≤ s.expLen.toNat → s.bitpos.toNat + (s.cw.toNat + 1) ≤ 8 * s.inLen.toNat →
    ∃ t, exec (.kwkwk c) s = .next t ∧
      t = { s with dict := t.dict, next := t.next, cw := t.cw, outBuf := t.outBuf, outpos := t.outpos, prev := some c,
                   bitpos := t.bitpos, codes := t.codes } ∧
      t.IsSeq c (l ++ [v]) ∧
      (∀ j (h : j < (l ++ [v]).length), (t.outElement (s.outpos.toNat + j)).toNat = ((l ++ [v])[j]).toNat) ∧
      (∀ a, a < 2 * s.outpos.toNat ∨ 2 * (s.outpos.toNat + l.length + 1) ≤ a → t.outByte a = s.outByte a) ∧
      t.outpos.toNat = s.outpos.toNat + l.length + 1 ∧
      t.bitpos.toNat = s.bitpos.toNat + (s.cw.toNat + 1) ∧ t.codes.toNat = (s.codes.toNat + 1) % 2 ^ 32

/-- What a data code that completes learns: nothing after a reset or with the table full; else the entry of 42_data_codes R73 at `next`,
with `next` one higher and the width bumped by R75 (R73, R74, R75). -/
def Obligations.LearningFollowsItsRule : Prop :=
  ∀ (s t : State) (c : Code) (i : Instr), s.RunInv Config.CW_CAP → s.st = .run → i.isDataCode c →
    i.wfAt s.context = true → exec i s = .next t → t.st = .run →
    (s.prev = none ∨ s.next.toNat = 2 ^ 13 → t.dict = s.dict ∧ t.next = s.next ∧ t.cw = s.cw) ∧
    ∀ p, s.prev = some p → s.next.toNat < 2 ^ 13 →
      (∃ l v, s.IsSeq (if c.toNat = s.next.toNat then p else c) l ∧ l.head? = some v ∧
        (t.entry s.next.toNat).suffix = v) ∧
      (t.entry s.next.toNat).prefixCode = some p ∧
      (t.entry s.next.toNat).len.toNat = (s.entry p.toNat).len.toNat + 1 ∧
      (∀ d, d ≠ s.next.toNat → t.entry d = s.entry d) ∧
      2 ^ s.iw.toNat + 2 ≤ s.next.toNat ∧ t.next.toNat = s.next.toNat + 1 ∧
      t.cw.toNat = if 2 ^ (s.cw.toNat + 1) ≤ s.next.toNat + 1 ∧ s.cw.toNat < 12 then s.cw.toNat + 1 else s.cw.toNat

/-- A data code whose run would pass `EXP_LEN` raises E_OVERRUN before it writes anything, and what it learned is discarded: in every
state, where the bound is passed by the length of the code's entry in the table as the step's learning leaves it, wherever its prefix
chain leads; and in a run, where it is passed by the sequence that the code names (42_data_codes R77, 60_exceptions R102, R105,
R109). -/
def Obligations.OverrunDiscardsTheStep : Prop :=
  ∀ (s : State) (c : Code),
    let overruns := fun i : Instr => ∃ t, exec i s = .next t ∧
      t = { s with st := .error, err := .overrun, errPos := s.bitpos, dictFresh := t.dictFresh }
    (∀ i : Instr, i.isDataCode c →
      s.expLen.toNat < s.outpos.toNat + ((s.learn c Config.CW_CAP).entry c.toNat).len.toNat → overruns i) ∧
    (s.RunInv Config.CW_CAP →
      ((Instr.literal c).wfAt s.context = true → s.expLen.toNat < s.outpos.toNat + 1 → overruns (.literal c)) ∧
      (∀ l, (Instr.known c).wfAt s.context = true → s.IsSeq c l → s.expLen.toNat < s.outpos.toNat + l.length →
        overruns (.known c)) ∧
      (∀ p l, (Instr.kwkwk c).wfAt s.context = true → s.prev = some p → s.IsSeq p l →
        s.expLen.toNat < s.outpos.toNat + (l.length + 1) → overruns (.kwkwk c)))

/-- Where the walk, over the table as the step's learning leaves it, meets an entry that is its own prefix, the step raises E_SELF_REF
at the code's first bit; `OUT` may change only in `outpos .. EXP_LEN - 1` (42_data_codes R83, 60_exceptions R104, R105). No run reaches
such a state, so the statement is about every state. -/
def Obligations.SelfReferenceRaises : Prop :=
  ∀ (s : State) (c : Code) (i : Instr), i.isDataCode c →
    let learned := s.learn c Config.CW_CAP
    learned.MeetsSelf c → s.outpos.toNat + (learned.entry c.toNat).len.toNat ≤ s.expLen.toNat →
    ∃ t, exec i s = .next t ∧
      t = { s with st := .error, err := .selfRef, errPos := s.bitpos, dictFresh := t.dictFresh, outBuf := t.outBuf,
                   outFresh := t.outFresh } ∧
      ∀ a, a < 2 * s.outpos.toNat ∨ 2 * s.expLen.toNat ≤ a → t.outByte a = s.outByte a

/-! ## Errors -/

/-- An error in a code step is precise: the registers hold their values from the step's start, `err_pos` is the cursor and STOP_END is 1
exactly for an end code (60_exceptions R105, R106). The error is not E_SELF_REF, by 42_data_codes R83. That `OUT` is unchanged is more
than R105 promises, which leaves the elements from `outpos` on open: it is what 93_implementation_defined K3 says these errors in fact
do, and the model's choice (log 8, DESIGN CHOICE). -/
def Obligations.ErrorsArePrecise : Prop :=
  ∀ s t : State, s.Inv → s.st = .run → s.EnginesTurn → step s = .next t → t.st = .error →
    t = { s with st := .error, err := t.err, errPos := s.bitpos, stopEnd := t.stopEnd, dictFresh := t.dictFresh,
                 agenda := s.agenda.tail } ∧
    t.err ≠ .eNone ∧ t.err ≠ .badWidth ∧ t.err ≠ .selfRef ∧
    (t.stopEnd = true ↔ decodeCode s.context s.fetch = .endCode)

/-- The checks of a code step run in order: exhaustion, then the class, then the output bound, and the self-reference check last, which a
data code reaches in no run (42_data_codes R83) and in no state where the bound is passed (60_exceptions R109). -/
def Obligations.ErrorPriority : Prop :=
  (∀ s t : State, s.Inv → s.st = .run → s.EnginesTurn → step s = .next t →
    (s.fetch = none → (t.st = .error ↔ s.outpos ≠ s.expLen) ∧ (t.st = .error → t.err = .underrun)) ∧
    (∀ c, s.fetch = some c → ∀ i, decodeCode s.context (some c) = i →
      (i = .clear → t.st = .run) ∧
      (i = .endCode → (t.st = .error ↔ s.outpos ≠ s.expLen) ∧ (t.st = .error → t.err = .underrun)) ∧
      (i = .invalid c → t.st = .error ∧ t.err = .invalidCode) ∧
      (i.isDataCode c → t.st = .run ∨ (t.st = .error ∧ t.err = .overrun)))) ∧
  ∀ (s : State) (c : Code) (i : Instr), i.isDataCode c → (s.learn c Config.CW_CAP).MeetsSelf c →
    s.expLen.toNat < s.outpos.toNat + ((s.learn c Config.CW_CAP).entry c.toNat).len.toNat →
    ∃ t, exec i s = .next t ∧ t.st = .error ∧ t.err = .overrun

/-! ## The width cap -/

/-- The machine takes the cap as an argument: at the default of 12 it is the one of the statements above, and an instruction other than
START and the data codes is the same at every cap (00_scope R2, R5). -/
def Obligations.CapIsAnArgument : Prop :=
  Config.CW_CAP = 12 ∧ core = coreAt 12 ∧ (∀ s, step s = stepAt 12 s) ∧ (∀ i s, exec i s = execAt 12 i s) ∧
  (∀ cap s, (coreAt cap).step s = stepAt cap s) ∧
  ∀ (cap : Nat) (i : Instr) (s : State), (∀ r, i ≠ .start r) → (∀ c, ¬i.isDataCode c) → execAt cap i s = exec i s

/-- At every legal cap, on the engine's turn in RUN a step runs the fetched code at that cap, and a host access the command its word
decodes to (00_scope R5, 40_unpacker R64, 43_host_commands R85). The agenda is the model's (log 2). -/
def Obligations.EveryCapStepRunsDecoded : Prop :=
  ∀ (cap : Nat) (s : State),
    (s.st = .run → s.EnginesTurn →
      stepAt cap s = execAt cap (decodeCode s.context s.fetch) { s with agenda := s.agenda.tail }) ∧
    ∀ w i rest, s.agenda = .access .word w :: rest → decodeAccess w = .ok i →
      stepAt cap s = execAt cap i { s with agenda := rest }

/-- At every legal cap every step keeps the invariant, and a step within the host contract never stops (00_scope R5, 10_state R26,
43_host_commands R97). -/
def Obligations.EveryCapStepKeepsInv : Prop :=
  ∀ (cap : Nat) (s : State), 1 ≤ cap → cap ≤ 12 → s.Inv cap →
    (∀ t, stepAt cap s = .next t → t.Inv cap) ∧ (s.NextMoveInContract → ∃ t, stepAt cap s = .next t)

/-- START at a cap: outside RUN it begins a run on a fresh table for IW from 1 to CW_CAP, and raises E_BAD_WIDTH for any other IW (00_scope
R5, 43_host_commands R87, 60_exceptions R107). -/
def Obligations.StartTestsTheCap : Prop :=
  ∀ (cap : Nat) (s : State) (r : BitVec 31), cap ≤ 12 → s.st ≠ .run →
    ((s.iw.toNat < 1 ∨ cap < s.iw.toNat) → ∃ t, execAt cap (.start r) s = .next t ∧
      t = { s with st := .error, err := .badWidth, errPos := 0, stopEnd := false, bitpos := 0, outpos := 0, codes := 0,
                   prev := none, cw := 0, next := 0, dictFresh := t.dictFresh }) ∧
    (1 ≤ s.iw.toNat → s.iw.toNat ≤ cap → ∃ t, execAt cap (.start r) s = .next t ∧
      t = { s with st := .run, err := .eNone, errPos := 0, stopEnd := false, bitpos := 0, outpos := 0, codes := 0,
                   prev := none, cw := t.cw, next := t.next, dict := t.dict, dictFresh := t.dictFresh } ∧
      t.cw.toNat = s.iw.toNat ∧ t.next.toNat = 2 ^ s.iw.toNat + 2 ∧
      ∀ v, v < 2 ^ s.iw.toNat → t.entry v = ⟨1, none, BitVec.ofNat 12 v⟩)

/-- What the cap bounds in a run: no code is wider than CW_CAP + 1 bits and no index passes `DICT_SIZE`; a data code that completes grows
the table by one entry and bumps the width as R75 says, up to the cap, until `next` is `DICT_SIZE`; from there on the width and the
table stay as they are until a CLEAR (30_encoding R47, 42_data_codes R74, R75, 70_reset_and_hazards R124). -/
def Obligations.TableFreezesAtTheCap : Prop :=
  ∀ (cap : Nat) (s t : State), 1 ≤ cap → cap ≤ 12 → s.Inv cap → s.st = .run → s.EnginesTurn → stepAt cap s = .next t →
    t.st = .run →
    t.width ≤ cap + 1 ∧ t.next.toNat ≤ 2 ^ (cap + 1) ∧
    (s.next.toNat = 2 ^ (cap + 1) → decodeCode s.context s.fetch ≠ .clear →
      t.next = s.next ∧ t.cw = s.cw ∧ t.dict = s.dict) ∧
    (s.next.toNat < 2 ^ (cap + 1) → s.prev ≠ none → decodeCode s.context s.fetch ≠ .clear →
      t.next.toNat = s.next.toNat + 1 ∧
      t.cw.toNat = if 2 ^ (s.cw.toNat + 1) ≤ s.next.toNat + 1 ∧ s.cw.toNat < cap then s.cw.toNat + 1 else s.cw.toNat)
end

