-- ==== Sys2Proof/Laws/Memory.lean ====
section
/-! SUPPORT. The lists in canonical form: read after write, and that every operation keeps the form. -/

namespace Sys2Proof.Machine

section sparse
variable {α : Type}

/-- Every key of a list is above `a`. -/
def Sparse.above (a : Nat) (m : List (Nat × α)) : Prop := ∀ x ∈ m, a < x.1

theorem Sparse.wf_cons {x : Nat × α} {m : List (Nat × α)} :
    Sparse.wf (x :: m) = true ↔ Sparse.above x.1 m ∧ Sparse.wf m = true := by
  induction m generalizing x with
  | nil => simp [Sparse.wf, Sparse.above]
  | cons y rest ih =>
    simp only [Sparse.wf, Bool.and_eq_true, decide_eq_true_eq, Sparse.above, List.mem_cons, forall_eq_or_imp]
    constructor
    · rintro ⟨hxy, h⟩
      exact ⟨⟨hxy, fun z hz => hxy.trans ((ih.1 h).1 z hz)⟩, h⟩
    · rintro ⟨⟨hxy, -⟩, h⟩
      exact ⟨hxy, h⟩

theorem Sparse.above_set {m : List (Nat × α)} {a b : Nat} {v : α} (hb : b < a) (h : Sparse.above b m) :
    Sparse.above b (Sparse.set m a v) := by
  induction m with
  | nil => simpa [Sparse.set, Sparse.above] using hb
  | cons x rest ih =>
    have hx : b < x.1 := h x (by simp)
    have hrest : Sparse.above b rest := fun y hy => h y (by simp [hy])
    unfold Sparse.set
    split_ifs <;> intro y hy <;> simp only [List.mem_cons] at hy
    · rcases hy with rfl | rfl | hy
      exacts [hb, hx, hrest y hy]
    · rcases hy with rfl | hy
      exacts [hb, hrest y hy]
    · rcases hy with rfl | hy
      exacts [hx, ih hrest y hy]

/-- Setting a key keeps the canonical form. -/
theorem Sparse.wf_set {m : List (Nat × α)} (h : Sparse.wf m = true) (a : Nat) (v : α) :
    Sparse.wf (Sparse.set m a v) = true := by
  induction m with
  | nil => rfl
  | cons x rest ih =>
    obtain ⟨hx, hrest⟩ := Sparse.wf_cons.1 h
    unfold Sparse.set
    split_ifs with h1 h2
    · exact Sparse.wf_cons.2 ⟨fun y hy => by
        rcases List.mem_cons.1 hy with rfl | hy
        exacts [h1, h1.trans (hx y hy)], h⟩
    · exact Sparse.wf_cons.2 ⟨fun y hy => h2 ▸ hx y hy, hrest⟩
    · exact Sparse.wf_cons.2 ⟨Sparse.above_set (by omega) hx, ih hrest⟩

theorem Sparse.get?_of_above {m : List (Nat × α)} {a : Nat} (h : Sparse.above a m) : Sparse.get? m a = none := by
  induction m with
  | nil => rfl
  | cons x rest ih =>
    have : a < x.1 := h x (by simp)
    simp only [Sparse.get?, if_neg (Nat.ne_of_gt this)]
    exact ih fun y hy => h y (by simp [hy])

/-- Read after write to the same key. -/
@[simp] theorem Sparse.get?_set_same (m : List (Nat × α)) (a : Nat) (v : α) : Sparse.get? (Sparse.set m a v) a = some v := by
  induction m with
  | nil => simp [Sparse.set, Sparse.get?]
  | cons x rest ih =>
    unfold Sparse.set
    split_ifs with h1 h2
    · simp [Sparse.get?]
    · simp [Sparse.get?]
    · simp [Sparse.get?, ih, Ne.symm h2]

/-- A write leaves every other key alone. -/
theorem Sparse.get?_set_other (m : List (Nat × α)) {a b : Nat} (v : α) (h : b ≠ a) :
    Sparse.get? (Sparse.set m a v) b = Sparse.get? m b := by
  induction m with
  | nil => simp [Sparse.set, Sparse.get?, Ne.symm h]
  | cons x rest ih =>
    unfold Sparse.set
    split_ifs with h1 h2
    · simp [Sparse.get?, Ne.symm h]
    · simp [Sparse.get?, ← h2, Ne.symm h]
    · simp [Sparse.get?, ih]

theorem Sparse.get?_set (m : List (Nat × α)) (a b : Nat) (v : α) :
    Sparse.get? (Sparse.set m a v) b = if b = a then some v else Sparse.get? m b := by
  split_ifs with h
  · rw [h, Sparse.get?_set_same]
  · exact Sparse.get?_set_other m v h

theorem Sparse.wf_fill {m : List (Nat × α)} (h : Sparse.wf m = true) (a : Nat) (f : Nat → α) (n : Nat) :
    Sparse.wf (Sparse.fill m a f n) = true := by
  induction n with
  | zero => exact h
  | succ n ih => exact Sparse.wf_set ih _ _

theorem Sparse.get?_fill (m : List (Nat × α)) (a : Nat) (f : Nat → α) (n b : Nat) :
    Sparse.get? (Sparse.fill m a f n) b = if a ≤ b ∧ b < a + n then some (f b) else Sparse.get? m b := by
  induction n with
  | zero =>
    rw [if_neg (by omega)]
    rfl
  | succ n ih =>
    rw [Sparse.fill, Sparse.get?_set, ih]
    by_cases hb : b = a + n
    · rw [if_pos hb, if_pos (by omega), hb]
    · rw [if_neg hb]
      by_cases hr : a ≤ b ∧ b < a + n
      · rw [if_pos hr, if_pos (by omega)]
      · rw [if_neg hr, if_neg (by omega)]

/-- In canonical form, equal reads make equal lists. -/
theorem Sparse.ext_of_wf {m m' : List (Nat × α)} (h : Sparse.wf m = true) (h' : Sparse.wf m' = true)
    (heq : ∀ a, Sparse.get? m a = Sparse.get? m' a) : m = m' := by
  induction m generalizing m' with
  | nil =>
    cases m' with
    | nil => rfl
    | cons y rest => simpa [Sparse.get?] using heq y.1
  | cons x rest ih =>
    cases m' with
    | nil => simpa [Sparse.get?] using heq x.1
    | cons y rest' =>
      obtain ⟨hx, hr⟩ := Sparse.wf_cons.1 h
      obtain ⟨hy, hr'⟩ := Sparse.wf_cons.1 h'
      have key : x.1 = y.1 := by
        rcases Nat.lt_trichotomy x.1 y.1 with hlt | he | hlt
        · have := heq x.1
          rw [Sparse.get?_of_above (m := y :: rest') fun z hz => by
            rcases List.mem_cons.1 hz with rfl | hz
            exacts [hlt, hlt.trans (hy z hz)]] at this
          simp [Sparse.get?] at this
        · exact he
        · have := heq y.1
          rw [Sparse.get?_of_above (m := x :: rest) fun z hz => by
            rcases List.mem_cons.1 hz with rfl | hz
            exacts [hlt, hlt.trans (hx z hz)]] at this
          simp [Sparse.get?] at this
      have hv : x.2 = y.2 := by
        have := heq x.1
        simpa [Sparse.get?, key] using this
      have hrest : rest = rest' := ih hr hr' fun a => by
        by_cases ha : a = x.1
        · rw [ha, Sparse.get?_of_above hx, key, Sparse.get?_of_above hy]
        · have := heq a
          simpa [Sparse.get?, Ne.symm ha, key ▸ Ne.symm ha] using this
      rw [hrest, Prod.ext key hv]

end sparse

/-! ## Memories -/

theorem Memory.wf_write {m : Memory} (h : Memory.wf m = true) (a : Nat) (b : Byte) : Memory.wf (Memory.write m a b) = true :=
  Sparse.wf_set h a b

theorem Memory.wf_writeElement {m : Memory} (h : Memory.wf m = true) (j : Nat) (v : Element) :
    Memory.wf (Memory.writeElement m j v) = true :=
  Memory.wf_write (Memory.wf_write h _ _) _ _

theorem Memory.read_write (m : Memory) (a b : Nat) (v : Byte) :
    Memory.read (Memory.write m a v) b = if b = a then some v else Memory.read m b :=
  Sparse.get?_set m a b v

theorem Memory.read_writeElement (m : Memory) (j a : Nat) (v : Element) :
    Memory.read (Memory.writeElement m j v) a =
      if a = 2 * j + 1 then some (v.extractLsb' 8 8)
      else if a = 2 * j then some (v.extractLsb' 0 8) else Memory.read m a := by
  simp only [Memory.writeElement, Memory.read_write]

/-- A byte outside element `j` is not touched by a write to it. -/
theorem Memory.read_writeElement_other (m : Memory) {j a : Nat} (v : Element) (h : a / 2 ≠ j) :
    Memory.read (Memory.writeElement m j v) a = Memory.read m a := by
  rw [Memory.read_writeElement, if_neg (by omega), if_neg (by omega)]

theorem Element.of_halves (v : Element) : v.extractLsb' 8 8 ++ v.extractLsb' 0 8 = v := by
  ext i hi
  simp only [BitVec.getElem_append, BitVec.getElem_extractLsb']
  split_ifs with h
  · simp [← BitVec.getLsbD_eq_getElem hi]
  · rw [← BitVec.getLsbD_eq_getElem hi]
    congr 1
    omega

/-- Where the two bytes of an element are those of `v`, the element is `v` (20_memory R34). -/
theorem State.outElement_of_read {s : State} {j : Nat} {v : Element}
    (hlo : Memory.read s.outBuf (2 * j) = some (v.extractLsb' 0 8))
    (hhi : Memory.read s.outBuf (2 * j + 1) = some (v.extractLsb' 8 8)) : s.outElement j = v := by
  simp only [State.outElement, State.outByte, hlo, hhi, Option.getD_some]
  exact Element.of_halves v

/-! ## The dictionary -/

theorem Sparse.get?_map {α : Type} (f : Nat → α) (l : List Nat) (c : Nat) :
    Sparse.get? (l.map fun v => (v, f v)) c = if c ∈ l then some (f c) else none := by
  induction l with
  | nil => simp [Sparse.get?]
  | cons x xs ih =>
    by_cases hx : x = c
    · simp [Sparse.get?, hx]
    · simp [Sparse.get?, hx, Ne.symm hx, ih]

theorem Sparse.get?_literalEntries (n c : Nat) :
    Sparse.get? (literalEntries n) c = if c < n then some ⟨1, none, BitVec.ofNat 12 c⟩ else none := by
  rw [literalEntries, Sparse.get?_map (fun v => (⟨1, none, BitVec.ofNat 12 v⟩ : DictEntry))]
  simp only [List.mem_range]

theorem Sparse.wf_literalEntries (n : Nat) : Sparse.wf (literalEntries n) = true := by
  have key : ∀ l : List Nat, l.Pairwise (· < ·) →
      Sparse.wf (l.map fun v => (v, (⟨1, none, BitVec.ofNat 12 v⟩ : DictEntry))) = true := by
    intro l h
    induction l with
    | nil => rfl
    | cons x xs ih =>
      obtain ⟨hx, hxs⟩ := List.pairwise_cons.1 h
      refine Sparse.wf_cons.2 ⟨fun y hy => ?_, ih hxs⟩
      obtain ⟨z, hz, rfl⟩ := List.mem_map.1 hy
      exact hx z hz
  exact key _ List.pairwise_lt_range

end Sys2Proof.Machine
end

