-- ==== Sys2Proof/Laws/State.lean ====
section
/-! SUPPORT. One lemma per field per update of State, and what the reads of State depend on. -/

namespace Sys2Proof.Machine

/-! ## raise -/

@[simp] theorem State.raise_iw (s : State) (e : ErrCode) (pos : BitOffset) : (s.raise e pos).iw = s.iw := rfl
@[simp] theorem State.raise_inLen (s : State) (e : ErrCode) (pos : BitOffset) : (s.raise e pos).inLen = s.inLen := rfl
@[simp] theorem State.raise_expLen (s : State) (e : ErrCode) (pos : BitOffset) : (s.raise e pos).expLen = s.expLen := rfl
@[simp] theorem State.raise_cw (s : State) (e : ErrCode) (pos : BitOffset) : (s.raise e pos).cw = s.cw := rfl
@[simp] theorem State.raise_bitpos (s : State) (e : ErrCode) (pos : BitOffset) : (s.raise e pos).bitpos = s.bitpos := rfl
@[simp] theorem State.raise_next (s : State) (e : ErrCode) (pos : BitOffset) : (s.raise e pos).next = s.next := rfl
@[simp] theorem State.raise_prev (s : State) (e : ErrCode) (pos : BitOffset) : (s.raise e pos).prev = s.prev := rfl
@[simp] theorem State.raise_outpos (s : State) (e : ErrCode) (pos : BitOffset) : (s.raise e pos).outpos = s.outpos := rfl
@[simp] theorem State.raise_codes (s : State) (e : ErrCode) (pos : BitOffset) : (s.raise e pos).codes = s.codes := rfl
@[simp] theorem State.raise_st (s : State) (e : ErrCode) (pos : BitOffset) : (s.raise e pos).st = .error := rfl
@[simp] theorem State.raise_err (s : State) (e : ErrCode) (pos : BitOffset) : (s.raise e pos).err = e := rfl
@[simp] theorem State.raise_errPos (s : State) (e : ErrCode) (pos : BitOffset) : (s.raise e pos).errPos = pos := rfl
@[simp] theorem State.raise_stopEnd (s : State) (e : ErrCode) (pos : BitOffset) : (s.raise e pos).stopEnd = s.stopEnd := rfl
@[simp] theorem State.raise_dict (s : State) (e : ErrCode) (pos : BitOffset) : (s.raise e pos).dict = s.dict := rfl
@[simp] theorem State.raise_inBuf (s : State) (e : ErrCode) (pos : BitOffset) : (s.raise e pos).inBuf = s.inBuf := rfl
@[simp] theorem State.raise_outBuf (s : State) (e : ErrCode) (pos : BitOffset) : (s.raise e pos).outBuf = s.outBuf := rfl
@[simp] theorem State.raise_hostData (s : State) (e : ErrCode) (pos : BitOffset) : (s.raise e pos).hostData = s.hostData := rfl
@[simp] theorem State.raise_agenda (s : State) (e : ErrCode) (pos : BitOffset) : (s.raise e pos).agenda = s.agenda := rfl
@[simp] theorem State.raise_dictFresh (s : State) (e : ErrCode) (pos : BitOffset) : (s.raise e pos).dictFresh = s.dictFresh + 1 := rfl
@[simp] theorem State.raise_outFresh (s : State) (e : ErrCode) (pos : BitOffset) : (s.raise e pos).outFresh = s.outFresh := rfl

/-! ## advance -/

@[simp] theorem State.advance_iw (s : State) (w : Nat) : (s.advance w).iw = s.iw := rfl
@[simp] theorem State.advance_inLen (s : State) (w : Nat) : (s.advance w).inLen = s.inLen := rfl
@[simp] theorem State.advance_expLen (s : State) (w : Nat) : (s.advance w).expLen = s.expLen := rfl
@[simp] theorem State.advance_cw (s : State) (w : Nat) : (s.advance w).cw = s.cw := rfl
@[simp] theorem State.advance_bitpos (s : State) (w : Nat) : (s.advance w).bitpos = s.bitpos + BitVec.ofNat 35 w := rfl
@[simp] theorem State.advance_next (s : State) (w : Nat) : (s.advance w).next = s.next := rfl
@[simp] theorem State.advance_prev (s : State) (w : Nat) : (s.advance w).prev = s.prev := rfl
@[simp] theorem State.advance_outpos (s : State) (w : Nat) : (s.advance w).outpos = s.outpos := rfl
@[simp] theorem State.advance_codes (s : State) (w : Nat) : (s.advance w).codes = s.codes + 1 := rfl
@[simp] theorem State.advance_st (s : State) (w : Nat) : (s.advance w).st = s.st := rfl
@[simp] theorem State.advance_err (s : State) (w : Nat) : (s.advance w).err = s.err := rfl
@[simp] theorem State.advance_errPos (s : State) (w : Nat) : (s.advance w).errPos = s.errPos := rfl
@[simp] theorem State.advance_stopEnd (s : State) (w : Nat) : (s.advance w).stopEnd = s.stopEnd := rfl
@[simp] theorem State.advance_dict (s : State) (w : Nat) : (s.advance w).dict = s.dict := rfl
@[simp] theorem State.advance_inBuf (s : State) (w : Nat) : (s.advance w).inBuf = s.inBuf := rfl
@[simp] theorem State.advance_outBuf (s : State) (w : Nat) : (s.advance w).outBuf = s.outBuf := rfl
@[simp] theorem State.advance_hostData (s : State) (w : Nat) : (s.advance w).hostData = s.hostData := rfl
@[simp] theorem State.advance_agenda (s : State) (w : Nat) : (s.advance w).agenda = s.agenda := rfl
@[simp] theorem State.advance_dictFresh (s : State) (w : Nat) : (s.advance w).dictFresh = s.dictFresh := rfl
@[simp] theorem State.advance_outFresh (s : State) (w : Nat) : (s.advance w).outFresh = s.outFresh := rfl

/-! ## resetTable -/

@[simp] theorem State.resetTable_iw (s : State) : (s.resetTable).iw = s.iw := rfl
@[simp] theorem State.resetTable_inLen (s : State) : (s.resetTable).inLen = s.inLen := rfl
@[simp] theorem State.resetTable_expLen (s : State) : (s.resetTable).expLen = s.expLen := rfl
@[simp] theorem State.resetTable_cw (s : State) : (s.resetTable).cw = s.iw.setWidth 4 := rfl
@[simp] theorem State.resetTable_bitpos (s : State) : (s.resetTable).bitpos = s.bitpos := rfl
@[simp] theorem State.resetTable_next (s : State) : (s.resetTable).next = BitVec.ofNat 14 (2 ^ s.iw.toNat + 2) := rfl
@[simp] theorem State.resetTable_prev (s : State) : (s.resetTable).prev = none := rfl
@[simp] theorem State.resetTable_outpos (s : State) : (s.resetTable).outpos = s.outpos := rfl
@[simp] theorem State.resetTable_codes (s : State) : (s.resetTable).codes = s.codes := rfl
@[simp] theorem State.resetTable_st (s : State) : (s.resetTable).st = s.st := rfl
@[simp] theorem State.resetTable_err (s : State) : (s.resetTable).err = s.err := rfl
@[simp] theorem State.resetTable_errPos (s : State) : (s.resetTable).errPos = s.errPos := rfl
@[simp] theorem State.resetTable_stopEnd (s : State) : (s.resetTable).stopEnd = s.stopEnd := rfl
@[simp] theorem State.resetTable_dict (s : State) : (s.resetTable).dict = literalEntries (2 ^ s.iw.toNat) := rfl
@[simp] theorem State.resetTable_inBuf (s : State) : (s.resetTable).inBuf = s.inBuf := rfl
@[simp] theorem State.resetTable_outBuf (s : State) : (s.resetTable).outBuf = s.outBuf := rfl
@[simp] theorem State.resetTable_hostData (s : State) : (s.resetTable).hostData = s.hostData := rfl
@[simp] theorem State.resetTable_agenda (s : State) : (s.resetTable).agenda = s.agenda := rfl
@[simp] theorem State.resetTable_dictFresh (s : State) : (s.resetTable).dictFresh = s.dictFresh + 1 := rfl
@[simp] theorem State.resetTable_outFresh (s : State) : (s.resetTable).outFresh = s.outFresh := rfl

/-! ## reply -/

@[simp] theorem State.reply_iw (s : State) (v : Word) : (s.reply v).iw = s.iw := rfl
@[simp] theorem State.reply_inLen (s : State) (v : Word) : (s.reply v).inLen = s.inLen := rfl
@[simp] theorem State.reply_expLen (s : State) (v : Word) : (s.reply v).expLen = s.expLen := rfl
@[simp] theorem State.reply_cw (s : State) (v : Word) : (s.reply v).cw = s.cw := rfl
@[simp] theorem State.reply_bitpos (s : State) (v : Word) : (s.reply v).bitpos = s.bitpos := rfl
@[simp] theorem State.reply_next (s : State) (v : Word) : (s.reply v).next = s.next := rfl
@[simp] theorem State.reply_prev (s : State) (v : Word) : (s.reply v).prev = s.prev := rfl
@[simp] theorem State.reply_outpos (s : State) (v : Word) : (s.reply v).outpos = s.outpos := rfl
@[simp] theorem State.reply_codes (s : State) (v : Word) : (s.reply v).codes = s.codes := rfl
@[simp] theorem State.reply_st (s : State) (v : Word) : (s.reply v).st = s.st := rfl
@[simp] theorem State.reply_err (s : State) (v : Word) : (s.reply v).err = s.err := rfl
@[simp] theorem State.reply_errPos (s : State) (v : Word) : (s.reply v).errPos = s.errPos := rfl
@[simp] theorem State.reply_stopEnd (s : State) (v : Word) : (s.reply v).stopEnd = s.stopEnd := rfl
@[simp] theorem State.reply_dict (s : State) (v : Word) : (s.reply v).dict = s.dict := rfl
@[simp] theorem State.reply_inBuf (s : State) (v : Word) : (s.reply v).inBuf = s.inBuf := rfl
@[simp] theorem State.reply_outBuf (s : State) (v : Word) : (s.reply v).outBuf = s.outBuf := rfl
@[simp] theorem State.reply_hostData (s : State) (v : Word) : (s.reply v).hostData = v := rfl
@[simp] theorem State.reply_agenda (s : State) (v : Word) : (s.reply v).agenda = s.agenda := rfl
@[simp] theorem State.reply_dictFresh (s : State) (v : Word) : (s.reply v).dictFresh = s.dictFresh := rfl
@[simp] theorem State.reply_outFresh (s : State) (v : Word) : (s.reply v).outFresh = s.outFresh := rfl

/-! ## hardReset -/

@[simp] theorem State.hardReset_iw (s : State) : (s.hardReset).iw = 0 := rfl
@[simp] theorem State.hardReset_inLen (s : State) : (s.hardReset).inLen = 0 := rfl
@[simp] theorem State.hardReset_expLen (s : State) : (s.hardReset).expLen = 0 := rfl
@[simp] theorem State.hardReset_cw (s : State) : (s.hardReset).cw = 0 := rfl
@[simp] theorem State.hardReset_bitpos (s : State) : (s.hardReset).bitpos = 0 := rfl
@[simp] theorem State.hardReset_next (s : State) : (s.hardReset).next = 0 := rfl
@[simp] theorem State.hardReset_prev (s : State) : (s.hardReset).prev = none := rfl
@[simp] theorem State.hardReset_outpos (s : State) : (s.hardReset).outpos = 0 := rfl
@[simp] theorem State.hardReset_codes (s : State) : (s.hardReset).codes = 0 := rfl
@[simp] theorem State.hardReset_st (s : State) : (s.hardReset).st = .idle := rfl
@[simp] theorem State.hardReset_err (s : State) : (s.hardReset).err = .eNone := rfl
@[simp] theorem State.hardReset_errPos (s : State) : (s.hardReset).errPos = 0 := rfl
@[simp] theorem State.hardReset_stopEnd (s : State) : (s.hardReset).stopEnd = false := rfl
@[simp] theorem State.hardReset_dict (s : State) : (s.hardReset).dict = [] := rfl
@[simp] theorem State.hardReset_inBuf (s : State) : (s.hardReset).inBuf = s.inBuf := rfl
@[simp] theorem State.hardReset_outBuf (s : State) : (s.hardReset).outBuf = s.outBuf := rfl
@[simp] theorem State.hardReset_hostData (s : State) : (s.hardReset).hostData = s.hostData := rfl
@[simp] theorem State.hardReset_agenda (s : State) : (s.hardReset).agenda = s.agenda := rfl
@[simp] theorem State.hardReset_dictFresh (s : State) : (s.hardReset).dictFresh = s.dictFresh + 1 := rfl
@[simp] theorem State.hardReset_outFresh (s : State) : (s.hardReset).outFresh = s.outFresh := rfl

/-! ## corruptOutput -/

@[simp] theorem State.corruptOutput_iw (s : State) : (s.corruptOutput).iw = s.iw := rfl
@[simp] theorem State.corruptOutput_inLen (s : State) : (s.corruptOutput).inLen = s.inLen := rfl
@[simp] theorem State.corruptOutput_expLen (s : State) : (s.corruptOutput).expLen = s.expLen := rfl
@[simp] theorem State.corruptOutput_cw (s : State) : (s.corruptOutput).cw = s.cw := rfl
@[simp] theorem State.corruptOutput_bitpos (s : State) : (s.corruptOutput).bitpos = s.bitpos := rfl
@[simp] theorem State.corruptOutput_next (s : State) : (s.corruptOutput).next = s.next := rfl
@[simp] theorem State.corruptOutput_prev (s : State) : (s.corruptOutput).prev = s.prev := rfl
@[simp] theorem State.corruptOutput_outpos (s : State) : (s.corruptOutput).outpos = s.outpos := rfl
@[simp] theorem State.corruptOutput_codes (s : State) : (s.corruptOutput).codes = s.codes := rfl
@[simp] theorem State.corruptOutput_st (s : State) : (s.corruptOutput).st = s.st := rfl
@[simp] theorem State.corruptOutput_err (s : State) : (s.corruptOutput).err = s.err := rfl
@[simp] theorem State.corruptOutput_errPos (s : State) : (s.corruptOutput).errPos = s.errPos := rfl
@[simp] theorem State.corruptOutput_stopEnd (s : State) : (s.corruptOutput).stopEnd = s.stopEnd := rfl
@[simp] theorem State.corruptOutput_dict (s : State) : (s.corruptOutput).dict = s.dict := rfl
@[simp] theorem State.corruptOutput_inBuf (s : State) : (s.corruptOutput).inBuf = s.inBuf := rfl
@[simp] theorem State.corruptOutput_outBuf (s : State) : (s.corruptOutput).outBuf = Sparse.fill s.outBuf (2 * s.outpos.toNat) (Config.corruptOut s.outFresh) (2 * (s.expLen.toNat - s.outpos.toNat)) := rfl
@[simp] theorem State.corruptOutput_hostData (s : State) : (s.corruptOutput).hostData = s.hostData := rfl
@[simp] theorem State.corruptOutput_agenda (s : State) : (s.corruptOutput).agenda = s.agenda := rfl
@[simp] theorem State.corruptOutput_dictFresh (s : State) : (s.corruptOutput).dictFresh = s.dictFresh := rfl
@[simp] theorem State.corruptOutput_outFresh (s : State) : (s.corruptOutput).outFresh = s.outFresh + 1 := rfl

/-! ## commit -/

@[simp] theorem State.commit_iw (s : State) (c : Code) (run : Nat) (out : Memory) (w : Nat) : (s.commit c run out w).iw = s.iw := rfl
@[simp] theorem State.commit_inLen (s : State) (c : Code) (run : Nat) (out : Memory) (w : Nat) : (s.commit c run out w).inLen = s.inLen := rfl
@[simp] theorem State.commit_expLen (s : State) (c : Code) (run : Nat) (out : Memory) (w : Nat) : (s.commit c run out w).expLen = s.expLen := rfl
@[simp] theorem State.commit_cw (s : State) (c : Code) (run : Nat) (out : Memory) (w : Nat) : (s.commit c run out w).cw = s.cw := rfl
@[simp] theorem State.commit_bitpos (s : State) (c : Code) (run : Nat) (out : Memory) (w : Nat) : (s.commit c run out w).bitpos = s.bitpos + BitVec.ofNat 35 w := rfl
@[simp] theorem State.commit_next (s : State) (c : Code) (run : Nat) (out : Memory) (w : Nat) : (s.commit c run out w).next = s.next := rfl
@[simp] theorem State.commit_prev (s : State) (c : Code) (run : Nat) (out : Memory) (w : Nat) : (s.commit c run out w).prev = some c := rfl
@[simp] theorem State.commit_outpos (s : State) (c : Code) (run : Nat) (out : Memory) (w : Nat) : (s.commit c run out w).outpos = s.outpos + BitVec.ofNat 32 run := rfl
@[simp] theorem State.commit_codes (s : State) (c : Code) (run : Nat) (out : Memory) (w : Nat) : (s.commit c run out w).codes = s.codes + 1 := rfl
@[simp] theorem State.commit_st (s : State) (c : Code) (run : Nat) (out : Memory) (w : Nat) : (s.commit c run out w).st = s.st := rfl
@[simp] theorem State.commit_err (s : State) (c : Code) (run : Nat) (out : Memory) (w : Nat) : (s.commit c run out w).err = s.err := rfl
@[simp] theorem State.commit_errPos (s : State) (c : Code) (run : Nat) (out : Memory) (w : Nat) : (s.commit c run out w).errPos = s.errPos := rfl
@[simp] theorem State.commit_stopEnd (s : State) (c : Code) (run : Nat) (out : Memory) (w : Nat) : (s.commit c run out w).stopEnd = s.stopEnd := rfl
@[simp] theorem State.commit_dict (s : State) (c : Code) (run : Nat) (out : Memory) (w : Nat) : (s.commit c run out w).dict = s.dict := rfl
@[simp] theorem State.commit_inBuf (s : State) (c : Code) (run : Nat) (out : Memory) (w : Nat) : (s.commit c run out w).inBuf = s.inBuf := rfl
@[simp] theorem State.commit_outBuf (s : State) (c : Code) (run : Nat) (out : Memory) (w : Nat) : (s.commit c run out w).outBuf = out := rfl
@[simp] theorem State.commit_hostData (s : State) (c : Code) (run : Nat) (out : Memory) (w : Nat) : (s.commit c run out w).hostData = s.hostData := rfl
@[simp] theorem State.commit_agenda (s : State) (c : Code) (run : Nat) (out : Memory) (w : Nat) : (s.commit c run out w).agenda = s.agenda := rfl
@[simp] theorem State.commit_dictFresh (s : State) (c : Code) (run : Nat) (out : Memory) (w : Nat) : (s.commit c run out w).dictFresh = s.dictFresh := rfl
@[simp] theorem State.commit_outFresh (s : State) (c : Code) (run : Nat) (out : Memory) (w : Nat) : (s.commit c run out w).outFresh = s.outFresh := rfl

/-! ## What a read of the state depends on -/

theorem State.entry_congr {s t : State} (hd : t.dict = s.dict) (hf : t.dictFresh = s.dictFresh) (c : Nat) :
    t.entry c = s.entry c := by
  simp only [State.entry, hd, hf]

theorem State.entry_of_listed {s : State} {c : Nat} {e : DictEntry} (h : Sparse.get? s.dict c = some e) :
    s.entry c = e := by
  simp only [State.entry, h, Option.getD_some]

theorem State.outByte_congr {s t : State} (h : t.outBuf = s.outBuf) (a : Nat) : t.outByte a = s.outByte a := by
  simp only [State.outByte, h]

theorem State.outElement_congr {s t : State} (h : t.outBuf = s.outBuf) (j : Nat) : t.outElement j = s.outElement j := by
  simp only [State.outElement, State.outByte_congr h]

theorem State.inByte_congr {s t : State} (h : t.inBuf = s.inBuf) (i : Nat) : t.inByte i = s.inByte i := by
  simp only [State.inByte, h]

theorem State.outByte_of_read {s t : State} {a : Nat} (h : Memory.read t.outBuf a = Memory.read s.outBuf a) :
    t.outByte a = s.outByte a := by
  simp only [State.outByte, h]

theorem State.outElement_of_reads {s t : State} {j : Nat}
    (h0 : Memory.read t.outBuf (2 * j) = Memory.read s.outBuf (2 * j))
    (h1 : Memory.read t.outBuf (2 * j + 1) = Memory.read s.outBuf (2 * j + 1)) : t.outElement j = s.outElement j := by
  simp only [State.outElement, State.outByte_of_read h0, State.outByte_of_read h1]

theorem State.busy_iff {s : State} : s.busy = true ↔ s.st = .run := by
  simp [State.busy]

theorem State.not_busy_iff {s : State} : s.busy = false ↔ s.st ≠ .run := by
  simp [State.busy]

end Sys2Proof.Machine
end

