-- ==== Sys2Proof/Laws/Data.lean ====
section
/-! SUPPORT. What learning, the expansion walk and DataCode can do (42_data_codes R70 to R84), for proofs to cite. -/

namespace Sys2Proof.Machine

/-! ## Learning -/

/-- Learning does nothing, or it writes one entry at `next`, advances `next` and may bump `cw`. -/
theorem State.learn_cases (s : State) (c : Code) (cap : Nat) :
    (s.learn c cap = s ∧ (s.prev = none ∨ Config.dictSize cap ≤ s.next.toNat)) ∨
      ∃ p, s.prev = some p ∧ s.next.toNat < Config.dictSize cap ∧
        s.learn c cap =
          { s with
            dict := Sparse.set s.dict s.next.toNat (s.learnedEntry c p), next := s.next + 1
            cw := s.bumpedWidth cap } := by
  unfold State.learn
  cases h : s.prev with
  | none => exact .inl ⟨rfl, .inl rfl⟩
  | some p =>
    dsimp only
    split_ifs with hn
    · exact .inr ⟨p, rfl, hn, rfl⟩
    · exact .inl ⟨rfl, .inr (Nat.le_of_not_lt hn)⟩

theorem State.learn_of_first {s : State} {c : Code} {cap : Nat} (h : s.prev = none) : s.learn c cap = s := by
  unfold State.learn
  rw [h]

theorem State.learn_of_full {s : State} {c : Code} {cap : Nat} (h : Config.dictSize cap ≤ s.next.toNat) :
    s.learn c cap = s := by
  unfold State.learn
  cases s.prev with
  | none => rfl
  | some p => exact if_neg (by omega)

theorem State.learn_of_room {s : State} {c p : Code} {cap : Nat} (hp : s.prev = some p)
    (h : s.next.toNat < Config.dictSize cap) :
    s.learn c cap =
      { s with
        dict := Sparse.set s.dict s.next.toNat (s.learnedEntry c p), next := s.next + 1
        cw := s.bumpedWidth cap } := by
  unfold State.learn
  rw [hp]
  exact if_pos h

@[simp] theorem State.learn_iw (s : State) (c : Code) (cap : Nat) : (s.learn c cap).iw = s.iw := by
  rcases s.learn_cases c cap with ⟨h, -⟩ | ⟨p, -, -, h⟩ <;> rw [h]

@[simp] theorem State.learn_inLen (s : State) (c : Code) (cap : Nat) : (s.learn c cap).inLen = s.inLen := by
  rcases s.learn_cases c cap with ⟨h, -⟩ | ⟨p, -, -, h⟩ <;> rw [h]

@[simp] theorem State.learn_expLen (s : State) (c : Code) (cap : Nat) : (s.learn c cap).expLen = s.expLen := by
  rcases s.learn_cases c cap with ⟨h, -⟩ | ⟨p, -, -, h⟩ <;> rw [h]

@[simp] theorem State.learn_bitpos (s : State) (c : Code) (cap : Nat) : (s.learn c cap).bitpos = s.bitpos := by
  rcases s.learn_cases c cap with ⟨h, -⟩ | ⟨p, -, -, h⟩ <;> rw [h]

@[simp] theorem State.learn_prev (s : State) (c : Code) (cap : Nat) : (s.learn c cap).prev = s.prev := by
  rcases s.learn_cases c cap with ⟨h, -⟩ | ⟨p, -, -, h⟩ <;> rw [h]

@[simp] theorem State.learn_outpos (s : State) (c : Code) (cap : Nat) : (s.learn c cap).outpos = s.outpos := by
  rcases s.learn_cases c cap with ⟨h, -⟩ | ⟨p, -, -, h⟩ <;> rw [h]

@[simp] theorem State.learn_codes (s : State) (c : Code) (cap : Nat) : (s.learn c cap).codes = s.codes := by
  rcases s.learn_cases c cap with ⟨h, -⟩ | ⟨p, -, -, h⟩ <;> rw [h]

@[simp] theorem State.learn_st (s : State) (c : Code) (cap : Nat) : (s.learn c cap).st = s.st := by
  rcases s.learn_cases c cap with ⟨h, -⟩ | ⟨p, -, -, h⟩ <;> rw [h]

@[simp] theorem State.learn_err (s : State) (c : Code) (cap : Nat) : (s.learn c cap).err = s.err := by
  rcases s.learn_cases c cap with ⟨h, -⟩ | ⟨p, -, -, h⟩ <;> rw [h]

@[simp] theorem State.learn_errPos (s : State) (c : Code) (cap : Nat) : (s.learn c cap).errPos = s.errPos := by
  rcases s.learn_cases c cap with ⟨h, -⟩ | ⟨p, -, -, h⟩ <;> rw [h]

@[simp] theorem State.learn_stopEnd (s : State) (c : Code) (cap : Nat) : (s.learn c cap).stopEnd = s.stopEnd := by
  rcases s.learn_cases c cap with ⟨h, -⟩ | ⟨p, -, -, h⟩ <;> rw [h]

@[simp] theorem State.learn_inBuf (s : State) (c : Code) (cap : Nat) : (s.learn c cap).inBuf = s.inBuf := by
  rcases s.learn_cases c cap with ⟨h, -⟩ | ⟨p, -, -, h⟩ <;> rw [h]

@[simp] theorem State.learn_outBuf (s : State) (c : Code) (cap : Nat) : (s.learn c cap).outBuf = s.outBuf := by
  rcases s.learn_cases c cap with ⟨h, -⟩ | ⟨p, -, -, h⟩ <;> rw [h]

@[simp] theorem State.learn_hostData (s : State) (c : Code) (cap : Nat) : (s.learn c cap).hostData = s.hostData := by
  rcases s.learn_cases c cap with ⟨h, -⟩ | ⟨p, -, -, h⟩ <;> rw [h]

@[simp] theorem State.learn_agenda (s : State) (c : Code) (cap : Nat) : (s.learn c cap).agenda = s.agenda := by
  rcases s.learn_cases c cap with ⟨h, -⟩ | ⟨p, -, -, h⟩ <;> rw [h]

@[simp] theorem State.learn_dictFresh (s : State) (c : Code) (cap : Nat) : (s.learn c cap).dictFresh = s.dictFresh := by
  rcases s.learn_cases c cap with ⟨h, -⟩ | ⟨p, -, -, h⟩ <;> rw [h]

@[simp] theorem State.learn_outFresh (s : State) (c : Code) (cap : Nat) : (s.learn c cap).outFresh = s.outFresh := by
  rcases s.learn_cases c cap with ⟨h, -⟩ | ⟨p, -, -, h⟩ <;> rw [h]

/-- Learning leaves every entry but the one at `next` alone. -/
theorem State.learn_entry_other (s : State) (c : Code) (cap : Nat) {d : Nat} (hd : d ≠ s.next.toNat) :
    (s.learn c cap).entry d = s.entry d := by
  rcases s.learn_cases c cap with ⟨h, -⟩ | ⟨p, -, -, h⟩ <;> rw [h]
  simp only [State.entry, Sparse.get?_set_other _ _ hd]

theorem State.wf_learn {s : State} (h : Sparse.wf s.dict = true) (c : Code) (cap : Nat) :
    Sparse.wf (s.learn c cap).dict = true := by
  rcases s.learn_cases c cap with ⟨h', -⟩ | ⟨p, -, -, h'⟩ <;> rw [h']
  · exact h
  · exact Sparse.wf_set h _ _

/-! ## Runs: sequences whose entries carry the right lengths -/

/-- `l` is `Seq(d)`, and every entry on the way names as many symbols as its `len` says (42_data_codes R70). -/
inductive State.IsRun (s : State) : Code → List Symbol → Prop where
  | literal (d : Code) (h : (s.entry d.toNat).prefixCode = none) (hl : (s.entry d.toNat).len.toNat = 1) :
      s.IsRun d [(s.entry d.toNat).suffix]
  | extend (d p : Code) (l : List Symbol) (h : (s.entry d.toNat).prefixCode = some p) (hne : p ≠ d)
      (hl : (s.entry d.toNat).len.toNat = l.length + 1) (hp : s.IsRun p l) :
      s.IsRun d (l ++ [(s.entry d.toNat).suffix])

theorem State.IsRun.isSeq {s : State} {d : Code} {l : List Symbol} (h : s.IsRun d l) : s.IsSeq d l := by
  induction h with
  | literal d h _ => exact .literal d h
  | extend d p l h _ _ _ ih => exact .extend d p l h ih

theorem State.IsRun.length_eq {s : State} {d : Code} {l : List Symbol} (h : s.IsRun d l) :
    l.length = (s.entry d.toNat).len.toNat := by
  cases h with
  | literal d h hl => simpa using hl.symm
  | extend d p l h hne hl hp => simpa using hl.symm

theorem State.IsRun.ne_nil {s : State} {d : Code} {l : List Symbol} (h : s.IsRun d l) : l ≠ [] := by
  cases h <;> simp

/-- A sequence is determined by its code (42_data_codes R70). -/
theorem State.IsSeq.unique {s : State} {d : Code} {l l' : List Symbol} (h : s.IsSeq d l) (h' : s.IsSeq d l') : l = l' := by
  induction h generalizing l' with
  | literal d h =>
    cases h' with
    | literal => rfl
    | extend _ p _ h2 _ => rw [h] at h2; cases h2
  | extend d p l h _ ih =>
    cases h' with
    | literal _ h2 => rw [h] at h2; cases h2
    | extend _ p' l' h2 hp' =>
      rw [h] at h2
      cases h2
      rw [ih hp']

/-- A run depends only on the entries of its chain. -/
theorem State.IsRun.of_entries {s t : State} {d : Code} {l : List Symbol} {bound : Nat}
    (h : s.IsRun d l) (hd : d.toNat < bound)
    (hlink : ∀ c p : Code, c.toNat < bound → (s.entry c.toNat).prefixCode = some p → p.toNat < bound)
    (hsame : ∀ c : Nat, c < bound → t.entry c = s.entry c) : t.IsRun d l := by
  induction h with
  | literal d h hl =>
    rw [← hsame _ hd] at h hl ⊢
    exact .literal d h hl
  | extend d p l h hne hl hp ih =>
    have hp' := ih (hlink d p hd h)
    rw [← hsame _ hd] at h hl ⊢
    exact .extend d p l h hne hl hp'

/-- `First` of a run is its first symbol (42_data_codes R70). -/
theorem State.IsRun.firstOnChain {s : State} {d : Code} {l : List Symbol} (h : s.IsRun d l) :
    ∀ n, l.length ≤ n → s.firstOnChain n d = l.head? := by
  induction h with
  | literal d h hl =>
    intro n hn
    obtain ⟨n, rfl⟩ : ∃ m, n = m + 1 := ⟨n - 1, by simp at hn; omega⟩
    simp [State.firstOnChain, h]
  | extend d p l h hne hl hp ih =>
    intro n hn
    obtain ⟨n, rfl⟩ : ∃ m, n = m + 1 := ⟨n - 1, by simp at hn; omega⟩
    rw [State.firstOnChain, h]
    dsimp only
    rw [ih n (by simp at hn; omega), List.head?_append_of_ne_nil _ hp.ne_nil]

theorem State.IsRun.first {s : State} {d : Code} {l : List Symbol} (h : s.IsRun d l) : l.head? = some (s.first d) := by
  have hlen : l.length ≤ chainFuel := by
    rw [h.length_eq]
    exact Nat.le_of_lt (BitVec.isLt _)
  have := h.firstOnChain chainFuel hlen
  obtain ⟨x, xs, rfl⟩ := List.exists_cons_of_ne_nil h.ne_nil
  simp only [State.first, this, List.head?_cons, Option.getD_some]

/-! ## The expansion walk -/

/-- `out'` holds the run `l` at element `base`, and every other byte of `out` (42_data_codes R78). -/
structure RunWritten (base : Nat) (l : List Symbol) (out out' : Memory) : Prop where
  low   : ∀ j (h : j < l.length),
    Memory.read out' (2 * (base + j)) = some ((l[j].setWidth 16 : Element).extractLsb' 0 8)
  high  : ∀ j (h : j < l.length),
    Memory.read out' (2 * (base + j) + 1) = some ((l[j].setWidth 16 : Element).extractLsb' 8 8)
  other : ∀ a, a < 2 * base ∨ 2 * (base + l.length) ≤ a → Memory.read out' a = Memory.read out a
  form  : Memory.wf out = true → Memory.wf out' = true

/-- On a run, the walk completes and writes the run (42_data_codes R78). -/
theorem State.IsRun.expand {s : State} {d : Code} {l : List Symbol} (h : s.IsRun d l) (base : Nat) :
    ∀ n out, l.length ≤ n → ∃ out', s.expand base n d out = .complete out' ∧ RunWritten base l out out' := by
  induction h with
  | literal d h hl =>
    intro n out hn
    obtain ⟨n, rfl⟩ : ∃ m, n = m + 1 := ⟨n - 1, by simp at hn; omega⟩
    refine ⟨Memory.writeElement out base ((s.entry d.toNat).suffix.setWidth 16), ?_, ?_⟩
    · simp only [State.expand, h, hl, Nat.add_sub_cancel]
    constructor
    · intro j hj
      obtain rfl : j = 0 := by simpa using hj
      rw [Memory.read_writeElement, if_neg (by omega), if_pos (by omega)]
      rfl
    · intro j hj
      obtain rfl : j = 0 := by simpa using hj
      rw [Memory.read_writeElement, if_pos (by omega)]
      rfl
    · intro a ha
      exact Memory.read_writeElement_other _ _ (by simp at ha; omega)
    · exact fun hw => Memory.wf_writeElement hw _ _
  | extend d p l h hne hl hp ih =>
    intro n out hn
    obtain ⟨n, rfl⟩ : ∃ m, n = m + 1 := ⟨n - 1, by simp at hn; omega⟩
    obtain ⟨out', he, hw⟩ := ih n
      (Memory.writeElement out (base + l.length) ((s.entry d.toNat).suffix.setWidth 16)) (by simp at hn; omega)
    refine ⟨out', ?_, ?_⟩
    · simp only [State.expand, h, hl, if_neg hne]
      exact he
    · constructor
      · intro j hj
        by_cases hjl : j < l.length
        · rw [hw.low j hjl, List.getElem_append_left hjl]
        · obtain rfl : j = l.length := by simp at hj; omega
          rw [hw.other _ (by omega), Memory.read_writeElement, if_neg (by omega), if_pos (by omega)]
          simp
      · intro j hj
        by_cases hjl : j < l.length
        · rw [hw.high j hjl, List.getElem_append_left hjl]
        · obtain rfl : j = l.length := by simp at hj; omega
          rw [hw.other _ (by omega), Memory.read_writeElement, if_pos (by omega)]
          simp
      · intro a ha
        simp only [List.length_append, List.length_singleton] at ha
        rw [hw.other a (by omega), Memory.read_writeElement_other _ _ (by omega)]
      · exact fun hf => hw.form (Memory.wf_writeElement hf _ _)

/-- The walk keeps the memory's canonical form. -/
theorem State.wf_expand (s : State) (base : Nat) : ∀ n d out out', Memory.wf out = true →
    s.expand base n d out = .complete out' → Memory.wf out' = true := by
  intro n
  induction n with
  | zero => intro d out out' _ h; simp [State.expand] at h
  | succ n ih =>
    intro d out out' hw h
    rw [State.expand] at h
    split at h
    · cases h
      exact Memory.wf_writeElement hw _ _
    · split_ifs at h
      exact ih _ _ _ (Memory.wf_writeElement hw _ _) h

/-! ## DataCode -/

/-- Everything a data code can do (42_data_codes R84): overrun, self-reference, a chain that never ends, or a commit. -/
theorem State.dataCode_cases (s : State) (c : Code) (cap : Nat) :
    (s.expLen.toNat < s.outpos.toNat + ((s.learn c cap).entry c.toNat).len.toNat ∧
      s.dataCode c cap = .next (s.raise .overrun s.bitpos)) ∨
    (s.outpos.toNat + ((s.learn c cap).entry c.toNat).len.toNat ≤ s.expLen.toNat ∧
      (((s.learn c cap).expand s.outpos.toNat chainFuel c s.outBuf = .selfRef ∧
        s.dataCode c cap = .next (s.corruptOutput.raise .selfRef s.bitpos)) ∨
      ((s.learn c cap).expand s.outpos.toNat chainFuel c s.outBuf = .broken ∧
        s.dataCode c cap = .fault .brokenChain) ∨
      ∃ out, (s.learn c cap).expand s.outpos.toNat chainFuel c s.outBuf = .complete out ∧
        s.dataCode c cap = .next
          ((s.learn c cap).commit c ((s.learn c cap).entry c.toNat).len.toNat out s.width))) := by
  by_cases h : s.expLen.toNat < s.outpos.toNat + ((s.learn c cap).entry c.toNat).len.toNat
  · exact .inl ⟨h, by simp only [State.dataCode, if_pos h]⟩
  · refine .inr ⟨Nat.le_of_not_lt h, ?_⟩
    simp only [State.dataCode, if_neg h]
    cases hx : (s.learn c cap).expand s.outpos.toNat chainFuel c s.outBuf with
    | complete out => exact .inr (.inr ⟨out, rfl, rfl⟩)
    | selfRef => exact .inl ⟨rfl, rfl⟩
    | broken => exact .inr (.inl ⟨rfl, rfl⟩)

end Sys2Proof.Machine
end

