-- ==== Sys2Proof/Laws/Encoding.lean ====
section
/-! SUPPORT. What the decoder reads in the words the encoder writes, and in any word of the register window. -/

namespace Sys2Proof

theorem accessWord_toNat {dir k data : Nat} (hd : dir < 2) (hk : k < 64) (hdata : data < 2 ^ 32) :
    (accessWord dir k data).toNat = dir * 2 ^ 40 + 4 * k * 2 ^ 32 + data := by
  rw [accessWord, BitVec.toNat_ofNat, Nat.mod_eq_of_lt (by omega)]

theorem AccessWord.offset_toNat (w : AccessWord) : (w.extractLsb' 32 8).toNat = w.toNat / 2 ^ 32 % 2 ^ 8 := by
  rw [BitVec.extractLsb'_toNat, Nat.shiftRight_eq_div_pow]

theorem AccessWord.data_toNat (w : AccessWord) : (w.extractLsb' 0 32).toNat = w.toNat % 2 ^ 32 := by
  rw [BitVec.extractLsb'_toNat, Nat.shiftRight_zero]

theorem AccessWord.dir_eq (w : AccessWord) : w.getLsbD 40 = decide (w.toNat / 2 ^ 40 % 2 = 1) := by
  rw [BitVec.getLsbD, Nat.testBit_eq_decide_div_mod_eq]

theorem offset_index (o : BitVec 8) : (o.extractLsb' 2 6).toNat = o.toNat / 4 := by
  have := o.isLt
  rw [BitVec.extractLsb'_toNat, Nat.shiftRight_eq_div_pow, Nat.mod_eq_of_lt (by omega)]

/-- Decoding an aligned word reads its register number and its direction (30_encoding R59). -/
theorem decodeAccess_accessWord {dir : Nat} (hd : dir < 2) (k : BitVec 6) (d : Word) :
    decodeAccess (accessWord dir k.toNat d.toNat) = .ok (if dir = 1 then decodeWrite k d else decodeRead k) := by
  have hk := k.isLt
  have hdl := d.isLt
  have hw := accessWord_toNat hd hk hdl
  generalize accessWord dir k.toNat d.toNat = w at hw
  have ho : (w.extractLsb' 32 8).toNat = 4 * k.toNat := by
    rw [AccessWord.offset_toNat, hw]
    omega
  have hidx : (w.extractLsb' 32 8).extractLsb' 2 6 = k := BitVec.eq_of_toNat_eq (by rw [offset_index, ho]; omega)
  have hdata : w.extractLsb' 0 32 = d := BitVec.eq_of_toNat_eq (by rw [AccessWord.data_toNat, hw]; omega)
  have hdir : w.getLsbD 40 = decide (dir = 1) := by
    rw [AccessWord.dir_eq, hw]
    congr 1
    apply propext
    omega
  unfold decodeAccess
  simp only [hidx, hdata, hdir, ho, Nat.mul_mod_right, ne_eq, not_true_eq_false, if_false, decide_eq_true_eq]
  split_ifs <;> rfl

theorem decodeAccess_encodeRead (k : BitVec 6) : decodeAccess (encodeRead k) = .ok (decodeRead k) :=
  decodeAccess_accessWord (dir := 0) (by omega) k 0

theorem decodeAccess_encodeWrite (k : BitVec 6) (d : Word) : decodeAccess (encodeWrite k d) = .ok (decodeWrite k d) :=
  decodeAccess_accessWord (dir := 1) (by omega) k d

theorem decodeRead_reserved {k : BitVec 6} (h : 12 ≤ k.toNat) : decodeRead k = .readRsvd k := by
  unfold decodeRead
  split <;> first | omega | rfl

theorem decodeWrite_reserved {k : BitVec 6} {d : Word} (h : 12 ≤ k.toNat) : decodeWrite k d = .writeRsvd k d := by
  unfold decodeWrite
  split <;> first | omega | rfl

/-- A word of the window decodes exactly where its offset is a multiple of 4 (20_memory R36). -/
theorem decodeAccess_ok_iff (w : AccessWord) :
    (∃ i, decodeAccess w = .ok i) ↔ (w.extractLsb' 32 8).toNat % 4 = 0 := by
  unfold decodeAccess
  dsimp only
  split_ifs with h
  · exact iff_of_false (by rintro ⟨_, h'⟩; cases h') h
  · exact iff_of_true ⟨_, rfl⟩ (not_not.1 h)
  · exact iff_of_true ⟨_, rfl⟩ (not_not.1 h)

/-- Every aligned word is an access word of its register number, direction and data. -/
theorem accessWord_of_aligned {w : AccessWord} (h : (w.extractLsb' 32 8).toNat % 4 = 0) :
    ∃ (dir : Nat) (k : BitVec 6) (d : Word), dir < 2 ∧ w = accessWord dir k.toNat d.toNat := by
  have hw := w.isLt
  have ho := AccessWord.offset_toNat w
  refine ⟨w.toNat / 2 ^ 40, (w.extractLsb' 32 8).extractLsb' 2 6, w.extractLsb' 0 32, by omega, ?_⟩
  apply BitVec.eq_of_toNat_eq
  rw [offset_index, AccessWord.data_toNat, accessWord_toNat (by omega) (by omega) (by omega)]
  omega

end Sys2Proof
end

