-- ==== Sys2Proof/Laws/Invariant.lean ====
section
/-! SUPPORT. What the run invariant (10_state R26) gives, and that learning, the commit and the table reset keep it. -/

namespace Sys2Proof.Machine

variable {s : State} {cap : Nat}

theorem word_add_one {n : Nat} {x : BitVec n} (h : x.toNat + 1 < 2 ^ n) : (x + 1).toNat = x.toNat + 1 := by
  have h1 : 1 < 2 ^ n := by omega
  rw [BitVec.toNat_add, show (1 : BitVec n).toNat = 1 from Nat.mod_eq_of_lt h1, Nat.mod_eq_of_lt h]

theorem State.clr_congr {t : State} (h : t.iw = s.iw) : t.clr = s.clr := by
  simp only [State.clr, h]

theorem State.two_le_clr (h : s.RunInv cap) : 2 ≤ s.clr := by
  have := Nat.pow_le_pow_right (show 0 < 2 by omega) h.width.1
  simpa [State.clr] using this

theorem State.RunInv.defined_prev (h : s.RunInv cap) {p : Code} (hp : s.prev = some p) : s.Defined p.toNat := by
  obtain ⟨h1, h2, h3⟩ := h.previous p hp
  simp only [State.Defined]
  omega

theorem State.RunInv.literal_entry (h : s.RunInv cap) {c : Nat} (hc : c < s.clr) :
    s.entry c = ⟨1, none, BitVec.ofNat 12 c⟩ :=
  State.entry_of_listed (h.literals c hc)

/-- A chain from a defined entry stays on defined entries below it. -/
theorem State.RunInv.link (h : s.RunInv cap) {d p : Code} (hd : s.Defined d.toNat)
    (hp : (s.entry d.toNat).prefixCode = some p) :
    p.toNat < d.toNat ∧ s.Defined p.toNat ∧ (s.entry d.toNat).len.toNat = (s.entry p.toNat).len.toNat + 1 ∧
      (s.entry d.toNat).suffix.toNat < s.clr := by
  rcases hd with hlit | ⟨hlo, hhi⟩
  · rw [h.literal_entry hlit] at hp
    cases hp
  · obtain ⟨e, q, he⟩ := h.learned _ hlo hhi
    rw [State.entry_of_listed he.listed] at hp ⊢
    obtain rfl : q = p := by simpa [he.link] using hp
    exact ⟨he.below, by have := he.below; have := he.notControl; simp only [State.Defined]; omega, he.longer, he.symbol⟩

/-- Every defined code names a run of colour indices (42_data_codes R70). -/
theorem State.RunInv.exists_run (h : s.RunInv cap) (d : Code) (hd : s.Defined d.toNat) :
    ∃ l, s.IsRun d l ∧ ∀ x ∈ l, x.toNat < s.clr := by
  induction hn : d.toNat using Nat.strong_induction_on generalizing d with
  | _ n ih =>
    subst hn
    cases hp : (s.entry d.toNat).prefixCode with
    | none =>
      have hlit : d.toNat < s.clr := by
        rcases hd with hlit | ⟨hlo, hhi⟩
        · exact hlit
        · obtain ⟨e, q, he⟩ := h.learned _ hlo hhi
          rw [State.entry_of_listed he.listed, he.link] at hp
          cases hp
      refine ⟨_, .literal d hp (by rw [h.literal_entry hlit]; rfl), ?_⟩
      rw [h.literal_entry hlit]
      simp only [List.mem_singleton, forall_eq]
      exact (BitVec.toNat_ofNat _ _).trans_le (Nat.mod_le _ _) |>.trans_lt hlit
    | some p =>
      obtain ⟨hlt, hdef, hlen, hsym⟩ := h.link hd hp
      obtain ⟨l, hl, hx⟩ := ih _ hlt p hdef rfl
      refine ⟨_, .extend d p l hp (by rintro rfl; omega) (by rw [hlen, hl.length_eq]) hl, ?_⟩
      intro x hx'
      rcases List.mem_append.1 hx' with hx' | hx'
      · exact hx x hx'
      · rw [List.mem_singleton.1 hx']
        exact hsym

theorem State.RunInv.first_lt (h : s.RunInv cap) {d : Code} (hd : s.Defined d.toNat) : (s.first d).toNat < s.clr := by
  obtain ⟨l, hl, hx⟩ := h.exists_run d hd
  exact hx _ (List.mem_of_mem_head? hl.first)

/-- The length of a defined entry leaves room for one more symbol below the entry's index (10_state R20). -/
theorem State.RunInv.len_bound (h : s.RunInv cap) {c : Nat} (hc : s.Defined c) :
    1 ≤ (s.entry c).len.toNat ∧ ((s.entry c).len.toNat = 1 ∨ (s.entry c).len.toNat + s.clr ≤ c) := by
  rcases hc with hlit | ⟨hlo, hhi⟩
  · rw [h.literal_entry hlit]
    exact ⟨Nat.le_refl _, .inl rfl⟩
  · obtain ⟨e, q, he⟩ := h.learned _ hlo hhi
    rw [State.entry_of_listed he.listed]
    have := he.longer
    exact ⟨by omega, .inr he.short⟩

theorem State.dictSize_le (hcap : cap ≤ 12) : Config.dictSize cap ≤ 8192 := by
  have := Nat.pow_le_pow_right (show 0 < 2 by omega) (show cap + 1 ≤ 13 by omega)
  simpa [Config.dictSize] using this

/-- A code the engine may run as a data code (42_data_codes R71). -/
def State.Admitted (s : State) (c : Code) : Prop :=
  s.Defined c.toNat ∨ (c.toNat = s.next.toNat ∧ s.prev ≠ none)

theorem State.next_add_one (hlt : s.next.toNat < Config.dictSize cap) (hcap : cap ≤ 12) :
    (s.next + 1).toNat = s.next.toNat + 1 := by
  have := State.dictSize_le hcap
  exact word_add_one (by omega)

theorem State.cw_bumped (s : State) (hcap : cap ≤ 12) :
    (s.bumpedWidth cap).toNat =
      if 2 ^ (s.cw.toNat + 1) ≤ s.next.toNat + 1 ∧ s.cw.toNat < cap then s.cw.toNat + 1 else s.cw.toNat := by
  unfold State.bumpedWidth
  split_ifs with h
  · exact word_add_one (by omega)
  · rfl

/-- Learning keeps the run invariant (10_state R26; 42_data_codes R73 to R75). -/
theorem State.RunInv.learn (h : s.RunInv cap) (hcap : cap ≤ 12) {c : Code} (hc : s.Admitted c) :
    (s.learn c cap).RunInv cap := by
  rcases s.learn_cases c cap with ⟨he, -⟩ | ⟨p, hp, hroom, he⟩
  · rwa [he]
  set t := s.learn c cap with ht
  have hclr : t.clr = s.clr := State.clr_congr (State.learn_iw s c cap)
  have hdict : t.dict = Sparse.set s.dict s.next.toNat (s.learnedEntry c p) := by rw [he]
  have hnext : t.next.toNat = s.next.toNat + 1 := by
    rw [he]
    exact State.next_add_one hroom hcap
  have hcw := State.cw_bumped s hcap
  have htcw : t.cw = s.bumpedWidth cap := by rw [he]
  have hpdef := h.defined_prev hp
  have hplt := (h.previous p hp).1
  have hentry : ∀ d, d ≠ s.next.toNat → t.entry d = s.entry d := fun d hd => s.learn_entry_other c cap hd
  have hsize := State.dictSize_le hcap
  have hidx := h.index
  constructor
  · rw [State.learn_iw, htcw, hcw]
    have := h.width
    split_ifs <;> omega
  · rw [hclr, hnext]
    omega
  · intro q hq
    rw [State.learn_prev] at hq
    have := h.previous q hq
    rw [hclr, hnext]
    omega
  · intro d hd
    rw [hclr] at hd
    rw [hdict, Sparse.get?_set_other _ _ (by omega)]
    exact h.literals d hd
  · intro d hlo hhi
    rw [hclr] at hlo
    rw [hnext] at hhi
    by_cases hd : d = s.next.toNat
    · refine ⟨s.learnedEntry c p, p, ?_⟩
      have hlen := h.len_bound hpdef
      have hlen1 : ((s.entry p.toNat).len + 1).toNat = (s.entry p.toNat).len.toNat + 1 := by
        exact word_add_one (by omega)
      constructor
      · rw [hdict, hd, Sparse.get?_set_same]
      · rfl
      · omega
      · rw [hclr]
        exact (h.previous p hp).2
      · rw [hentry _ (by omega)]
        exact hlen1
      · rw [hclr]
        show ((s.entry p.toNat).len + 1).toNat + s.clr ≤ d
        omega
      · rw [hclr]
        show (if c.toNat = s.next.toNat then s.first p else s.first c).toNat < s.clr
        split_ifs with hcn
        · exact h.first_lt hpdef
        · exact h.first_lt (hc.resolve_right fun hx => hcn hx.1)
    · obtain ⟨e, q, hok⟩ := h.learned d hlo (by omega)
      refine ⟨e, q, ?_⟩
      have := hok.below
      constructor
      · rw [hdict, Sparse.get?_set_other _ _ hd]
        exact hok.listed
      · exact hok.link
      · exact hok.below
      · rw [hclr]
        exact hok.notControl
      · rw [hentry _ (by omega)]
        exact hok.longer
      · rw [hclr]
        exact hok.short
      · rw [hclr]
        exact hok.symbol
  · intro d hd
    simp only [State.Defined, hclr, hnext]
    rw [hdict, Sparse.get?_set] at hd
    by_cases hdn : d = s.next.toNat
    · omega
    · rw [if_neg hdn] at hd
      have := h.onlyDefined d hd
      simp only [State.Defined] at this
      omega
  · rw [State.learn_iw, hnext, htcw, hcw]
    have hcov := h.covers
    have hw := h.width
    have hpow : 2 ^ (s.cw.toNat + 1 + 1) = 2 * 2 ^ (s.cw.toNat + 1) := by rw [Nat.pow_succ]; omega
    by_cases hb : 2 ^ (s.cw.toNat + 1) ≤ s.next.toNat + 1 ∧ s.cw.toNat < cap
    · rw [if_pos hb]
      left
      rw [hpow]
      rcases hcov with hcov | hcov | ⟨-, hcw1, hn4⟩
      · omega
      · omega
      · rw [hcw1, hn4]
        decide
    · rw [if_neg hb]
      rcases hcov with hcov | hcov | ⟨hiw, hcw1, hn4⟩
      · by_cases hc2 : s.cw.toNat < cap
        · left
          by_contra hge
          exact hb ⟨by omega, hc2⟩
        · right; left
          omega
      · right; left
        exact hcov
      · right; left
        by_contra hne
        refine hb ⟨?_, by omega⟩
        rw [hcw1, hn4]
        decide
  · simpa [ht] using h.cursors
  · intro j hj
    rw [hclr, State.outElement_congr (State.learn_outBuf s c cap)]
    exact h.symbols j (by simpa [ht] using hj)

/-- After learning, an admitted code names a defined entry (42_data_codes R71, R76), unless the table is full, where no code
equals `next`. -/
theorem State.Admitted.defined_learn {c : Code} (hc : s.Admitted c) (h : s.RunInv cap) (hcap : cap ≤ 12)
    (hsmall : c.toNat < Config.dictSize cap) : (s.learn c cap).Defined c.toNat := by
  have hidx := h.index
  rcases s.learn_cases c cap with ⟨he, hno⟩ | ⟨p, hp, hroom, he⟩
  · rw [he]
    rcases hc with hc | ⟨hcn, hprev⟩
    · exact hc
    · rcases hno with hno | hno
      · exact absurd hno hprev
      · omega
  · simp only [State.Defined, State.clr_congr (State.learn_iw s c cap)]
    have : (s.learn c cap).next.toNat = s.next.toNat + 1 := by
      rw [he]
      exact State.next_add_one hroom hcap
    rw [this]
    rcases hc with hc | ⟨hcn, -⟩
    · simp only [State.Defined] at hc
      omega
    · omega

/-- What was written below `outpos` and the run just written are colour indices. -/
theorem RunWritten.element {base : Nat} {l : List Symbol} {out out' : Memory} (h : RunWritten base l out out')
    {t : State} (ht : t.outBuf = out') {j : Nat} (hj : j < l.length) : t.outElement (base + j) = l[j].setWidth 16 := by
  apply State.outElement_of_read
  · rw [ht]; exact h.low j hj
  · rw [ht]; exact h.high j hj

theorem RunWritten.element_other {base : Nat} {l : List Symbol} {out out' : Memory} (h : RunWritten base l out out')
    {s t : State} (hs : s.outBuf = out) (ht : t.outBuf = out') {j : Nat} (hj : j < base ∨ base + l.length ≤ j) :
    t.outElement j = s.outElement j := by
  apply State.outElement_of_reads
  · rw [ht, hs]; exact h.other _ (by omega)
  · rw [ht, hs]; exact h.other _ (by omega)

/-- The commit keeps the run invariant. -/
theorem State.RunInv.commit (h : s.RunInv cap) {c : Code} (hc : s.Defined c.toNat) {l : List Symbol} {out : Memory} {w : Nat}
    (hl : ∀ x ∈ l, x.toNat < s.clr) (hw : RunWritten s.outpos.toNat l s.outBuf out)
    (hfit : s.outpos.toNat + l.length ≤ s.expLen.toNat) (hbits : s.bitpos.toNat + w ≤ 8 * s.inLen.toNat) :
    (s.commit c l.length out w).RunInv cap := by
  have hclr : (s.commit c l.length out w).clr = s.clr := rfl
  have hentry : ∀ d, (s.commit c l.length out w).entry d = s.entry d := fun d => rfl
  have hout : (s.outpos + BitVec.ofNat 32 l.length).toNat = s.outpos.toNat + l.length := by
    have := s.expLen.isLt
    rw [BitVec.toNat_add, BitVec.toNat_ofNat, Nat.mod_eq_of_lt (a := l.length) (by omega), Nat.mod_eq_of_lt (by omega)]
  have hbit : (s.bitpos + BitVec.ofNat 35 w).toNat = s.bitpos.toNat + w := by
    have := s.inLen.isLt
    rw [BitVec.toNat_add, BitVec.toNat_ofNat, Nat.mod_eq_of_lt (a := w) (by omega), Nat.mod_eq_of_lt (by omega)]
  constructor
  · exact h.width
  · exact h.index
  · intro p hp
    obtain rfl : c = p := by simpa using hp
    rw [hclr, State.commit_next]
    have := h.index
    simp only [State.Defined] at hc
    omega
  · exact h.literals
  · intro d hlo hhi
    obtain ⟨e, q, hok⟩ := h.learned d hlo hhi
    exact ⟨e, q, hok.listed, hok.link, hok.below, hok.notControl, hok.longer, hok.short, hok.symbol⟩
  · exact h.onlyDefined
  · exact h.covers
  · rw [State.commit_outpos, State.commit_expLen, State.commit_bitpos, State.commit_inLen, hout, hbit]
    exact ⟨hfit, hbits⟩
  · intro j hj
    rw [State.commit_outpos, hout] at hj
    rw [hclr]
    by_cases hj' : j < s.outpos.toNat
    · rw [hw.element_other (s := s) rfl rfl (.inl hj')]
      exact h.symbols j hj'
    · obtain ⟨k, rfl⟩ : ∃ k, j = s.outpos.toNat + k := ⟨j - s.outpos.toNat, by omega⟩
      have hk : k < l.length := by omega
      rw [hw.element rfl hk, BitVec.toNat_setWidth]
      exact (Nat.mod_le _ _).trans_lt (hl _ (List.getElem_mem hk))

/-- The table reset gives the run invariant, whatever the dictionary held (41_control_codes R65). -/
theorem State.runInv_resetTable (hiw : 1 ≤ s.iw.toNat) (hiwcap : s.iw.toNat ≤ cap) (hcap : cap ≤ 12)
    (hcur : s.outpos.toNat ≤ s.expLen.toNat ∧ s.bitpos.toNat ≤ 8 * s.inLen.toNat)
    (hsym : ∀ j, j < s.outpos.toNat → (s.outElement j).toNat < s.clr) : s.resetTable.RunInv cap := by
  have hclr : s.resetTable.clr = s.clr := rfl
  have hpow : s.clr ≤ 4096 := by
    have := Nat.pow_le_pow_right (show 0 < 2 by omega) (show s.iw.toNat ≤ 12 by omega)
    simpa [State.clr] using this
  have hpow2 : 2 ^ (s.iw.toNat + 1) = 2 * s.clr := by rw [Nat.pow_succ, State.clr]; omega
  have hcapow : 2 ^ (s.iw.toNat + 1) ≤ Config.dictSize cap := Nat.pow_le_pow_right (by omega) (by omega)
  have htwo : 2 ≤ s.clr := by
    have := Nat.pow_le_pow_right (show 0 < 2 by omega) hiw
    simpa [State.clr] using this
  have hnext : s.resetTable.next.toNat = s.clr + 2 := by
    rw [State.resetTable_next, BitVec.toNat_ofNat, ← State.clr, Nat.mod_eq_of_lt (by omega)]
  have hcw : s.resetTable.cw.toNat = s.iw.toNat := by
    rw [State.resetTable_cw, BitVec.toNat_setWidth, Nat.mod_eq_of_lt (by omega)]
  constructor
  · rw [hcw, State.resetTable_iw]
    omega
  · rw [hclr, hnext]
    omega
  · intro p hp
    cases hp
  · intro c hc
    rw [hclr] at hc
    rw [State.resetTable_dict, Sparse.get?_literalEntries, ← State.clr, if_pos hc]
  · intro c hlo hhi
    rw [hclr] at hlo
    rw [hnext] at hhi
    omega
  · intro c hc
    left
    rw [hclr]
    rw [State.resetTable_dict, Sparse.get?_literalEntries, ← State.clr] at hc
    by_contra hn
    rw [if_neg hn] at hc
    cases hc
  · rw [hnext, hcw, State.resetTable_iw, hpow2]
    by_cases h1 : s.iw.toNat = 1
    · right; right
      refine ⟨h1, h1, ?_⟩
      rw [State.clr, h1]
      rfl
    · left
      have := Nat.pow_le_pow_right (show 0 < 2 by omega) (show 2 ≤ s.iw.toNat by omega)
      rw [State.clr] at *
      omega
  · exact hcur
  · intro j hj
    rw [hclr]
    exact hsym j hj

end Sys2Proof.Machine
end

