-- ==== Sys2Proof/Laws/PerInstr.lean ====
section
/-! SUPPORT. For every instruction: where it encodes to a window access, that word is held by a row of the opcode table that bears its
mnemonic (30_encoding R53, R59). -/

namespace Sys2Proof.Laws.TableRow

def Statement (i : Instr) : Prop :=
  ∀ k w, i.wf = true → encode k i = .access w → ∃ r ∈ hostRows, r.mnemonic = i.mnemonic ∧ r.holds w = true

/-- An instruction that encodes to no window access. -/
theorem of_code {i : Instr} (h : ∀ k w, encode k i ≠ .access w) : Statement i :=
  fun k w _ he => absurd he (h k w)

/-- The direction and the offset of an access. -/
def head (dir k : Nat) : BitVec 9 := BitVec.ofNat 9 (dir * 256 + 4 * k)

theorem accessWord_eq (dir : Nat) (hd : dir < 2) (k : BitVec 6) (d : Word) : accessWord dir k.toNat d.toNat = head dir k.toNat ++ d := by
  apply BitVec.eq_of_toNat_eq
  have hk := k.isLt
  have hdl := d.isLt
  rw [accessWord_toNat hd hk hdl, BitVec.toNat_append, head, BitVec.toNat_ofNat, Nat.mod_eq_of_lt (by omega),
    ← Nat.shiftLeft_add_eq_or_of_lt hdl, Nat.shiftLeft_eq]
  omega

/-- A row holds an access where its upper nine bits hold the direction and the offset and its data bits hold the data. -/
theorem holds_accessWord {m : String} {mask value : AccessWord} {dir : Nat} (hd : dir < 2) (k : BitVec 6) (d : Word)
    (mh vh : BitVec 9) (md vd : Word) (hm : mask = mh ++ md) (hv : value = vh ++ vd) (hh : head dir k.toNat &&& mh = vh)
    (hdata : d &&& md = vd) : TableRow.holds ⟨m, mask, value⟩ (accessWord dir k.toNat d.toNat) = true := by
  rw [TableRow.holds, accessWord_eq dir hd, hm, hv, BitVec.and_append, hh, hdata, beq_self_eq_true]

/-- The row of a read whose mask covers the direction and the offset. -/
theorem of_read {i : Instr} (k : BitVec 6) (he : ∀ c, encode c i = .access (encodeRead k))
    (hr : ⟨i.mnemonic, 0x1FF00000000#41, head 0 k.toNat ++ (0 : Word)⟩ ∈ hostRows) : Statement i := by
  intro c w _ h
  rw [he c] at h
  cases h
  exact ⟨_, hr, rfl, holds_accessWord (by omega) k 0 0x1FF#9 _ 0 0 rfl rfl
    (by rw [show (0x1FF#9) = BitVec.allOnes 9 from rfl, BitVec.and_allOnes]) rfl⟩

/-- The row of a write whose mask covers the direction and the offset. -/
theorem of_write {i : Instr} (k : BitVec 6) (d : Word) (he : ∀ c, encode c i = .access (encodeWrite k d))
    (hr : ⟨i.mnemonic, 0x1FF00000000#41, head 1 k.toNat ++ (0 : Word)⟩ ∈ hostRows) : Statement i := by
  intro c w _ h
  rw [he c] at h
  cases h
  exact ⟨_, hr, rfl, holds_accessWord (by omega) k d 0x1FF#9 _ 0 0 rfl rfl
    (by rw [show (0x1FF#9) = BitVec.allOnes 9 from rfl, BitVec.and_allOnes]) (BitVec.and_zero)⟩

/-- The row of a write to CTRL, by its data bit 0. -/
theorem of_ctrl {i : Instr} (d b : Word) (hb : d &&& 1 = b) (he : ∀ c, encode c i = .access (encodeWrite 0 d))
    (hr : ⟨i.mnemonic, 0x1FF00000001#41, head 1 0 ++ b⟩ ∈ hostRows) : Statement i := by
  intro c w _ h
  rw [← Encoded.access.inj ((he c).symm.trans h)]
  refine ⟨_, hr, rfl, holds_accessWord (by omega) 0 d 0x1FF#9 (head 1 0) 1 b (by decide) rfl ?_ hb⟩
  decide

/-- The three ranges of the reserved offsets (30_encoding R53). -/
theorem head_reserved (dir : Nat) (hd : dir < 2) : ∀ k : BitVec 6, reservedIndex k = true →
    head dir k.toNat &&& 0x1F3#9 = head dir 12 ∨ head dir k.toNat &&& 0x1C3#9 = head dir 16 ∨
      head dir k.toNat &&& 0x183#9 = head dir 32 := by
  interval_cases dir <;> decide

theorem clear : Statement (.clear) := of_code fun _ _ h => nomatch h

theorem endCode : Statement (.endCode) := of_code fun _ _ h => nomatch h

theorem invalid (c : Code) : Statement (.invalid c) := of_code fun _ _ h => nomatch h

theorem literal (c : Code) : Statement (.literal c) := of_code fun _ _ h => nomatch h

theorem kwkwk (c : Code) : Statement (.kwkwk c) := of_code fun _ _ h => nomatch h

theorem known (c : Code) : Statement (.known c) := of_code fun _ _ h => nomatch h

theorem exhaust : Statement (.exhaust) := of_code fun _ _ h => nomatch h

theorem start (r : BitVec 31) : Statement (.start r) := by
  refine of_ctrl _ 1 ?_ (fun _ => rfl) (by simp only [Instr.mnemonic]; decide)
  apply BitVec.eq_of_toNat_eq
  rw [BitVec.toNat_and, BitVec.toNat_ofNat, show (1 : Word).toNat = 1 from rfl, Nat.and_one_is_mod]
  omega

theorem ctrlNop (r : BitVec 31) : Statement (.ctrlNop r) := by
  refine of_ctrl _ 0 ?_ (fun _ => rfl) (by simp only [Instr.mnemonic]; decide)
  apply BitVec.eq_of_toNat_eq
  rw [BitVec.toNat_and, BitVec.toNat_ofNat, show (1 : Word).toNat = 1 from rfl, Nat.and_one_is_mod,
    show (0 : Word).toNat = 0 from rfl]
  omega

theorem readCtrl : Statement (.readCtrl) := of_read 0 (fun _ => rfl) (by decide)

theorem readStatus : Statement (.readStatus) := of_read 1 (fun _ => rfl) (by decide)

theorem writeIw (d : Word) : Statement (.writeIw d) := of_write 2 d (fun _ => rfl) (by simp only [Instr.mnemonic]; decide)

theorem writeInLen (d : Word) : Statement (.writeInLen d) := of_write 3 d (fun _ => rfl) (by simp only [Instr.mnemonic]; decide)

theorem writeExpLen (d : Word) : Statement (.writeExpLen d) := of_write 4 d (fun _ => rfl) (by simp only [Instr.mnemonic]; decide)

theorem readIw : Statement (.readIw) := of_read 2 (fun _ => rfl) (by decide)

theorem readInLen : Statement (.readInLen) := of_read 3 (fun _ => rfl) (by decide)

theorem readExpLen : Statement (.readExpLen) := of_read 4 (fun _ => rfl) (by decide)

theorem readOutCount : Statement (.readOutCount) := of_read 5 (fun _ => rfl) (by decide)

theorem readErrByte : Statement (.readErrByte) := of_read 6 (fun _ => rfl) (by decide)

theorem readNext : Statement (.readNext) := of_read 7 (fun _ => rfl) (by decide)

theorem readPrev : Statement (.readPrev) := of_read 8 (fun _ => rfl) (by decide)

theorem readCodeCount : Statement (.readCodeCount) := of_read 9 (fun _ => rfl) (by decide)

theorem readBitposByte : Statement (.readBitposByte) := of_read 10 (fun _ => rfl) (by decide)

theorem readBitposBit : Statement (.readBitposBit) := of_read 11 (fun _ => rfl) (by decide)

theorem writeRo (q : RoReg) (d : Word) : Statement (.writeRo q d) := by
  cases q <;> exact of_write _ d (fun _ => rfl) (by simp only [Instr.mnemonic]; decide)

theorem readRsvd (k : BitVec 6) : Statement (.readRsvd k) := by
  intro c w hk h
  cases h
  rcases head_reserved 0 (by omega) k hk with h | h | h
  · exact ⟨⟨"READ_RSVD", 0x1F300000000#41, 0x03000000000#41⟩, by decide, rfl,
      holds_accessWord (by omega) k 0 0x1F3#9 _ 0 0 rfl rfl h rfl⟩
  · exact ⟨⟨"READ_RSVD", 0x1C300000000#41, 0x04000000000#41⟩, by decide, rfl,
      holds_accessWord (by omega) k 0 0x1C3#9 _ 0 0 rfl rfl h rfl⟩
  · exact ⟨⟨"READ_RSVD", 0x18300000000#41, 0x08000000000#41⟩, by decide, rfl,
      holds_accessWord (by omega) k 0 0x183#9 _ 0 0 rfl rfl h rfl⟩

theorem writeRsvd (k : BitVec 6) (d : Word) : Statement (.writeRsvd k d) := by
  intro c w hk h
  cases h
  rcases head_reserved 1 (by omega) k hk with h | h | h
  · exact ⟨⟨"WRITE_RSVD", 0x1F300000000#41, 0x13000000000#41⟩, by decide, rfl,
      holds_accessWord (by omega) k d 0x1F3#9 _ 0 0 rfl rfl h BitVec.and_zero⟩
  · exact ⟨⟨"WRITE_RSVD", 0x1C300000000#41, 0x14000000000#41⟩, by decide, rfl,
      holds_accessWord (by omega) k d 0x1C3#9 _ 0 0 rfl rfl h BitVec.and_zero⟩
  · exact ⟨⟨"WRITE_RSVD", 0x18300000000#41, 0x18000000000#41⟩, by decide, rfl,
      holds_accessWord (by omega) k d 0x183#9 _ 0 0 rfl rfl h BitVec.and_zero⟩

end Sys2Proof.Laws.TableRow
end

