-- ==== Sys2Proof/Laws/Step.lean ====
section
/-! SUPPORT. What a data code does under the run invariant, and what one step is for each move of the agenda. -/

namespace Sys2Proof.Machine

variable {s : State} {cap : Nat}

/-! ## Data codes -/

/-- Under the run invariant a data code overruns, or it writes the run its code names and commits: the bound check and the walk see the
entry the step has just learned (42_data_codes R76 to R79, R83, R84). -/
theorem State.RunInv.dataCode (h : s.RunInv cap) (hcap : cap ≤ 12) {c : Code} (hc : s.Admitted c)
    (hsmall : c.toNat < Config.dictSize cap) :
    ∃ l, (s.learn c cap).IsRun c l ∧ (∀ x ∈ l, x.toNat < s.clr) ∧
      ((s.expLen.toNat < s.outpos.toNat + l.length ∧ s.dataCode c cap = .next (s.raise .overrun s.bitpos)) ∨
      (s.outpos.toNat + l.length ≤ s.expLen.toNat ∧ ∃ out, RunWritten s.outpos.toNat l s.outBuf out ∧
        s.dataCode c cap = .next ((s.learn c cap).commit c l.length out s.width))) := by
  obtain ⟨l, hl, hx⟩ := (h.learn hcap hc).exists_run c (hc.defined_learn h hcap hsmall)
  refine ⟨l, hl, by simpa [State.clr] using hx, ?_⟩
  have hlen := hl.length_eq
  obtain ⟨out, hexp, hw⟩ := hl.expand s.outpos.toNat chainFuel s.outBuf
    (by rw [hlen]; exact Nat.le_of_lt (BitVec.isLt _))
  rcases s.dataCode_cases c cap with ⟨hlt, hd⟩ | ⟨hle, ⟨hs, -⟩ | ⟨hb, -⟩ | ⟨out', ho, hd⟩⟩
  · exact .inl ⟨by omega, hd⟩
  · rw [hexp] at hs; cases hs
  · rw [hexp] at hb; cases hb
  · rw [hexp] at ho
    cases ho
    exact .inr ⟨by omega, out, hw, by rw [hlen]; exact hd⟩

/-- At the default cap the instructions are those of `exec` (00_scope R5). -/
theorem execAt_default (i : Instr) (s : State) : execAt Config.CW_CAP i s = exec i s := by
  cases i <;> rfl

/-- Every instruction but START and the data codes is the same at every cap. -/
theorem execAt_of_capFree {i : Instr} (hs : ∀ r, i ≠ .start r) (hd : ∀ c, ¬i.isDataCode c) (cap : Nat) (s : State) :
    execAt cap i s = exec i s := by
  cases i
  case start r => exact absurd rfl (hs r)
  case literal c => exact absurd (.inl rfl) (hd c)
  case known c => exact absurd (.inr (.inl rfl)) (hd c)
  case kwkwk c => exact absurd (.inr (.inr rfl)) (hd c)
  all_goals rfl

theorem execAt_of_isDataCode {i : Instr} {c : Code} (hi : i.isDataCode c) (cap : Nat) (s : State) :
    execAt cap i s = s.dataCode c cap := by
  rcases hi with rfl | rfl | rfl <;> rfl

theorem exec_of_isDataCode {i : Instr} {c : Code} (hi : i.isDataCode c) (s : State) :
    exec i s = s.dataCode c Config.CW_CAP := by
  rw [← execAt_default, execAt_of_isDataCode hi]

/-- What the classification admits as a data code (30_encoding R48, 42_data_codes R71). -/
theorem State.admitted_of_wfAt {i : Instr} {c : Code} (hi : i.isDataCode c) (h : i.wfAt s.context = true) :
    s.Admitted c ∧ c.toNat < 2 ^ (s.cw.toNat + 1) := by
  rcases hi with rfl | rfl | rfl
  · simp only [Instr.wfAt, CodeContext.fits, Bool.and_eq_true, decide_eq_true_eq] at h
    exact ⟨.inl (.inl h.1.2), h.1.1.1⟩
  · simp only [Instr.wfAt, CodeContext.fits, Bool.and_eq_true, decide_eq_true_eq] at h
    exact ⟨.inl (.inr ⟨h.1.2, h.2⟩), h.1.1.1⟩
  · simp only [Instr.wfAt, CodeContext.fits, Bool.and_eq_true, decide_eq_true_eq] at h
    refine ⟨.inr ⟨h.1.2, ?_⟩, h.1.1.1.1⟩
    intro hp
    have := h.2
    simp [State.context, hp] at this

/-- A code that is classified as a data code meets the conditions of its row. -/
theorem wfAt_decodeCode (k : CodeContext) (c : Code) (hc : c.toNat < 2 ^ k.width) :
    (decodeCode k (some c)).wfAt k = true := by
  have h13 := c.isLt
  simp only [decodeCode, classify]
  split_ifs with h1 h2 h3 h4 h5
  · simp [Instr.wfAt, CodeContext.fits, ← h1, hc, h13]
  · simp [Instr.wfAt, CodeContext.fits, ← h2, hc, h13]
  · simp [Instr.wfAt, CodeContext.fits, h1, h2, h3, hc, h13]
  · simp [Instr.wfAt, CodeContext.fits, h3, h4, hc, h13]
  · have hp : k.prev.isSome = true := by
      simp only [CodeContext.namesNoEntry, h5, Nat.lt_irrefl, decide_false, decide_true, Bool.false_or,
        Bool.true_and, Bool.not_eq_true, Option.isNone_eq_false_iff] at h3
      exact h3
    have h6 : k.eoi < c.toNat := by
      simp only [CodeContext.eoi, CodeContext.clr] at *
      omega
    simp [Instr.wfAt, CodeContext.fits, hp, ← h5, hc, h13, h6]
  · have h6 : k.clr + 2 ≤ c.toNat ∧ c.toNat < k.next.toNat := by
      simp only [CodeContext.namesNoEntry, Bool.or_eq_true, decide_eq_true_eq, not_or, not_lt] at h3
      simp only [CodeContext.eoi, CodeContext.clr] at *
      omega
    simp [Instr.wfAt, CodeContext.fits, h6, hc, h13]

/-- The six classes of a code (30_encoding R48). -/
theorem decodeCode_cases (k : CodeContext) (c : Code) :
    decodeCode k (some c) = .clear ∨ decodeCode k (some c) = .endCode ∨ decodeCode k (some c) = .invalid c ∨
      (decodeCode k (some c)).isDataCode c := by
  simp only [decodeCode, classify]
  split_ifs <;> simp [Instr.isDataCode]

/-! ## The fetch -/

theorem State.fetchCode_lt (s : State) (p : Nat) : ∀ n, s.fetchCode p n < 2 ^ n := by
  intro n
  induction n with
  | zero => simp [State.fetchCode]
  | succ n ih =>
    have hb : s.inBit (p + n) < 2 := Nat.mod_lt _ (by omega)
    have : s.inBit (p + n) <<< n ≤ 2 ^ n := by
      rw [Nat.shiftLeft_eq]
      exact (Nat.mul_le_mul_right _ (show s.inBit (p + n) ≤ 1 by omega)).trans (by omega)
    rw [State.fetchCode, Nat.pow_succ]
    omega

/-- A fetched code fits the width, and its bits are all in the buffer (40_unpacker R61, R62). -/
theorem State.fetch_some {c : Code} (h : s.fetch = some c) :
    c.toNat < 2 ^ s.width ∧ s.bitpos.toNat + s.width ≤ 8 * s.inLen.toNat := by
  unfold State.fetch at h
  split_ifs at h with hle
  cases h
  refine ⟨?_, by omega⟩
  rw [BitVec.toNat_ofNat]
  exact (Nat.mod_le _ _).trans_lt (s.fetchCode_lt _ _)

theorem State.fetch_none (h : s.fetch = none) : 8 * s.inLen.toNat < s.bitpos.toNat + s.width := by
  unfold State.fetch at h
  split_ifs at h with hle
  exact hle

theorem State.fetchCode_congr {t : State} (h : t.inBuf = s.inBuf) (p : Nat) : ∀ n, t.fetchCode p n = s.fetchCode p n := by
  intro n
  induction n with
  | zero => rfl
  | succ n ih => rw [State.fetchCode, State.fetchCode, ih, State.inBit, State.inBit, State.inByte_congr h]

theorem State.fetch_congr {t : State} (h : t.inBuf = s.inBuf) (hl : t.inLen = s.inLen) (hb : t.bitpos = s.bitpos)
    (hw : t.cw = s.cw) : t.fetch = s.fetch := by
  unfold State.fetch State.width
  rw [hl, hb, hw, State.fetchCode_congr h]

/-! ## Moves -/

theorem stepAt_engine (h : s.EnginesTurn) (cap : Nat) :
    stepAt cap s = State.engineTurn { s with agenda := s.agenda.tail } cap := by
  rcases h with h | ⟨rest, h⟩
  · obtain ⟨_⟩ := s
    cases h
    rfl
  · simp only [stepAt, State.turn, h, State.perform, List.tail_cons]

/-- An engine's turn in RUN runs the fetched code (40_unpacker R64). -/
theorem stepAt_engine_run (h : s.EnginesTurn) (hr : s.st = .run) (cap : Nat) :
    stepAt cap s = execAt cap (decodeCode s.context s.fetch) { s with agenda := s.agenda.tail } := by
  have hb : State.busy { s with agenda := s.agenda.tail } = true := State.busy_iff.2 hr
  rw [stepAt_engine h, State.engineTurn]
  have hf : State.fetch { s with agenda := s.agenda.tail } = s.fetch := State.fetch_congr rfl rfl rfl rfl
  rw [hf]
  exact if_pos hb

theorem stepAt_move {m : Move} {rest : List Move} (h : s.agenda = m :: rest) (cap : Nat) :
    stepAt cap s = State.perform { s with agenda := rest } m cap := by
  simp only [stepAt, State.turn, h]

theorem step_engine (h : s.EnginesTurn) : step s = State.engineTurn { s with agenda := s.agenda.tail } :=
  stepAt_engine h _

theorem step_engine_run (h : s.EnginesTurn) (hr : s.st = .run) :
    step s = exec (decodeCode s.context s.fetch) { s with agenda := s.agenda.tail } :=
  (stepAt_engine_run h hr _).trans (execAt_default _ _)

theorem step_move {m : Move} {rest : List Move} (h : s.agenda = m :: rest) :
    step s = State.perform { s with agenda := rest } m :=
  stepAt_move h _

/-! ## The invariant does not depend on the model's own fields -/

theorem State.RunInv.of_core {t : State} (h : s.RunInv cap) (hd : t.dict = s.dict) (ho : t.outBuf = s.outBuf)
    (hiw : t.iw = s.iw) (hil : t.inLen = s.inLen) (hel : t.expLen = s.expLen) (hcw : t.cw = s.cw) (hb : t.bitpos = s.bitpos)
    (hn : t.next = s.next) (hp : t.prev = s.prev) (hpos : t.outpos = s.outpos) : t.RunInv cap := by
  have hclr : t.clr = s.clr := State.clr_congr hiw
  have hlisted : ∀ c, s.Defined c → t.entry c = s.entry c := by
    intro c hc
    rcases hc with hc | ⟨hlo, hhi⟩
    · rw [h.literal_entry hc]
      exact State.entry_of_listed (hd ▸ h.literals c hc)
    · obtain ⟨e, p, hok⟩ := h.learned c hlo hhi
      rw [State.entry_of_listed hok.listed]
      exact State.entry_of_listed (hd ▸ hok.listed)
  constructor
  · rw [hiw, hcw]; exact h.width
  · rw [hclr, hn]; exact h.index
  · rw [hclr, hn, hp]; exact h.previous
  · rw [hclr, hd]; exact h.literals
  · rw [hclr, hn]
    intro c hlo hhi
    obtain ⟨e, p, hok⟩ := h.learned c hlo hhi
    have hpd : s.Defined p.toNat := by
      have := hok.below
      have := hok.notControl
      simp only [State.Defined]
      omega
    refine ⟨e, p, hd ▸ hok.listed, hok.link, hok.below, hclr ▸ hok.notControl, ?_, hclr ▸ hok.short, hclr ▸ hok.symbol⟩
    rw [hlisted _ hpd]
    exact hok.longer
  · rw [hd]
    intro c hc
    have := h.onlyDefined c hc
    simpa only [State.Defined, hclr, hn] using this
  · rw [hn, hcw, hiw]; exact h.covers
  · rw [hpos, hel, hb, hil]; exact h.cursors
  · rw [hpos, hclr]
    intro j hj
    rw [State.outElement_congr ho]
    exact h.symbols j hj

theorem State.RunInv.withAgenda (h : s.RunInv cap) (a : List Move) : State.RunInv { s with agenda := a } cap :=
  h.of_core rfl rfl rfl rfl rfl rfl rfl rfl rfl rfl

/-- What the code step of a run can do (40_unpacker R64): exhaustion, a control code, an invalid code, or a data code that overruns or
commits. -/
theorem State.RunInv.code_step (h : s.RunInv cap) (hcap : cap ≤ 12) :
    (s.fetch = none ∧ execAt cap (decodeCode s.context s.fetch) s = execExhaust s) ∨
    ∃ c, s.fetch = some c ∧ c.toNat < 2 ^ s.width ∧ s.bitpos.toNat + s.width ≤ 8 * s.inLen.toNat ∧
      ((decodeCode s.context s.fetch = .clear ∧ execAt cap (decodeCode s.context s.fetch) s = execClear s) ∨
      (decodeCode s.context s.fetch = .endCode ∧ execAt cap (decodeCode s.context s.fetch) s = execEndCode s) ∨
      (decodeCode s.context s.fetch = .invalid c ∧
        execAt cap (decodeCode s.context s.fetch) s = .next (s.raise .invalidCode s.bitpos)) ∨
      ((decodeCode s.context s.fetch).isDataCode c ∧ s.Admitted c ∧
        ∃ l, (s.learn c cap).IsRun c l ∧ (∀ x ∈ l, x.toNat < s.clr) ∧
        ((s.expLen.toNat < s.outpos.toNat + l.length ∧
          execAt cap (decodeCode s.context s.fetch) s = .next (s.raise .overrun s.bitpos)) ∨
        (s.outpos.toNat + l.length ≤ s.expLen.toNat ∧ ∃ out, RunWritten s.outpos.toNat l s.outBuf out ∧
          execAt cap (decodeCode s.context s.fetch) s =
            .next ((s.learn c cap).commit c l.length out s.width))))) := by
  cases hf : s.fetch with
  | none => exact .inl ⟨rfl, rfl⟩
  | some c =>
    obtain ⟨hw, hb⟩ := State.fetch_some hf
    refine .inr ⟨c, rfl, hw, hb, ?_⟩
    rcases decodeCode_cases s.context c with hd | hd | hd | hd
    · exact .inl ⟨hd, by rw [hd]; rfl⟩
    · exact .inr (.inl ⟨hd, by rw [hd]; rfl⟩)
    · exact .inr (.inr (.inl ⟨hd, by rw [hd]; rfl⟩))
    · obtain ⟨hc, hlt⟩ := State.admitted_of_wfAt hd (wfAt_decodeCode s.context c hw)
      have hsmall : c.toNat < Config.dictSize cap :=
        hlt.trans_le (Nat.pow_le_pow_right (by omega) (by have := h.width.2.2; omega))
      refine .inr (.inr (.inr ⟨hd, hc, ?_⟩))
      rw [execAt_of_isDataCode hd]
      exact h.dataCode hcap hc hsmall

end Sys2Proof.Machine
end

