-- ==== Sys2Proof/Tests/Slice0.lean ====
section
/-! SUPPORT. Tests: ill-formed terms refused, words written out from the spec's encodings, single steps of the vectors of
95_test_vectors, and a state that meets the hypotheses of each obligation. Expected values are the spec's. -/

namespace Sys2Proof.Tests

open Sys2Proof.Machine

/-! ## Well-formedness: an ill-formed term for each check -/

/-- A symbol has 12 bits (00_scope R5). -/
theorem test_wf_literal : Instr.wf (.literal 0x1000) = false := by decide

/-- Reserved offsets begin at 0x30 (30_encoding R53). -/
theorem test_wf_readRsvd : Instr.wf (.readRsvd 11) = false := by decide

theorem test_wf_writeRsvd : Instr.wf (.writeRsvd 0 5) = false := by decide

theorem test_wfAt_readRsvd : (Instr.readRsvd 11).wfAt tableContext = false := by decide

theorem test_wfAt_writeRsvd : (Instr.writeRsvd 4 0).wfAt tableContext = false := by decide

/-- A width too narrow for the clear code `2^IW` (90_conflicts C1). -/
theorem test_wfAt_clear : Instr.clear.wfAt { tableContext with cw := 1 } = false := by decide

theorem test_wfAt_endCode : Instr.endCode.wfAt { tableContext with cw := 1 } = false := by decide

/-- 6 is a learned code, CLR and EOI are reserved, and 16 has more than W = 4 bits. -/
theorem test_wfAt_invalid : ((Instr.invalid 6).wfAt tableContext || (Instr.invalid 4).wfAt { tableContext with next := 3 } ||
    (Instr.invalid 5).wfAt { tableContext with next := 3 } || (Instr.invalid 16).wfAt tableContext) = false := by decide

theorem test_wfAt_literal : ((Instr.literal 4).wfAt tableContext || (Instr.literal 3).wfAt { tableContext with cw := 0 } ||
    (Instr.literal 3).wfAt { tableContext with next := 2 }) = false := by decide

theorem test_wfAt_kwkwk : ((Instr.kwkwk 7).wfAt tableContext || (Instr.kwkwk 8).wfAt { tableContext with prev := none } ||
    (Instr.kwkwk 8).wfAt { tableContext with cw := 2 } || (Instr.kwkwk 5).wfAt { tableContext with next := 5 }) = false := by
  decide

theorem test_wfAt_known : ((Instr.known 5).wfAt tableContext || (Instr.known 8).wfAt tableContext ||
    (Instr.known 7).wfAt { tableContext with cw := 1 }) = false := by decide

/-! ## Decoding: words written out from 30_encoding R48, R53 and R59 -/

/-- `{dir[40], offset[39:32], data[31:0]}` (30_encoding R59). -/
def word (dir : BitVec 1) (offset : BitVec 8) (data : BitVec 32) : AccessWord := dir ++ offset ++ data

theorem test_decode_start : decodeAccess (word 0b1 0b00000000 0xFFFFFFFF) = .ok (.start 0x7FFFFFFF) := by rfl
theorem test_decode_ctrlNop : decodeAccess (word 0b1 0b00000000 0xFFFFFFFE) = .ok (.ctrlNop 0x7FFFFFFF) := by rfl
theorem test_decode_readCtrl : decodeAccess (word 0b0 0b00000000 1) = .ok .readCtrl := by rfl
theorem test_decode_readStatus : decodeAccess (word 0b0 0b00000100 0) = .ok .readStatus := by rfl
theorem test_decode_writeIw : decodeAccess (word 0b1 0b00001000 0x10D) = .ok (.writeIw 0x10D) := by rfl
theorem test_decode_writeInLen : decodeAccess (word 0b1 0b00001100 22) = .ok (.writeInLen 22) := by rfl
theorem test_decode_writeExpLen : decodeAccess (word 0b1 0b00010000 100) = .ok (.writeExpLen 100) := by rfl
theorem test_decode_readIw : decodeAccess (word 0b0 0b00001000 0) = .ok .readIw := by rfl
theorem test_decode_readInLen : decodeAccess (word 0b0 0b00001100 0) = .ok .readInLen := by rfl
theorem test_decode_readExpLen : decodeAccess (word 0b0 0b00010000 0) = .ok .readExpLen := by rfl
theorem test_decode_readOutCount : decodeAccess (word 0b0 0b00010100 0) = .ok .readOutCount := by rfl
theorem test_decode_readErrByte : decodeAccess (word 0b0 0b00011000 0) = .ok .readErrByte := by rfl
theorem test_decode_readNext : decodeAccess (word 0b0 0b00011100 0) = .ok .readNext := by rfl
theorem test_decode_readPrev : decodeAccess (word 0b0 0b00100000 0) = .ok .readPrev := by rfl
theorem test_decode_readCodeCount : decodeAccess (word 0b0 0b00100100 0) = .ok .readCodeCount := by rfl
theorem test_decode_readBitposByte : decodeAccess (word 0b0 0b00101000 0) = .ok .readBitposByte := by rfl
theorem test_decode_readBitposBit : decodeAccess (word 0b0 0b00101100 0) = .ok .readBitposBit := by rfl
theorem test_decode_writeRo_first : decodeAccess (word 0b1 0b00000100 0) = .ok (.writeRo .status 0) := by rfl
theorem test_decode_writeRo_last : decodeAccess (word 0b1 0b00101100 9) = .ok (.writeRo .bitposBit 9) := by rfl
theorem test_decode_readRsvd_first : decodeAccess (word 0b0 0b00110000 0) = .ok (.readRsvd 12) := by rfl
theorem test_decode_readRsvd_last : decodeAccess (word 0b0 0b11111100 0) = .ok (.readRsvd 63) := by rfl
theorem test_decode_writeRsvd_first : decodeAccess (word 0b1 0b00110000 7) = .ok (.writeRsvd 12 7) := by rfl
theorem test_decode_writeRsvd_last : decodeAccess (word 0b1 0b11111100 7) = .ok (.writeRsvd 63 7) := by rfl
theorem test_decode_misaligned : decodeAccess (word 0b1 0b00001010 7) = .error (.misaligned 0x0A) := by rfl

/-- The classes at IW = 2, W = 4, next = 8, with a previous code: CLR = 0100, EOI = 0101 (30_encoding R48, R49). -/
theorem test_decode_clear : decodeCode tableContext (some 0b0100) = .clear := by rfl
theorem test_decode_endCode : decodeCode tableContext (some 0b0101) = .endCode := by rfl
theorem test_decode_literal : decodeCode tableContext (some 0b0011) = .literal 3 := by rfl
theorem test_decode_known_first : decodeCode tableContext (some 0b0110) = .known 6 := by rfl
theorem test_decode_known_last : decodeCode tableContext (some 0b0111) = .known 7 := by rfl
theorem test_decode_kwkwk : decodeCode tableContext (some 0b1000) = .kwkwk 8 := by rfl
theorem test_decode_invalid : decodeCode tableContext (some 0b1001) = .invalid 9 := by rfl
theorem test_decode_invalid_without_prev : decodeCode { tableContext with prev := none } (some 0b1000) = .invalid 8 := by rfl
theorem test_decode_exhaust : decodeCode tableContext none = .exhaust := by rfl

/-- A stream bit pattern: `44 01` at W = 3 is 4, 0, 5 (30_encoding R57). -/
theorem test_decode_stream : [0, 3, 6].map (decodeStream { iw := 2, cw := 2, next := 6, prev := none } [0x44, 0x01]) =
    [.clear, .literal 0, .endCode] := by decide

theorem test_decode_stream_exhausted : decodeStream { iw := 2, cw := 2, next := 6, prev := none } [0x44, 0x01] 14 = .exhaust := by
  decide

/-! ## The stream notation (30_encoding R56), on vectors of 95_test_vectors -/

theorem test_assemble_V_C1 : assemble 2 [.clr, .code 0, .fin] = [0x44, 0x01] := by decide

theorem test_assemble_P1 :
    assemble 2 [.clr, .code 0, .code 1, .code 2, .code 3, .code 6, .code 8, .code 6, .fin] = [0x44, 0x34, 0x86, 0x56] := by
  decide

theorem test_assemble_P4 :
    assemble 1 [.clr, .code 0, .code 1, .code 4, .code 1, .code 7, .code 0, .code 9, .code 9, .fin] =
      [0x12, 0x73, 0xC8, 0x1C] := by
  decide

/-- V-D6: the clear read at W = 4 brings the width back to 3. -/
theorem test_assemble_V_D6 : assemble 2 [.clr, .code 0, .code 1, .code 6, .clr, .code 6, .fin] = [0x44, 0x4C, 0x2E] := by decide

/-- V-D12: the width cap as a parameter (00_scope R5). -/
theorem test_assemble_V_D12 :
    assemble 2 [.clr, .code 0, .code 1, .code 6, .code 6, .code 6, .code 3, .code 3, .fin] (cap := 2) =
      [0x44, 0x6C, 0x6F, 0x05] := by
  decide

/-! ## States of the vectors -/

/-- What a function of the next state says, if there is a next state. -/
def ofNext {α : Type} (f : State → α) : Host.Outcome State Fault Refusal → Option α
  | .next t => some (f t)
  | .fault _ => none
  | .refused _ => none

theorem next_of_ofNext {α : Type} {f : State → α} {o : Host.Outcome State Fault Refusal} {x : α} (h : ofNext f o = some x) :
    ∃ t, o = .next t ∧ f t = x := by
  cases o with
  | next t => exact ⟨t, rfl, Option.some.inj h⟩
  | fault r => cases h
  | refused r => cases h

/-- `OUT` with the elements given, all of them below 256. -/
def outOf (l : List Nat) : Memory := (l.zipIdx.map fun p => [(2 * p.2, BitVec.ofNat 8 p.1), (2 * p.2 + 1, 0)]).flatten

/-- Program P1 before its fifth step, at cursor `p`, with `EXP_LEN = e`. -/
def mid (e : BitVec 32) (p : BitOffset) (agenda : List Move) : State :=
  { State.reset with
    iw := 2, inLen := 4, expLen := e, cw := 3, bitpos := p, next := 8, prev := some 2, outpos := 3, codes := 4, st := .run
    dict := [(0, ⟨1, none, 0⟩), (1, ⟨1, none, 1⟩), (2, ⟨1, none, 2⟩), (3, ⟨1, none, 3⟩), (6, ⟨2, some 0, 1⟩),
      (7, ⟨2, some 1, 2⟩)]
    inBuf := [(0, 0x44), (1, 0x34), (2, 0x86), (3, 0x56)]
    outBuf := outOf [0, 1, 2]
    agenda := agenda }

/-- A fresh table at width `w` in RUN (41_control_codes R65), at cursor `p` of the input given. -/
def fresh (w : BitVec 8) (input : List Byte) (e : BitVec 32) (p : BitOffset) : State :=
  { State.reset.resetTable with
    iw := w, inLen := BitVec.ofNat 32 input.length, expLen := e, cw := w.setWidth 4, bitpos := p
    next := BitVec.ofNat 14 (2 ^ w.toNat + 2), prev := none, st := .run
    dict := literalEntries (2 ^ w.toNat)
    inBuf := input.zipIdx.map fun b => (b.2, b.1) }

/-- V-K1 before its third step. -/
def beforeKwkwk : State :=
  { fresh 2 [0x8C, 0x5F] 6 6 with prev := some 1, outpos := 1, codes := 2, outBuf := outOf [1] }

/-- A state whose entry 6 is its own prefix, and whose entry 7 extends it (no run reaches it). -/
def looped : State :=
  { fresh 2 [0x44] 5 0 with
    next := 8
    dict := literalEntries 4 ++ [(6, ⟨2, some 6, 1⟩), (7, ⟨3, some 6, 2⟩)]
    outpos := 2
    outBuf := outOf [0, 1] }

/-- The same with one element too few for the run that entry 7 claims. -/
def loopedShort : State := { looped with expLen := 4 }

/-! ## The unpacker (V-U1, V-U2) -/

theorem test_fetch : [(0, 3), (3, 3), (6, 3), (0, 4), (4, 4), (8, 4), (0, 13)].map
    (fun x => (fresh 2 [0x44, 0x01] 1 0).fetchCode x.1 x.2) = [4, 0, 5, 4, 4, 1, 324] := by decide

theorem test_fetch_three_bytes : (fresh 12 [0x00, 0x30, 0x08, 0x04, 0x40] 1 13).fetch = some 65 := by decide

theorem test_fetch_needs_all_bits : (fresh 2 [0x44, 0x01] 1 14).fetch = none := by decide

/-! ## Control codes -/

/-- V-D6 at bit 12: the clear is read at W = 4. -/
theorem test_clear : ofNext (fun t => (t.cw, t.next, t.prev, t.bitpos, t.codes)) (exec .clear (mid 10 12 [])) =
    some (2, 6, none, 16, 5) := by decide

theorem test_end_done : ofNext (fun t => (t.statusWord, t.bitpos, t.doneO)) (exec .endCode (mid 3 28 [])) =
    some (0x306, 32, true) := by decide

/-- V-C7. -/
theorem test_end_underrun : ofNext (fun t => (t.statusWord, t.bitpos, t.codes))
    (exec .endCode { fresh 2 [0x4C, 0x01] 2 6 with outpos := 1, codes := 2 }) = some (0x6247, 6, 2) := by decide

/-- V-U3. -/
theorem test_exhaust_done : ofNext State.statusWord (exec .exhaust { fresh 2 [0x0C] 1 6 with outpos := 1 }) = some 0x202 := by
  decide

/-- V-C8. -/
theorem test_exhaust_underrun : ofNext State.statusWord (exec .exhaust { fresh 2 [0x0C] 2 6 with outpos := 1 }) =
    some 0x6243 := by decide

/-! ## Data codes -/

/-- V-D5. -/
theorem test_invalid : ofNext (fun t => (t.statusWord, t.next, t.outpos))
    (exec (.invalid 7) { fresh 2 [0xC4, 0x0B] 3 6 with prev := some 0, outpos := 1 }) = some (0x6223, 6, 1) := by decide

/-- P1 at bit 12: learns 8 = (2, 2, 3). -/
theorem test_literal : ofNext (fun t => (t.next, t.prev, t.outpos, Sparse.get? t.dict 8, t.outElement 3))
    (exec (.literal 3) (mid 10 12 [])) = some (9, some 3, 4, some ⟨2, some 2, 3⟩, 3) := by decide

/-- V-D9 at bit 4: at IW = 1 the first learning step widens (42_data_codes R75). -/
theorem test_literal_bump : ofNext (fun t => (t.cw, t.next, t.prev, t.outpos))
    (exec (.literal 1) { fresh 1 [0x12, 0x73] 12 4 with prev := some 0, outpos := 1 }) = some (2, 5, some 1, 2) := by decide

/-- P1's code 6: learns with First(6) = 0 and writes 0 1. -/
theorem test_known : ofNext (fun t => (Sparse.get? t.dict 8, t.outElement 3, t.outElement 4, t.outpos))
    (exec (.known 6) (mid 10 16 [])) = some (some ⟨2, some 2, 0⟩, 0, 1, 5) := by decide

/-- V-D12 at bit 12: at `CW_CAP = 2` the table is full and frozen. -/
theorem test_known_frozen : ofNext (fun t => (t.cw, t.next, t.prev, t.outpos))
    (execKnown 6 { fresh 2 [0x44, 0x6C, 0x6F, 0x05] 10 12 with
      next := 8, prev := some 6, outpos := 4
      dict := literalEntries 4 ++ [(6, ⟨2, some 0, 1⟩), (7, ⟨2, some 1, 0⟩)] } 2) = some (2, 8, some 6, 6) := by decide

/-- V-K1 at bit 6: learns 6 = (2, 1, 1), writes 1 1. -/
theorem test_kwkwk : ofNext (fun t => (t.next, t.prev, Sparse.get? t.dict 6, t.outElement 1, t.outElement 2))
    (exec (.kwkwk 6) beforeKwkwk) = some (7, some 6, some ⟨2, some 1, 1⟩, 1, 1) := by decide

/-- V-D7: the overrun discards the staged entry and `next`. -/
theorem test_kwkwk_overrun : ofNext (fun t => (t.statusWord, t.next, Sparse.get? t.dict 6, Memory.read t.outBuf 2))
    (exec (.kwkwk 6) { beforeKwkwk with expLen := 2 }) = some (0x6233, 6, none, none) := by decide

/-- The self-reference check (42_data_codes R83). -/
theorem test_self_reference : ofNext (fun t => (t.st, t.err, t.errPos, t.outpos)) (exec (.known 7) looped) =
    some (.error, .selfRef, 0, 2) := by decide

/-! ## Host commands -/

/-- V-H3. -/
theorem test_start : ofNext (fun t => (t.statusWord, t.next, t.prevWord, t.outpos)) (exec (.start 0) { State.reset with iw := 2 }) =
    some (0x201, 6, 0x80000000, 0) := by decide

/-- V-H2, with the width 13. -/
theorem test_start_bad_width : ofNext (fun t => (t.statusWord, t.next, t.codes, t.doneO))
    (exec (.start 0) { State.reset with iw := 13 }) = some (0x13, 0, 0, true) := by decide

/-- V-H4: START while RUN. -/
theorem test_start_in_run : ofNext id (exec (.start 0) (mid 10 12 [])) = some (mid 10 12 []) := by decide

theorem test_ctrlNop : ofNext id (exec (.ctrlNop 0x7FFFFFFF) (mid 10 12 [])) = some (mid 10 12 []) := by decide

theorem test_writeIw : ofNext State.iw (exec (.writeIw 0x10D) State.reset) = some 13 := by decide

theorem test_writeInLen : ofNext State.inLen (exec (.writeInLen 0xFFFFFFFF) State.reset) = some 0xFFFFFFFF := by decide

theorem test_writeExpLen : ofNext State.expLen (exec (.writeExpLen 100) State.reset) = some 100 := by decide

/-- V-H4: `EXP_LEN` while RUN. -/
theorem test_writeExpLen_in_run : ofNext State.expLen (exec (.writeExpLen 1) (mid 10 12 [])) = some 10 := by decide

theorem test_writeRo : ofNext id (exec (.writeRo .status 0) (mid 10 12 [])) = some (mid 10 12 []) := by decide

theorem test_writeRsvd : ofNext id (exec (.writeRsvd 12 5) (mid 10 12 [])) = some (mid 10 12 []) := by decide

/-- V-H7: the reads during P1 after its fifth step. -/
theorem test_reads_in_run :
    [.readStatus, .readOutCount, .readNext, .readPrev, .readCodeCount, .readBitposByte, .readBitposBit, .readIw, .readInLen,
      .readExpLen, .readCtrl, .readRsvd 12].map
      (fun i => ofNext State.hostData
        (exec i { mid 10 16 [] with next := 9, prev := some 3, outpos := 4, codes := 5 })) =
      [0x301, 4, 9, 3, 5, 2, 0, 2, 4, 10, 0, 0].map some := by decide

/-- V-Z1: `ERR_BYTE` and `ERR_BIT` of bit 9. -/
theorem test_readErrByte : ofNext (fun t => (t.hostData, t.statusWord))
    (exec .readErrByte { State.reset with st := .error, err := .overrun, errPos := 9, cw := 2 }) = some (1, 0x1233) := by decide

/-- V-H1: every register of the window after reset. -/
theorem test_reads_after_reset : (List.range 64).map (fun k => State.reset.registerValue (BitVec.ofNat 6 k)) =
    (List.range 64).map (fun k => if k = 8 then 0x80000000 else 0) := by decide

/-! ## Steps -/

/-- P1 at bit 12, through the fetch. -/
theorem test_step_engine : ofNext (fun t => (t.prev, t.outpos, t.bitpos, t.codes)) (step (mid 10 12 [])) =
    some (some 3, 4, 16, 5) := by decide

theorem test_step_access : ofNext (fun t => (t.hostData, t.agenda))
    (step (mid 10 12 [.access .word (word 0b0 0b00011100 0), .engine])) = some (8, [.engine]) := by decide

theorem test_step_misaligned : step (mid 10 12 [.access .word (word 0b0 0b00011101 0)]) = .refused (.misaligned 0x1D) := by rfl

theorem test_step_halfword : step (mid 10 12 [.access .half (word 0b0 0b00011100 0)]) = .refused (.accessSize .half) := by rfl

theorem test_step_writeIn_in_run : step (mid 10 12 [.writeIn 0 1]) = .refused .inWriteWhileRun := by rfl

theorem test_step_readOut : ofNext State.hostData (step (mid 10 12 [.readOut 2])) = some 2 := by decide

theorem test_step_hardReset : ofNext (fun t => (t.st, t.next, t.inByte 3, t.outElement 2)) (step (mid 10 12 [.hardReset])) =
    some (.idle, 0, 0x56, 2) := by decide

/-- A row of the opcode table where the next step fetches it: LITERAL, EXHAUST, and a host command. -/
theorem test_withFetchWord_code : ofNext (fun t => (t.prev, t.outpos, t.bitpos))
    (step (({ State.reset with expLen := 1 } : State).withFetchWord 8 3)) = some (some 3, 1, 4) := by decide

theorem test_withFetchWord_exhaust : ofNext State.statusWord (step (State.reset.withFetchWord 0 0)) = some 0x302 := by decide

theorem test_withFetchWord_access : ofNext State.iw (step (State.reset.withFetchWord 48 0x10800000102)) = some 2 := by decide

/-! ## Steps at another width cap (00_scope R5) -/

/-- V-D12 at bit 12, at `CW_CAP = 2`, through the fetch. -/
theorem test_stepAt_frozen : ofNext (fun t => (t.cw, t.next, t.prev, t.outpos, t.bitpos))
    (stepAt 2 { fresh 2 [0x44, 0x6C, 0x6F, 0x05] 10 12 with
      next := 8, prev := some 6, outpos := 4
      dict := literalEntries 4 ++ [(6, ⟨2, some 0, 1⟩), (7, ⟨2, some 1, 0⟩)] }) = some (2, 8, some 6, 6, 15) := by decide

/-- P3 at bit 40, at `CW_CAP = 3`: the entry 15 = (3, 12, 1) fills the table, and the width stays. -/
theorem test_stepAt_P3 : ofNext (fun t => (t.cw, t.next, Sparse.get? t.dict 15, t.outpos))
    (stepAt 3 { fresh 2 [0x44, 0x34, 0x86, 0xC0, 0xCD, 0x11, 0x11, 0x11, 0x71, 0x22, 0x22, 0x22, 0x52] 32 40 with
      cw := 3, next := 15, prev := some 12, outpos := 16
      dict := literalEntries 4 ++ [(12, ⟨2, some 0, 0⟩)] }) = some (3, 16, some ⟨3, some 12, 1⟩, 17) := by decide

/-- The step that makes `next` 4096: 13-bit codes at the default cap, a full table of 12-bit codes at `CW_CAP = 11`
(70_reset_and_hazards R124). -/
theorem test_execAt_4096 : [12, 11].map (fun cap => ofNext (fun t => (t.cw, t.next, t.tableFull cap))
    (execAt cap (.literal 0) { fresh 2 [0, 0, 0] 5 0 with cw := 11, next := 4095, prev := some 1, outpos := 1 })) =
    [some (12, 4096, false), some (11, 4096, true)] := by decide

/-- An initial width above the cap (43_host_commands R87). -/
theorem test_start_above_cap : [12, 11].map (fun cap => ofNext (fun t => (t.st, t.err, t.next))
    (execAt cap (.start 0) { State.reset with iw := 12 })) = [some (.run, .eNone, 4098), some (.error, .badWidth, 0)] := by decide

/-! ## Witnesses: the states above meet the invariants -/

theorem mid_runInv {cap : Nat} (hcap : 3 ≤ cap) {e : BitVec 32} (he : 3 ≤ e.toNat) {p : BitOffset} (hp : p.toNat ≤ 32)
    (a : List Move) : (mid e p a).RunInv cap where
  width := ⟨show 1 ≤ 2 by decide, show 2 ≤ 3 by decide, hcap⟩
  index := ⟨show 4 + 2 ≤ 8 by decide, show 8 ≤ 2 ^ (cap + 1) from
    (show 8 ≤ 2 ^ 4 by decide).trans (Nat.pow_le_pow_right (by decide) (by omega))⟩
  previous := by
    intro q hq
    cases hq
    exact show 2 < 8 ∧ 2 ≠ 4 ∧ 2 ≠ 4 + 1 by decide
  literals := by
    intro c hc
    have : c < 4 := hc
    interval_cases c <;> rfl
  learned := by
    intro c hlo hhi
    have h6 : 6 ≤ c := hlo
    have h8 : c < 8 := hhi
    interval_cases c
    · exact ⟨⟨2, some 0, 1⟩, 0, rfl, rfl, by decide, show 0 ≠ 4 ∧ 0 ≠ 4 + 1 by decide, rfl, show 2 + 4 ≤ 6 by decide,
        show 1 < 4 by decide⟩
    · exact ⟨⟨2, some 1, 2⟩, 1, rfl, rfl, by decide, show 1 ≠ 4 ∧ 1 ≠ 4 + 1 by decide, rfl, show 2 + 4 ≤ 7 by decide,
        show 2 < 4 by decide⟩
  onlyDefined := by
    intro c hc
    by_contra hn
    have h4 : ¬ c < 4 := fun h => hn (.inl h)
    have h68 : ¬ (6 ≤ c ∧ c < 8) := fun h => hn (.inr h)
    simp only [mid, Sparse.get?] at hc
    split_ifs at hc <;> first | omega | cases hc
  covers := .inl (show 8 < 2 ^ (3 + 1) by decide)
  cursors := ⟨he, hp⟩
  symbols := by
    intro j hj
    have : j < 3 := hj
    show (State.outElement (mid 0 0 []) j).toNat < 4
    interval_cases j <;> decide

theorem mid_invAt {cap : Nat} (hcap : 3 ≤ cap) {e : BitVec 32} (he : 3 ≤ e.toNat) {p : BitOffset} (hp : p.toNat ≤ 32)
    (a : List Move) : (mid e p a).Inv cap where
  inForm := rfl
  outForm := rfl
  dictForm := rfl
  error := ⟨fun _ h => (by cases h), fun _ => rfl⟩
  written := by
    intro j hj
    have : j < 3 := hj
    show State.Written (mid 0 0 []) j
    unfold State.Written
    interval_cases j <;> decide
  stop := fun _ => rfl
  run := fun _ => mid_runInv hcap he hp a

theorem mid_inv {e : BitVec 32} (he : 3 ≤ e.toNat) {p : BitOffset} (hp : p.toNat ≤ 32) (a : List Move) : (mid e p a).Inv :=
  mid_invAt (by decide) he hp a

/-- `mid` with the width at the cap 2, where its table of 8 entries is full. -/
def midFull (e : BitVec 32) (p : BitOffset) (agenda : List Move) : State := { mid e p agenda with cw := 2 }

theorem midFull_runInv {e : BitVec 32} (he : 3 ≤ e.toNat) {p : BitOffset} (hp : p.toNat ≤ 32) (a : List Move) :
    (midFull e p a).RunInv 2 := by
  have h := mid_runInv (cap := 3) (by decide) he hp a
  refine ⟨show 1 ≤ 2 ∧ 2 ≤ 2 ∧ 2 ≤ 2 by decide, show 4 + 2 ≤ 8 ∧ 8 ≤ 8 by decide, h.previous, h.literals, ?_, h.onlyDefined,
    .inr (.inl rfl), h.cursors, h.symbols⟩
  intro c hlo hhi
  obtain ⟨d, q, hok⟩ := h.learned c hlo hhi
  exact ⟨d, q, hok.listed, hok.link, hok.below, hok.notControl, hok.longer, hok.short, hok.symbol⟩

theorem midFull_inv {e : BitVec 32} (he : 3 ≤ e.toNat) {p : BitOffset} (hp : p.toNat ≤ 32) (a : List Move) :
    (midFull e p a).Inv 2 := by
  have h := mid_inv he hp a
  exact ⟨h.inForm, h.outForm, h.dictForm, h.error, h.written, h.stop, fun _ => midFull_runInv he hp a⟩

/-- A fresh table at the width cap 1. -/
theorem fresh_runInv_cap_one : (fresh 1 [0x12] 12 0).RunInv 1 :=
  (State.runInv_resetTable (s := fresh 1 [0x12] 12 0) (by decide) (by decide) (by decide) (by decide)
    (fun j hj => absurd hj (Nat.not_lt_zero j))).of_core rfl rfl rfl rfl rfl rfl rfl rfl rfl rfl

/-- The table with every index learned: each learned entry extends the literal 0. -/
def fullTable : State :=
  { mid 10 12 [] with
    cw := 12, next := 8192
    dict := (List.range 4 ++ List.range' 6 8186).map fun c => (c, if c < 4 then ⟨1, none, BitVec.ofNat 12 c⟩ else ⟨2, some 0, 0⟩) }

theorem fullTable_get? (c : Nat) : Sparse.get? fullTable.dict c =
    if c < 4 ∨ (6 ≤ c ∧ c < 8192) then some (if c < 4 then ⟨1, none, BitVec.ofNat 12 c⟩ else ⟨2, some 0, 0⟩) else none := by
  refine (Sparse.get?_map _ _ c).trans (if_congr ?_ rfl rfl)
  rw [List.mem_append, List.mem_range, List.mem_range'_1]

theorem fullTable_runInv : fullTable.RunInv Config.CW_CAP where
  width := by decide
  index := by decide
  previous := by
    intro q hq
    cases hq
    decide
  literals := by
    intro c hc
    have h4 : c < 4 := hc
    rw [fullTable_get?, if_pos (.inl h4), if_pos h4]
  learned := by
    intro c hlo hhi
    have h6 : 6 ≤ c := hlo
    have h8 : c < 8192 := hhi
    have h0 : fullTable.entry 0 = ⟨1, none, 0⟩ := State.entry_of_listed (fullTable_get? 0)
    refine ⟨⟨2, some 0, 0⟩, 0, ?_, rfl, show 0 < c by omega, by decide, ?_, show 2 + 4 ≤ c from h6, by decide⟩
    · rw [fullTable_get?, if_pos (.inr ⟨h6, h8⟩), if_neg (by omega)]
    · show 2 = (fullTable.entry 0).len.toNat + 1
      rw [h0]
      rfl
  onlyDefined := by
    intro c hc
    rw [fullTable_get?] at hc
    split_ifs at hc with h
    · exact h
    · exact h
    · cases hc
  covers := .inr (.inl rfl)
  cursors := by decide
  symbols := (mid_runInv (cap := 12) (by decide) (show 3 ≤ (10 : BitVec 32).toNat by decide)
    (show (12 : BitOffset).toNat ≤ 32 by decide) []).symbols

/-! ## Witnesses for the obligations, in their order -/

/-- Every code class at its boundary codes, and the reserved offsets at both ends. -/
theorem witness_DecodeEncodeRoundTrip :
    [Instr.clear, .endCode, .invalid 9, .invalid 15, .literal 0, .literal 3, .kwkwk 8, .known 6, .known 7, .exhaust, .readRsvd 12,
      .readRsvd 63, .writeRsvd 12 0, .writeRsvd 63 5, .writeRo .status 1].all (fun i => i.wfAt tableContext) = true := by
  decide

theorem witness_HostDecodingFollowsTable : decodeAccess (word 0b1 0b00000000 1) = .ok (.start 0) ∧
    ∃ r ∈ hostRows, r.holds (word 0b1 0b00000000 1) = true :=
  ⟨rfl, ⟨"START", 0x1FF00000001#41, 0x10000000001#41⟩, by decide, by decide⟩

/-- A code for each clause: the last literal, the codes around the reserved ones, the last learned, `next`, and the first invalid; and
`next` where there is no previous code. -/
theorem witness_CodeClassesFollowTable : 8 * (mid 10 29 []).inLen.toNat < (mid 10 29 []).bitpos.toNat + ((mid 10 29 []).cw.toNat + 1) ∧
    [3, 4, 5, 6, 7, 8, 9, 8191].map (fun c => decodeCode tableContext (some c)) =
      [.literal 3, .clear, .endCode, .known 6, .known 7, .kwkwk 8, .invalid 9, .invalid 8191] ∧
    decodeCode { tableContext with prev := none } (some 8) = .invalid 8 := by decide

theorem witness_StreamDecoderAgreesWithFetch : (fresh 2 [0x44, 0x01] 1 3).inLen.toNat = [(0x44 : Byte), 0x01].length ∧
    ∀ i (h : i < [(0x44 : Byte), 0x01].length), (fresh 2 [0x44, 0x01] 1 3).inByte i = [(0x44 : Byte), 0x01][i] := by
  refine ⟨rfl, fun i h => ?_⟩
  have : i < 2 := h
  interval_cases i <;> rfl

theorem witness_AssembledCodesAreFetched : (∀ f ∈ [(3, 4), (3, 0), (3, 5)], f.2 < 2 ^ f.1) ∧
    (∀ i (h : i < (packBits (bitsOfFields [(3, 4), (3, 0), (3, 5)])).length),
      (fresh 2 [0x44, 0x01] 1 3).inByte i = (packBits (bitsOfFields [(3, 4), (3, 0), (3, 5)]))[i]) ∧
    [(3, 4), (3, 0), (3, 5)] = [(3, 4), (3, 0)] ++ (3, 5) :: [] := by
  refine ⟨by decide, fun i h => ?_, rfl⟩
  have : i < 2 := h
  interval_cases i <;> rfl

/-- Both clauses where they meet: the last code that fits, and one bit too few. -/
theorem witness_EngineTurnRunsFetchedCode :
    ((mid 10 28 []).st = .run ∧ (mid 10 28 []).EnginesTurn ∧ (28 : BitOffset).toNat + 4 ≤ 8 * (mid 10 28 []).inLen.toNat ∧
      ∀ i, i < 4 → (5 : Code).getLsbD i = ((mid 10 28 []).inByte ((28 + i) / 8)).getLsbD ((28 + i) % 8)) ∧
    (mid 10 29 [.engine]).EnginesTurn ∧ 8 * (mid 10 29 []).inLen.toNat < (29 : BitOffset).toNat + 4 :=
  ⟨⟨rfl, .inl rfl, by decide, by decide⟩, .inr ⟨[], rfl⟩, by decide⟩

theorem witness_HostAccessRunsDecodedCommand : (mid 10 12 [.access .word (word 0b0 0b00011100 0)]).agenda =
    .access .word (word 0b0 0b00011100 0) :: [] ∧ decodeAccess (word 0b0 0b00011100 0) = .ok .readNext := ⟨rfl, rfl⟩

theorem witness_EngineRestsOutsideRun : State.reset.st ≠ .run ∧ State.reset.EnginesTurn := ⟨by decide, .inl rfl⟩

theorem witness_OnlyAlignedWordsReachTheWindow :
    AccessSize.byte ≠ .word ∧ ((word 0b0 0b00000001 0).extractLsb' 32 8).toNat % 4 ≠ 0 ∧
      ((word 0b0 0b11111111 0).extractLsb' 32 8).toNat % 4 ≠ 0 ∧ ((word 0b0 0b11111100 0).extractLsb' 32 8).toNat % 4 = 0 ∧
      (mid 10 12 [.access .byte (word 0b0 0 0)]).agenda = .access .byte (word 0b0 0 0) :: [] := by decide

theorem witness_InputWritesOnlyOutsideRun : ({ State.reset with agenda := [.writeIn 0xFFFFFFFF 1] } : State).st ≠ .run ∧
    (mid 10 12 [.writeIn 0 1]).st = .run := by decide

/-- The last element written, and the first that is not. -/
theorem witness_OutputReadsReturnElements : (mid 10 12 [.readOut 2]).Inv ∧ (mid 10 12 [.readOut 3]).Inv ∧
    (2 : BitVec 32).toNat < (mid 10 12 []).outpos.toNat ∧ ¬ (3 : BitVec 32).toNat < (mid 10 12 []).outpos.toNat :=
  ⟨mid_inv (by decide) (by decide) _, mid_inv (by decide) (by decide) _, by decide, by decide⟩

theorem witness_HardResetClearsRegisters : (mid 10 12 [.hardReset]).agenda = .hardReset :: [] ∧
    ∃ t, step { mid 10 12 [.access .word (word 0b1 0b00000000 1)] with st := .done } = .next t ∧ t.st = .run :=
  ⟨rfl, next_of_ofNext (by decide)⟩

/-- A step of the engine and one of the host from states that meet the invariant. -/
theorem witness_EveryStepKeepsInv : (mid 10 12 []).Inv ∧ (∃ t, step (mid 10 12 []) = .next t ∧ t.outpos = 4) ∧
    (mid 10 12 [.readOut 2]).Inv ∧ ∃ t, step (mid 10 12 [.readOut 2]) = .next t ∧ t.hostData = 2 :=
  ⟨mid_inv (by decide) (by decide) _, next_of_ofNext (by decide), mid_inv (by decide) (by decide) _, next_of_ofNext (by decide)⟩

theorem witness_ContractStepsNeverStop : (mid 10 12 [.access .word (word 0b0 0b00011100 0)]).Inv ∧
    (mid 10 12 [.access .word (word 0b0 0b00011100 0)]).NextMoveInContract := by
  refine ⟨mid_inv (by decide) (by decide) _, ?_⟩
  intro m rest h
  cases h
  decide

/-- The three classes, at the largest cap, at a cap the width has reached, and at the smallest cap. -/
theorem witness_EveryCapKeepsRunInv :
    (mid 10 12 []).RunInv 12 ∧ (mid 10 28 []).RunInv 3 ∧ (fresh 1 [0x12] 12 0).RunInv 1 ∧
    (3 : Code).toNat < 2 ^ (mid 10 28 []).width ∧ (28 : BitOffset).toNat + (mid 10 28 []).width ≤ 8 * (mid 10 28 []).inLen.toNat ∧
    decodeCode (mid 10 28 []).context (some 3) = .literal 3 ∧ decodeCode (mid 10 28 []).context (some 6) = .known 6 ∧
    decodeCode (mid 10 28 []).context (some 8) = .kwkwk 8 ∧ decodeCode (fresh 1 [0x12] 12 0).context (some 0) = .literal 0 :=
  ⟨mid_runInv (by decide) (by decide) (by decide) _, mid_runInv (by decide) (by decide) (by decide) _, fresh_runInv_cap_one,
    by decide, by decide, rfl, rfl, rfl, rfl⟩

/-- An agenda of engine turns and of accesses the contract allows, one that breaks the contract, and no agenda at the smallest cap
whose table the state fills. -/
theorem witness_RunsTerminate :
    let moves := [.access .word (word 0b0 0b00011100 0), .engine, .readOut 7, .access .word (word 0b1 0b00000000 1)]
    (mid 10 12 moves).Inv 12 ∧ (mid 10 12 moves).st = .run ∧
    (∀ m ∈ (mid 10 12 moves).agenda, m ≠ .hardReset ∧ m.inContract (mid 10 12 moves) = true) ∧
    (mid 10 12 [.engine, .writeIn 0 1]).Inv 12 ∧ (midFull 10 12 []).Inv 2 ∧ (midFull 10 12 []).st = .run :=
  ⟨mid_inv (by decide) (by decide) _, rfl, by decide, mid_inv (by decide) (by decide) _, midFull_inv (by decide) (by decide) _, rfl⟩

/-- The states of an engine's turn, in RUN, with a next state; shared by the obligations about one step of a run. -/
theorem witness_engine_step : (mid 10 12 []).Inv ∧ (mid 10 12 []).st = .run ∧ (mid 10 12 []).EnginesTurn ∧
    ∃ t, step (mid 10 12 []) = .next t ∧ t.st = .run :=
  ⟨mid_inv (by decide) (by decide) _, rfl, .inl rfl, next_of_ofNext (by decide)⟩

theorem witness_UndefinedEntriesAreNeverRead : (mid 10 12 []).Inv ∧ (mid 10 12 []).st = .run ∧ (mid 10 12 []).EnginesTurn ∧
    ∃ t, step (mid 10 12 []) = .next t ∧ t.st = .run := witness_engine_step

/-- After reset, and after another run: the same configuration, input and moves of the host, at a legal width up to the end of the run,
and at an illegal width. -/
theorem witness_RunResultIgnoresThePast :
    let moves := [.access .word (word 0b0 0b00011100 0), .engine, .engine, .readOut 7]
    let a := { State.reset with iw := 2, inLen := 1, expLen := 0, inBuf := [(0, 0x2C)], agenda := moves }
    let b := { mid 0 12 moves with inLen := 1, inBuf := [(0, 0x2C)], st := .done }
    a.st ≠ .run ∧ b.st ≠ .run ∧ a.agenda = b.agenda ∧ a.iw = b.iw ∧ a.inLen = b.inLen ∧ a.expLen = b.expLen ∧
    (∀ i, i < a.inLen.toNat → a.inByte i = b.inByte i) ∧
    (∃ t, exec (.start 0) a = .next t ∧
      (t.st, (t.after 1).map (·.st), (t.after 2).map (·.st), (t.after 3).map (·.st)) =
        (.run, some .run, some .run, some .done)) ∧
    (∃ t, exec (.start 1) b = .next t ∧ t.st = .run) ∧
    ∃ t, exec (.start 0) { a with iw := 0 } = .next t ∧ t.st = .error :=
  ⟨by decide, by decide, rfl, rfl, rfl, rfl, fun _ _ => rfl, next_of_ofNext (by decide), next_of_ofNext (by decide),
    next_of_ofNext (by decide)⟩

theorem witness_OutputStaysInBounds : (mid 10 12 []).Inv ∧ (mid 10 12 []).st = .run ∧ (mid 10 12 []).EnginesTurn ∧
    ∃ t, step (mid 10 12 []) = .next t ∧ t.st = .run := witness_engine_step

/-- An end code and an exhaustion that give DONE. -/
theorem witness_DoneMeansExactLength : (mid 3 28 []).Inv ∧ (mid 3 28 []).st = .run ∧
    (∃ t, step (mid 3 28 []) = .next t ∧ t.st = .done) ∧ (mid 3 29 []).Inv ∧ ∃ t, step (mid 3 29 []) = .next t ∧ t.st = .done :=
  ⟨mid_inv (by decide) (by decide) _, rfl, next_of_ofNext (by decide), mid_inv (by decide) (by decide) _,
    next_of_ofNext (by decide)⟩

theorem witness_ConfigurationIsConstantInRun : (mid 10 12 []).st = .run ∧ (∃ t, step (mid 10 12 []) = .next t ∧ t.iw = 2) ∧
    (mid 10 12 []).agenda.head? ≠ some .hardReset := ⟨rfl, next_of_ofNext (by decide), by decide⟩

theorem witness_StoppedBlockHolds :
    let s := { mid 3 28 [.access .word (word 0b1 0b00001000 5)] with st := .done }
    s.st ≠ .run ∧ (∃ t, step s = .next t ∧ t.iw = 5) ∧ s.agenda.head? ≠ some .hardReset ∧
      ∀ r, s.nextCommand ≠ some (.start r) :=
  ⟨by decide, next_of_ofNext (by decide), by decide, fun r h => (by cases h)⟩

theorem witness_CompletionLevelHolds :
    let s := { mid 3 28 [.access .word (word 0b1 0b00000100 0)] with st := .error, err := .underrun }
    s.doneO = true ∧ (∃ t, step s = .next t ∧ t.err = .underrun) ∧ s.agenda.head? ≠ some .hardReset ∧
      ∀ r, s.nextCommand ≠ some (.start r) :=
  ⟨by decide, next_of_ofNext (by decide), by decide, fun r h => (by cases h)⟩

theorem witness_OnlyStartEntersRun :
    let s := { State.reset with iw := 12, agenda := [.access .word (word 0b1 0b00000000 1)] }
    s.st ≠ .run ∧ ∃ t, step s = .next t ∧ t.st = .run := by
  refine ⟨by decide, _, rfl, rfl⟩

/-- A step that completes, one that fails, and an exhaustion. -/
theorem witness_CursorAdvancesByWidth : (mid 10 12 []).Inv ∧ (mid 10 12 []).fetch ≠ none ∧
    (∃ t, step (mid 10 12 []) = .next t ∧ t.st = .run) ∧ (mid 3 12 []).Inv ∧ (∃ t, step (mid 3 12 []) = .next t ∧ t.st = .error) ∧
    (mid 10 29 []).Inv ∧ (mid 10 29 []).fetch = none ∧ ∃ t, step (mid 10 29 []) = .next t ∧ t.st = .error :=
  ⟨mid_inv (by decide) (by decide) _, by decide, next_of_ofNext (by decide), mid_inv (by decide) (by decide) _,
    next_of_ofNext (by decide), mid_inv (by decide) (by decide) _, by decide, next_of_ofNext (by decide)⟩

theorem witness_WidthFollowsTheTable : (mid 10 12 []).Inv ∧ 2 ^ (mid 10 12 []).cw.toNat ≤ (mid 10 12 []).next.toNat ∧
    ∃ t, step (mid 10 12 []) = .next t ∧ t.st = .run :=
  ⟨mid_inv (by decide) (by decide) _, by decide, next_of_ofNext (by decide)⟩

/-- The last literal, the first and the last learned code, at the cap 12 and at the smallest cap. -/
theorem witness_SequencesMatchTheirEntries : (mid 10 12 []).RunInv 12 ∧ (mid 10 12 []).Defined (3 : Code).toNat ∧
    (mid 10 12 []).Defined (6 : Code).toNat ∧ (mid 10 12 []).Defined (7 : Code).toNat ∧ (fresh 1 [0x12] 12 0).RunInv 1 ∧
    (fresh 1 [0x12] 12 0).Defined (1 : Code).toNat :=
  ⟨mid_runInv (by decide) (by decide) (by decide) _, .inl (by decide), .inr (by decide), .inr (by decide), fresh_runInv_cap_one,
    .inl (by decide)⟩

/-- The widths on both sides of each bound, and a START in RUN. -/
theorem witness_StartFollowsItsRule : (mid 10 12 []).st = .run ∧ State.reset.st ≠ .run ∧ State.reset.iw.toNat < 1 ∧
    12 < (13 : BitVec 8).toNat ∧ 1 ≤ (1 : BitVec 8).toNat ∧ (12 : BitVec 8).toNat ≤ 12 := by decide

theorem witness_ConfigurationWritesTakeEffect : State.reset.st ≠ .run := by decide

/-- CTRL with bit 0 = 0, STATUS, the first and last read-only offsets, and the last offset. -/
theorem witness_IneffectiveWritesChangeNothing :
    [word 0b1 0x00 0xFFFFFFFE, word 0b1 0x04 0, word 0b1 0x14 1, word 0b1 0x2C 1, word 0b1 0x30 1, word 0b1 0xFC 1].all
      (fun w => w.getLsbD 40 && decide (w.extractLsb' 32 8 = 0 ∧ w.getLsbD 0 = false ∨ w.extractLsb' 32 8 = 4 ∨
        (0x14 ≤ (w.extractLsb' 32 8).toNat ∧ (w.extractLsb' 32 8).toNat % 4 = 0))) = true := by decide

theorem witness_ReservedReadsReturnZero : (Instr.readRsvd 12).wf = true ∧ (Instr.readRsvd 63).wf = true := by decide

/-- The last clear code that fits the buffer. -/
theorem witness_ClearResetsTable : 1 ≤ (mid 10 28 []).iw.toNat ∧ (mid 10 28 []).iw.toNat ≤ 12 ∧
    (mid 10 28 []).bitpos.toNat + ((mid 10 28 []).cw.toNat + 1) ≤ 8 * (mid 10 28 []).inLen.toNat := by decide

theorem witness_EndStopsRun : (mid 3 28 []).bitpos.toNat + ((mid 3 28 []).cw.toNat + 1) ≤ 8 * (mid 3 28 []).inLen.toNat ∧
    (mid 3 28 []).outpos = (mid 3 28 []).expLen ∧ (mid 4 28 []).outpos ≠ (mid 4 28 []).expLen := by decide

theorem witness_ExhaustStopsRun : (mid 3 29 []).outpos = (mid 3 29 []).expLen ∧ (mid 4 29 []).outpos ≠ (mid 4 29 []).expLen := by
  decide

theorem witness_FullOutputDoesNotStop : (mid 3 12 []).RunInv Config.CW_CAP ∧ (mid 3 12 []).st = .run ∧
    (mid 3 12 []).outpos = (mid 3 12 []).expLen ∧ (Instr.literal 3).isDataCode 3 ∧ (Instr.known 7).isDataCode 7 ∧
    (Instr.kwkwk 8).isDataCode 8 ∧
    [Instr.literal 3, .known 7, .kwkwk 8].all (fun i => i.wfAt (mid 3 12 []).context) = true :=
  ⟨mid_runInv (by decide) (by decide) (by decide) _, rfl, by decide, .inl rfl, .inr (.inl rfl), .inr (.inr rfl), by decide⟩

/-- The first code beyond `next`, `next` without a previous code, and the last code with the table full. -/
theorem witness_InvalidCodeRaises : (9 : Code).toNat ≠ 4 ∧ (9 : Code).toNat ≠ 5 ∧ (mid 10 12 []).next.toNat < (9 : Code).toNat ∧
    (6 : Code).toNat = (fresh 2 [0x74] 1 3).next.toNat ∧ (fresh 2 [0x74] 1 3).prev = none ∧ fullTable.RunInv Config.CW_CAP ∧
    fullTable.next.toNat = Config.dictSize Config.CW_CAP ∧ (8191 : Code).toNat < 2 ^ (fullTable.cw.toNat + 1) :=
  ⟨by decide, by decide, by decide, by decide, rfl, fullTable_runInv, rfl, by decide⟩

/-- The last free element, and the last bits of the buffer. -/
theorem witness_LiteralWritesItsSymbol : (mid 4 28 []).RunInv Config.CW_CAP ∧
    (Instr.literal 3).wfAt (mid 4 28 []).context = true ∧ (mid 4 28 []).outpos.toNat < (mid 4 28 []).expLen.toNat ∧
    (mid 4 28 []).bitpos.toNat + ((mid 4 28 []).cw.toNat + 1) ≤ 8 * (mid 4 28 []).inLen.toNat :=
  ⟨mid_runInv (by decide) (by decide) (by decide) _, by decide, by decide, by decide⟩

theorem mid_isSeq_known (e : BitVec 32) (p : BitOffset) (a : List Move) : (mid e p a).IsSeq 6 [0, 1] :=
  .extend 6 0 [0] rfl (.literal 0 rfl)

theorem mid_isSeq_prev (e : BitVec 32) (p : BitOffset) (a : List Move) : (mid e p a).IsSeq 2 [2] := .literal 2 rfl

theorem witness_KnownExpandsItsSequence : (mid 5 28 []).RunInv Config.CW_CAP ∧ (Instr.known 6).wfAt (mid 5 28 []).context = true ∧
    (mid 5 28 []).IsSeq 6 [0, 1] ∧ (mid 5 28 []).outpos.toNat + [(0 : Symbol), 1].length ≤ (mid 5 28 []).expLen.toNat ∧
    (mid 5 28 []).bitpos.toNat + ((mid 5 28 []).cw.toNat + 1) ≤ 8 * (mid 5 28 []).inLen.toNat :=
  ⟨mid_runInv (by decide) (by decide) (by decide) _, by decide, mid_isSeq_known _ _ _, by decide, by decide⟩

theorem witness_KwkwkExpandsTheNewEntry : (mid 5 28 []).RunInv Config.CW_CAP ∧ (Instr.kwkwk 8).wfAt (mid 5 28 []).context = true ∧
    (mid 5 28 []).prev = some 2 ∧ (mid 5 28 []).IsSeq 2 [2] ∧ [(2 : Symbol)].head? = some 2 ∧
    (mid 5 28 []).outpos.toNat + [(2 : Symbol)].length + 1 ≤ (mid 5 28 []).expLen.toNat ∧
    (mid 5 28 []).bitpos.toNat + ((mid 5 28 []).cw.toNat + 1) ≤ 8 * (mid 5 28 []).inLen.toNat :=
  ⟨mid_runInv (by decide) (by decide) (by decide) _, by decide, rfl, mid_isSeq_prev _ _ _, rfl, by decide, by decide⟩

/-- A step that learns. -/
theorem witness_LearningFollowsItsRule : (mid 10 12 []).RunInv Config.CW_CAP ∧ (mid 10 12 []).st = .run ∧
    (Instr.literal 3).isDataCode 3 ∧ (Instr.literal 3).wfAt (mid 10 12 []).context = true ∧
    (∃ t, exec (.literal 3) (mid 10 12 []) = .next t ∧ t.st = .run) ∧ (mid 10 12 []).prev = some 2 ∧
    (mid 10 12 []).next.toNat < 2 ^ 13 :=
  ⟨mid_runInv (by decide) (by decide) (by decide) _, rfl, .inl rfl, by decide, next_of_ofNext (by decide), rfl, by decide⟩

/-- A step after a reset, which learns nothing. -/
theorem witness_LearningFollowsItsRule_first : (fresh 2 [0x44] 1 3).RunInv Config.CW_CAP ∧ (fresh 2 [0x44] 1 3).st = .run ∧
    (Instr.literal 0).wfAt (fresh 2 [0x44] 1 3).context = true ∧
    (∃ t, exec (.literal 0) (fresh 2 [0x44] 1 3) = .next t ∧ t.st = .run) ∧ (fresh 2 [0x44] 1 3).prev = none :=
  ⟨(State.runInv_resetTable (s := fresh 2 [0x44] 1 3) (by decide) (by decide) (by decide) (by decide)
    (fun j hj => absurd hj (Nat.not_lt_zero j))).of_core rfl rfl rfl rfl rfl rfl rfl rfl rfl rfl, rfl, by decide,
    next_of_ofNext (by decide), rfl⟩

/-- A step with the table full, which learns nothing. -/
theorem witness_LearningFollowsItsRule_full : fullTable.RunInv Config.CW_CAP ∧ fullTable.st = .run ∧
    (Instr.literal 3).wfAt fullTable.context = true ∧ (∃ t, exec (.literal 3) fullTable = .next t ∧ t.st = .run) ∧
    fullTable.next.toNat = 2 ^ 13 := by
  refine ⟨fullTable_runInv, rfl, by decide, ?_, rfl⟩
  have hfull : fullTable.learn 3 Config.CW_CAP = fullTable := State.learn_of_full (by decide)
  have he : fullTable.entry 3 = ⟨1, none, 3⟩ := State.entry_of_listed (fullTable_get? 3)
  rcases fullTable.dataCode_cases 3 Config.CW_CAP with ⟨hlt, -⟩ | ⟨-, ⟨hs, -⟩ | ⟨hb, -⟩ | ⟨out, -, hd⟩⟩
  · rw [hfull, show (3 : Code).toNat = 3 from rfl, he] at hlt
    exact absurd hlt (by decide)
  · rw [hfull, chainFuel, show 2 ^ 13 = 8191 + 1 from rfl, State.expand, show (3 : Code).toNat = 3 from rfl, he] at hs
    cases hs
  · rw [hfull, chainFuel, show 2 ^ 13 = 8191 + 1 from rfl, State.expand, show (3 : Code).toNat = 3 from rfl, he] at hb
    cases hb
  · exact ⟨_, hd, rfl⟩

/-- Each class with one element too few, and outside any run, where the chain leads to an entry that is its own prefix. -/
theorem witness_OverrunDiscardsTheStep : (Instr.known 7).isDataCode 7 ∧
    loopedShort.expLen.toNat < loopedShort.outpos.toNat + ((loopedShort.learn 7 Config.CW_CAP).entry (7 : Code).toNat).len.toNat ∧
    (mid 3 12 []).RunInv Config.CW_CAP ∧ (Instr.literal 3).wfAt (mid 3 12 []).context = true ∧
    (mid 3 12 []).expLen.toNat < (mid 3 12 []).outpos.toNat + 1 ∧ (mid 4 12 []).RunInv Config.CW_CAP ∧
    (Instr.known 6).wfAt (mid 4 12 []).context = true ∧ (mid 4 12 []).IsSeq 6 [0, 1] ∧
    (Instr.kwkwk 8).wfAt (mid 4 12 []).context = true ∧ (mid 4 12 []).prev = some 2 ∧ (mid 4 12 []).IsSeq 2 [2] ∧
    (mid 4 12 []).expLen.toNat < (mid 4 12 []).outpos.toNat + 2 :=
  ⟨.inr (.inl rfl), by decide, mid_runInv (by decide) (by decide) (by decide) _, by decide, by decide, mid_runInv (by decide) (by decide) (by decide) _,
    by decide, mid_isSeq_known _ _ _, by decide, rfl, mid_isSeq_prev _ _ _, by decide⟩

/-- The entry itself, and one that leads to it, with the run that just fits. -/
theorem witness_SelfReferenceRaises : (looped.learn 6 Config.CW_CAP).MeetsSelf 6 ∧ (looped.learn 7 Config.CW_CAP).MeetsSelf 7 ∧
    looped.outpos.toNat + ((looped.learn 6 Config.CW_CAP).entry (6 : Code).toNat).len.toNat ≤ looped.expLen.toNat ∧
    looped.outpos.toNat + ((looped.learn 7 Config.CW_CAP).entry (7 : Code).toNat).len.toNat ≤ looped.expLen.toNat :=
  ⟨.here 6 rfl, .later 7 6 rfl (by decide) (.here 6 rfl), by decide, by decide⟩

/-- An error in a data step, at an end code, and at exhaustion. -/
theorem witness_ErrorsArePrecise : (mid 3 12 []).Inv ∧ (mid 3 12 []).st = .run ∧ (mid 3 12 []).EnginesTurn ∧
    (∃ t, step (mid 3 12 []) = .next t ∧ t.st = .error) ∧ (mid 4 28 [.engine]).Inv ∧ (mid 4 28 [.engine]).EnginesTurn ∧
    (∃ t, step (mid 4 28 [.engine]) = .next t ∧ t.st = .error) ∧ (mid 4 29 []).Inv ∧
    ∃ t, step (mid 4 29 []) = .next t ∧ t.st = .error :=
  ⟨mid_inv (by decide) (by decide) _, rfl, .inl rfl, next_of_ofNext (by decide), mid_inv (by decide) (by decide) _, .inr ⟨[], rfl⟩,
    next_of_ofNext (by decide), mid_inv (by decide) (by decide) _, next_of_ofNext (by decide)⟩

/-- Each case of the priority: exhaustion, CLEAR (at bit 0 of `44`), END, INVALID (at bit 10, `1011`), and a data code; and an overrun
where the walk would meet an entry that is its own prefix. -/
theorem witness_ErrorPriority : (mid 10 29 []).Inv ∧ (mid 10 29 []).fetch = none ∧ (mid 10 0 []).Inv ∧
    [0, 28, 10, 12].map (fun p => (mid 10 p []).fetch.map fun c => decodeCode (mid 10 p []).context (some c)) =
      [some .clear, some .endCode, some (.invalid 13), some (.literal 3)] ∧
    (∃ t, step (mid 10 0 []) = .next t ∧ t.st = .run) ∧ (Instr.known 7).isDataCode 7 ∧
    (loopedShort.learn 7 Config.CW_CAP).MeetsSelf 7 ∧
    loopedShort.expLen.toNat < loopedShort.outpos.toNat + ((loopedShort.learn 7 Config.CW_CAP).entry (7 : Code).toNat).len.toNat :=
  ⟨mid_inv (by decide) (by decide) _, by decide, mid_inv (by decide) (by decide) _, by decide, next_of_ofNext (by decide),
    .inr (.inl rfl), .later 7 6 rfl (by decide) (.here 6 rfl), by decide⟩

theorem witness_CapIsAnArgument : (∀ r, Instr.clear ≠ .start r) ∧ ∀ c, ¬Instr.clear.isDataCode c := by
  refine ⟨fun r h => (by cases h), fun c h => ?_⟩
  rcases h with h | h | h <;> cases h

theorem witness_EveryCapStepRunsDecoded : (midFull 10 12 []).st = .run ∧ (midFull 10 12 []).EnginesTurn ∧
    (mid 10 12 [.access .word (word 0b0 0b00011100 0)]).agenda = .access .word (word 0b0 0b00011100 0) :: [] ∧
    decodeAccess (word 0b0 0b00011100 0) = .ok .readNext := ⟨rfl, .inl rfl, rfl, rfl⟩

/-- The default cap, a cap at which the table is full, and a step at each. -/
theorem witness_EveryCapStepKeepsInv : (mid 10 12 []).Inv 12 ∧ (∃ t, stepAt 12 (mid 10 12 []) = .next t ∧ t.next = 9) ∧
    (midFull 10 12 []).Inv 2 ∧ (∃ t, stepAt 2 (midFull 10 12 []) = .next t ∧ t.next = 8) ∧ (midFull 10 12 []).NextMoveInContract :=
  ⟨mid_inv (by decide) (by decide) _, next_of_ofNext (by decide), midFull_inv (by decide) (by decide) _, next_of_ofNext (by decide),
    fun m rest h => (by cases h)⟩

/-- The widths on both sides of a cap. -/
theorem witness_StartTestsTheCap : 11 ≤ 12 ∧ ({ State.reset with iw := 12 } : State).st ≠ .run ∧
    11 < ({ State.reset with iw := 12 } : State).iw.toNat ∧ ({ State.reset with iw := 11 } : State).iw.toNat ≤ 11 := by decide

/-- A full table, and one with room, at the cap its width has reached. -/
theorem witness_TableFreezesAtTheCap : (midFull 10 12 []).Inv 2 ∧ (midFull 10 12 []).EnginesTurn ∧
    (midFull 10 12 []).next.toNat = 2 ^ (2 + 1) ∧ decodeCode (midFull 10 12 []).context (midFull 10 12 []).fetch ≠ .clear ∧
    (∃ t, stepAt 2 (midFull 10 12 []) = .next t ∧ t.st = .run) ∧ (mid 10 12 []).Inv 3 ∧ (mid 10 12 []).next.toNat < 2 ^ (3 + 1) ∧
    (mid 10 12 []).prev ≠ none ∧ decodeCode (mid 10 12 []).context (mid 10 12 []).fetch ≠ .clear ∧
    ∃ t, stepAt 3 (mid 10 12 []) = .next t ∧ t.st = .run :=
  ⟨midFull_inv (by decide) (by decide) _, .inl rfl, rfl, by decide, next_of_ofNext (by decide),
    mid_invAt (by decide) (by decide) (by decide) _, by decide, by decide, by decide, next_of_ofNext (by decide)⟩

end Sys2Proof.Tests
end

section
/-! PROOFS. 00_scope: the width cap as an argument of the machine (R2, R5), and that every step at a legal cap keeps the machine
invariant. -/

namespace Sys2Proof.Machine

variable {s : State} {cap : Nat}

/-! ## The table reset and START, for an initial width that the cap admits -/

theorem State.clr_le (hiw : s.iw.toNat ≤ 12) : s.clr ≤ 4096 :=
  Nat.pow_le_pow_right (show 0 < 2 by omega) hiw

theorem State.resetTable_cw_toNat (hiw : s.iw.toNat ≤ 12) : s.resetTable.cw.toNat = s.iw.toNat := by
  rw [State.resetTable_cw, BitVec.toNat_setWidth, Nat.mod_eq_of_lt (by omega)]

theorem State.resetTable_next_toNat (hiw : s.iw.toNat ≤ 12) : s.resetTable.next.toNat = 2 ^ s.iw.toNat + 2 := by
  have hclr : 2 ^ s.iw.toNat ≤ 4096 := State.clr_le hiw
  rw [State.resetTable_next, BitVec.toNat_ofNat, Nat.mod_eq_of_lt (by omega)]

/-- The literal entries after a table reset (41_control_codes R65). -/
theorem State.resetTable_entry (s : State) {v : Nat} (hv : v < 2 ^ s.iw.toNat) :
    s.resetTable.entry v = ⟨1, none, BitVec.ofNat 12 v⟩ :=
  State.entry_of_listed ((Sparse.get?_literalEntries _ v).trans (if_pos hv))

/-- The registers that START clears at any width (43_host_commands R87). -/
def State.cleared (s : State) : State :=
  { s with err := .eNone, errPos := 0, stopEnd := false, bitpos := 0, outpos := 0, codes := 0, prev := none }

theorem execStart_of_run (h : s.st = .run) (r : BitVec 31) (cap : Nat) : execStart r s cap = .next s :=
  if_pos (State.busy_iff.2 h)

theorem execStart_of_badWidth (h : s.st ≠ .run) (hiw : s.iw.toNat < 1 ∨ cap < s.iw.toNat) (r : BitVec 31) :
    execStart r s cap = .next (State.raise { s.cleared with cw := 0, next := 0 } .badWidth 0) := by
  rw [execStart, State.not_busy_iff.2 h, if_neg Bool.false_ne_true]
  exact if_pos hiw

theorem execStart_of_legalWidth (h : s.st ≠ .run) (hlo : 1 ≤ s.iw.toNat) (hhi : s.iw.toNat ≤ cap) (r : BitVec 31) :
    execStart r s cap = .next (State.resetTable { s.cleared with st := .run }) := by
  rw [execStart, State.not_busy_iff.2 h, if_neg Bool.false_ne_true]
  exact if_neg (by omega)

/-- Settles O54: each side of the width test is one equation of `execStart`. -/
theorem startTestsTheCap : Obligations.StartTestsTheCap := by
  intro cap s r hcap hst
  constructor
  · intro hiw
    exact ⟨_, execStart_of_badWidth hst hiw r, rfl⟩
  · intro hlo hhi
    have hiw : s.iw.toNat ≤ 12 := hhi.trans hcap
    exact ⟨_, execStart_of_legalWidth hst hlo hhi r, rfl, State.resetTable_cw_toNat hiw, State.resetTable_next_toNat hiw,
      fun _ hv => State.resetTable_entry _ hv⟩

/-! ## The cap as an argument, and what a step runs -/

/-- Settles O51: the default machine is the one at 12 by definition, and `execAt` differs from `exec` only in the four
instructions that take the cap. -/
theorem capIsAnArgument : Obligations.CapIsAnArgument :=
  ⟨rfl, rfl, fun _ => rfl, fun i s => (execAt_default i s).symm, fun _ _ => rfl,
    fun cap _ s hstart hdata => execAt_of_capFree hstart hdata cap s⟩

theorem stepAt_access {w : AccessWord} {i : Instr} {rest : List Move} (h : s.agenda = .access .word w :: rest)
    (hw : decodeAccess w = .ok i) (cap : Nat) : stepAt cap s = execAt cap i { s with agenda := rest } := by
  rw [stepAt_move h]
  simp only [State.perform, State.windowAccess, hw]

/-- Settles O52: the engine's turn and a window access, each as one step. -/
theorem everyCapStepRunsDecoded : Obligations.EveryCapStepRunsDecoded := fun cap _ =>
  ⟨fun hr ht => stepAt_engine_run ht hr cap, fun _ _ _ ha hw => stepAt_access ha hw cap⟩

/-! ## Data codes keep the run invariant -/

/-- A code that the width can hold is below `DICT_SIZE`. -/
theorem State.RunInv.code_lt_dictSize (h : s.RunInv cap) {c : Code} (hc : c.toNat < 2 ^ s.width) :
    c.toNat < Config.dictSize cap :=
  hc.trans_le (Nat.pow_le_pow_right (by omega) (Nat.succ_le_succ h.width.2.2))

/-- Learning and the commit together keep the run invariant, for the run that the code names after learning. -/
theorem State.RunInv.learn_commit (h : s.RunInv cap) (hcap : cap ≤ 12) {c : Code} (hc : s.Admitted c)
    (hw : c.toNat < 2 ^ s.width) (hb : s.bitpos.toNat + s.width ≤ 8 * s.inLen.toNat) {l : List Symbol} {out : Memory}
    (hl : ∀ x ∈ l, x.toNat < s.clr) (hout : RunWritten s.outpos.toNat l s.outBuf out)
    (hfit : s.outpos.toNat + l.length ≤ s.expLen.toNat) :
    ((s.learn c cap).commit c l.length out s.width).RunInv cap := by
  have hclr : (s.learn c cap).clr = s.clr := State.clr_congr (State.learn_iw s c cap)
  refine (h.learn hcap hc).commit (hc.defined_learn h hcap (h.code_lt_dictSize hw)) (hclr ▸ hl) ?_ ?_ ?_
  · rwa [State.learn_outpos, State.learn_outBuf]
  · rwa [State.learn_outpos, State.learn_expLen]
  · rwa [State.learn_bitpos, State.learn_inLen]

/-- A code of a data class completes and keeps the run invariant, or overruns (42_data_codes R77, R83, R84). -/
theorem State.RunInv.dataCode_keeps (h : s.RunInv cap) (hcap : cap ≤ 12) {c : Code}
    (hi : (decodeCode s.context (some c)).isDataCode c) (hw : c.toNat < 2 ^ s.width)
    (hb : s.bitpos.toNat + s.width ≤ 8 * s.inLen.toNat) :
    ∃ t, s.dataCode c cap = .next t ∧
      ((t.st = s.st ∧ t.err = s.err ∧ t.RunInv cap) ∨ (t.st = .error ∧ t.err = .overrun)) := by
  have hc : s.Admitted c := (State.admitted_of_wfAt hi (wfAt_decodeCode s.context c hw)).1
  obtain ⟨l, -, hl, ⟨-, hover⟩ | ⟨hfit, out, hout, hcommit⟩⟩ := h.dataCode hcap hc (h.code_lt_dictSize hw)
  · exact ⟨_, hover, .inr ⟨rfl, rfl⟩⟩
  · exact ⟨_, hcommit, .inl ⟨by simp, by simp, h.learn_commit hcap hc hw hb hl hout hfit⟩⟩

/-- Settles O18: the three classes run the one procedure DataCode. -/
theorem everyCapKeepsRunInv : Obligations.EveryCapKeepsRunInv := by
  intro cap s c _ hcap h hw hb
  exact ⟨fun hd => h.dataCode_keeps hcap (.inl hd) hw hb, fun hd => h.dataCode_keeps hcap (.inr (.inl hd)) hw hb,
    fun hd => h.dataCode_keeps hcap (.inr (.inr hd)) hw hb⟩

/-! ## The machine invariant where OUT stays as it was -/

theorem State.written_congr {t : State} (h : t.outBuf = s.outBuf) (j : Nat) : t.Written j ↔ s.Written j := by
  simp only [State.Written, h, State.outElement_congr h]

/-- A change that leaves `OUT` alone and does not raise `outpos` keeps the invariant, if it keeps what the invariant says of the
other fields. -/
theorem State.Inv.of_outBuf_eq (h : s.Inv cap) {t : State} (hout : t.outBuf = s.outBuf)
    (hpos : t.outpos.toNat ≤ s.outpos.toNat) (hin : Memory.wf t.inBuf = true) (hdict : Sparse.wf t.dict = true)
    (herr : t.err = .eNone ↔ t.st ≠ .error) (hrun : t.st = .run → t.stopEnd = false ∧ t.RunInv cap) : t.Inv cap where
  inForm := hin
  outForm := hout ▸ h.outForm
  dictForm := hdict
  error := herr
  written j hj := (State.written_congr hout j).2 (h.written j (hj.trans_le hpos))
  stop hr := (hrun hr).1
  run hr := (hrun hr).2

theorem State.Inv.withAgenda (h : s.Inv cap) (a : List Move) : State.Inv { s with agenda := a } cap :=
  h.of_outBuf_eq rfl (Nat.le_refl _) h.inForm h.dictForm h.error fun hr => ⟨h.stop hr, (h.run hr).withAgenda a⟩

theorem State.Inv.reply (h : s.Inv cap) (v : Word) : (s.reply v).Inv cap :=
  h.of_outBuf_eq rfl (Nat.le_refl _) h.inForm h.dictForm h.error fun hr =>
    ⟨h.stop hr, (h.run hr).of_core rfl rfl rfl rfl rfl rfl rfl rfl rfl rfl⟩

theorem State.Inv.hardReset (h : s.Inv cap) : s.hardReset.Inv cap :=
  h.of_outBuf_eq rfl (Nat.zero_le _) h.inForm rfl (by simp) nofun

/-- An error keeps the invariant, and so does an error at an end code, which sets `STOP_END` first. -/
theorem State.Inv.raise (h : s.Inv cap) (stopEnd : Bool) {e : ErrCode} (he : e ≠ .eNone) (pos : BitOffset) :
    (State.raise { s with stopEnd := stopEnd } e pos).Inv cap :=
  h.of_outBuf_eq rfl (Nat.le_refl _) h.inForm h.dictForm (by simpa using he) nofun

theorem State.Inv.done (h : s.Inv cap) (hr : s.st = .run) (stopEnd : Bool) (bitpos : BitOffset) (codes : BitVec 32) :
    State.Inv { s with st := .done, stopEnd := stopEnd, bitpos := bitpos, codes := codes } cap :=
  h.of_outBuf_eq rfl (Nat.le_refl _) h.inForm h.dictForm
    (iff_of_true (h.error.2 (hr ▸ nofun)) nofun) nofun

/-- Outside RUN the host may write the configuration and `IN` (43_host_commands R89, R94). -/
theorem State.Inv.configure (h : s.Inv cap) (hst : s.st ≠ .run) (iw : BitVec 8) (inLen expLen : BitVec 32)
    {inBuf : Memory} (hin : Memory.wf inBuf = true) :
    State.Inv { s with iw := iw, inLen := inLen, expLen := expLen, inBuf := inBuf } cap :=
  h.of_outBuf_eq rfl (Nat.le_refl _) hin h.dictForm h.error fun hr => absurd hr hst

/-! ## START and the codes keep the machine invariant -/

/-- START keeps the invariant: it does nothing, raises an error, or begins a run on the table reset, where nothing is written yet. -/
theorem State.Inv.execStart_next (h : s.Inv cap) (hcap : cap ≤ 12) (r : BitVec 31) :
    ∃ t, execStart r s cap = .next t ∧ t.Inv cap := by
  by_cases hst : s.st = .run
  · exact ⟨s, execStart_of_run hst r cap, h⟩
  · by_cases hiw : s.iw.toNat < 1 ∨ cap < s.iw.toNat
    · exact ⟨_, execStart_of_badWidth hst hiw r,
        h.of_outBuf_eq rfl (Nat.zero_le _) h.inForm h.dictForm (by simp) nofun⟩
    · have hlo : 1 ≤ s.iw.toNat := by omega
      have hhi : s.iw.toNat ≤ cap := by omega
      have hrun : (State.resetTable { s.cleared with st := .run }).RunInv cap :=
        State.runInv_resetTable hlo hhi hcap ⟨Nat.zero_le _, Nat.zero_le _⟩ fun j hj => absurd hj (Nat.not_lt_zero j)
      exact ⟨_, execStart_of_legalWidth hst hlo hhi r, h.of_outBuf_eq rfl (Nat.zero_le _) h.inForm
        (Sparse.wf_literalEntries _) (iff_of_true rfl nofun) fun _ => ⟨rfl, hrun⟩⟩

theorem State.Inv.execExhaust_next (h : s.Inv cap) (hr : s.st = .run) : ∃ t, execExhaust s = .next t ∧ t.Inv cap := by
  by_cases hout : s.outpos = s.expLen
  · exact ⟨_, if_pos hout, h.done hr false _ _⟩
  · exact ⟨_, if_neg hout, h.raise false (by decide) _⟩

theorem State.Inv.execEndCode_next (h : s.Inv cap) (hr : s.st = .run) : ∃ t, execEndCode s = .next t ∧ t.Inv cap := by
  by_cases hout : s.outpos = s.expLen
  · exact ⟨_, if_pos hout, h.done hr true _ _⟩
  · exact ⟨_, if_neg hout, h.raise true (by decide) _⟩

theorem State.advance_bitpos_toNat (s : State) {w : Nat} (hb : s.bitpos.toNat + w ≤ 8 * s.inLen.toNat) :
    (s.advance w).bitpos.toNat = s.bitpos.toNat + w := by
  have := s.inLen.isLt
  rw [State.advance_bitpos, BitVec.toNat_add, BitVec.toNat_ofNat, Nat.mod_eq_of_lt (a := w) (by omega),
    Nat.mod_eq_of_lt (by omega)]

/-- CLEAR keeps the invariant: the table reset gives a run's table, and the cursor stays within the input. -/
theorem State.Inv.execClear_next (h : s.Inv cap) (hr : s.st = .run) (hcap : cap ≤ 12)
    (hb : s.bitpos.toNat + s.width ≤ 8 * s.inLen.toNat) : ∃ t, execClear s = .next t ∧ t.Inv cap := by
  have hrun := h.run hr
  have hreset : (s.advance s.width).resetTable.RunInv cap :=
    State.runInv_resetTable hrun.width.1 (hrun.width.2.1.trans hrun.width.2.2) hcap
      ⟨hrun.cursors.1, (s.advance_bitpos_toNat hb).trans_le hb⟩ hrun.symbols
  exact ⟨(s.advance s.width).resetTable, rfl,
    h.of_outBuf_eq rfl (Nat.le_refl _) h.inForm (Sparse.wf_literalEntries _) h.error fun _ => ⟨h.stop hr, hreset⟩⟩

/-- The elements of a run just written are written, and so are those below it. -/
theorem RunWritten.written {l : List Symbol} {base : Nat} {out : Memory} (hw : RunWritten base l s.outBuf out) {t : State}
    (ht : t.outBuf = out) (hs : ∀ j, j < base → s.Written j) {j : Nat} (hj : j < base + l.length) : t.Written j := by
  by_cases hlow : j < base
  · have hlo : Memory.read out (2 * j) = Memory.read s.outBuf (2 * j) := hw.other _ (by omega)
    have hhi : Memory.read out (2 * j + 1) = Memory.read s.outBuf (2 * j + 1) := hw.other _ (by omega)
    simpa only [State.Written, ht, hlo, hhi, hw.element_other rfl ht (.inl hlow)] using hs j hlow
  · obtain ⟨i, rfl⟩ : ∃ i, j = base + i := ⟨j - base, by omega⟩
    have hi : i < l.length := by omega
    refine ⟨by rw [ht, hw.low i hi]; rfl, by rw [ht, hw.high i hi]; rfl, ?_⟩
    rw [hw.element ht hi, BitVec.toNat_setWidth]
    exact (Nat.mod_le _ _).trans_lt (BitVec.isLt _)

/-- The commit of a data code keeps the invariant. -/
theorem State.Inv.learn_commit (h : s.Inv cap) (hr : s.st = .run) (hcap : cap ≤ 12) {c : Code} (hc : s.Admitted c)
    (hw : c.toNat < 2 ^ s.width) (hb : s.bitpos.toNat + s.width ≤ 8 * s.inLen.toNat) {l : List Symbol} {out : Memory}
    (hl : ∀ x ∈ l, x.toNat < s.clr) (hout : RunWritten s.outpos.toNat l s.outBuf out)
    (hfit : s.outpos.toNat + l.length ≤ s.expLen.toNat) :
    ((s.learn c cap).commit c l.length out s.width).Inv cap where
  inForm := by simpa using h.inForm
  outForm := hout.form h.outForm
  dictForm := State.wf_learn h.dictForm c cap
  error := by simpa using h.error
  written j hj := hout.written rfl h.written (hj.trans_le <| by
    rw [State.commit_outpos, State.learn_outpos, BitVec.toNat_add, BitVec.toNat_ofNat]
    exact (Nat.mod_le _ _).trans (Nat.add_le_add_left (Nat.mod_le _ _) _))
  stop _ := by simpa using h.stop hr
  run _ := (h.run hr).learn_commit hcap hc hw hb hl hout hfit

/-- The code step of a run has a next state and keeps the invariant, whatever the code (40_unpacker R64). -/
theorem State.Inv.code_step_next (h : s.Inv cap) (hr : s.st = .run) (hcap : cap ≤ 12) :
    ∃ t, execAt cap (decodeCode s.context s.fetch) s = .next t ∧ t.Inv cap := by
  rcases (h.run hr).code_step hcap with ⟨-, he⟩ | ⟨c, -, hw, hb, hclass⟩
  · exact he ▸ h.execExhaust_next hr
  rcases hclass with ⟨-, he⟩ | ⟨-, he⟩ | ⟨-, he⟩ | ⟨-, hc, l, -, hl, ⟨-, he⟩ | ⟨hfit, out, hout, he⟩⟩
  · exact he ▸ h.execClear_next hr hcap hb
  · exact he ▸ h.execEndCode_next hr
  · exact ⟨_, he, h.raise s.stopEnd (by decide) _⟩
  · exact ⟨_, he, h.raise s.stopEnd (by decide) _⟩
  · exact ⟨_, he, h.learn_commit hr hcap hc hw hb hl hout hfit⟩

/-! ## Host commands keep the machine invariant -/

/-- A read returns its register and changes nothing else, at any cap (43_host_commands R85, R92). -/
theorem execAt_decodeRead (cap : Nat) (k : BitVec 6) (s : State) :
    execAt cap (decodeRead k) s = .next (s.reply (s.registerValue k)) := by
  unfold decodeRead
  split
  case h_13 => rfl
  all_goals
    rename k.toNat = _ => hk
    rw [State.registerValue, hk]
    rfl

theorem execAt_decodeWrite_of_run (hr : s.st = .run) (cap : Nat) (k : BitVec 6) (d : Word) :
    execAt cap (decodeWrite k d) s = .next s := by
  have hb : s.busy = true := State.busy_iff.2 hr
  unfold decodeWrite
  split
  case h_1 =>
    split_ifs
    · exact execStart_of_run hr (d.extractLsb' 1 31) cap
    · rfl
  case h_3 | h_4 | h_5 => exact if_pos hb
  all_goals rfl

/-- A write outside RUN changes the configuration at most, unless it is START (43_host_commands R86 to R89, R93). -/
theorem execAt_decodeWrite_cases (hst : s.st ≠ .run) (cap : Nat) (k : BitVec 6) (d : Word) :
    (∃ r, decodeWrite k d = .start r) ∨ ∃ iw inLen expLen,
      execAt cap (decodeWrite k d) s = .next { s with iw := iw, inLen := inLen, expLen := expLen } := by
  have hb : ¬s.busy = true := mt State.busy_iff.1 hst
  unfold decodeWrite
  split
  case h_1 =>
    split_ifs
    · exact .inl ⟨_, rfl⟩
    · exact .inr ⟨_, _, _, rfl⟩
  case h_3 | h_4 | h_5 => exact .inr ⟨_, _, _, if_neg hb⟩
  all_goals exact .inr ⟨_, _, _, rfl⟩

/-- A host command decodes to the read or the write of a register (30_encoding R53, R59). -/
theorem decodeAccess_cases {w : AccessWord} {i : Instr} (h : decodeAccess w = .ok i) :
    (∃ k, i = decodeRead k) ∨ ∃ k d, i = decodeWrite k d := by
  obtain ⟨dir, k, d, hdir, rfl⟩ := accessWord_of_aligned ((decodeAccess_ok_iff w).1 ⟨i, h⟩)
  rw [decodeAccess_accessWord hdir] at h
  cases h
  split_ifs
  · exact .inr ⟨k, d, rfl⟩
  · exact .inl ⟨k, rfl⟩

theorem State.Inv.decodeWrite_next (h : s.Inv cap) (hcap : cap ≤ 12) (k : BitVec 6) (d : Word) :
    ∃ t, execAt cap (decodeWrite k d) s = .next t ∧ t.Inv cap := by
  by_cases hst : s.st = .run
  · exact ⟨s, execAt_decodeWrite_of_run hst cap k d, h⟩
  · rcases execAt_decodeWrite_cases hst cap k d with ⟨r, hi⟩ | ⟨iw, inLen, expLen, he⟩
    · exact hi ▸ h.execStart_next hcap r
    · exact ⟨_, he, h.configure hst iw inLen expLen h.inForm⟩

/-- A host command has a next state and keeps the invariant, in RUN and outside it (43_host_commands R85). -/
theorem State.Inv.host_command_next (h : s.Inv cap) (hcap : cap ≤ 12) {w : AccessWord} {i : Instr}
    (hw : decodeAccess w = .ok i) :
    ∃ t, execAt cap i s = .next t ∧ t.Inv cap := by
  rcases decodeAccess_cases hw with ⟨k, rfl⟩ | ⟨k, d, rfl⟩
  · exact ⟨_, execAt_decodeRead cap k s, h.reply _⟩
  · exact h.decodeWrite_next hcap k d

/-! ## Every move keeps the machine invariant -/

theorem State.Inv.engineTurn_next (h : s.Inv cap) (hcap : cap ≤ 12) : ∃ t, s.engineTurn cap = .next t ∧ t.Inv cap := by
  by_cases hr : s.st = .run
  · obtain ⟨t, ht, hinv⟩ := h.code_step_next hr hcap
    exact ⟨t, (if_pos (State.busy_iff.2 hr)).trans ht, hinv⟩
  · exact ⟨s, if_neg (mt State.busy_iff.1 hr), h⟩

/-- An access keeps the invariant, or it is refused as no aligned word access (20_memory R36). -/
theorem State.Inv.windowAccess_next (h : s.Inv cap) (hcap : cap ≤ 12) (size : AccessSize) (w : AccessWord) :
    (∃ t, s.windowAccess size w cap = .next t ∧ t.Inv cap) ∨
      ∃ e, s.windowAccess size w cap = .refused e ∧ (Move.access size w).inContract s = false := by
  cases size with
  | byte => exact .inr ⟨_, rfl, rfl⟩
  | half => exact .inr ⟨_, rfl, rfl⟩
  | word =>
    cases hw : decodeAccess w with
    | ok i =>
      left
      simpa only [State.windowAccess, hw] using h.host_command_next hcap hw
    | error e =>
      have hmis : ¬(w.extractLsb' 32 8).toNat % 4 = 0 := by
        rw [← decodeAccess_ok_iff, hw]
        nofun
      exact .inr ⟨.misaligned (w.extractLsb' 32 8), by simp only [State.windowAccess, hw],
        (Bool.true_and _).trans (decide_eq_false hmis)⟩

/-- A write of `IN` keeps the invariant, or it is refused in RUN (43_host_commands R94). -/
theorem State.Inv.hostWriteIn_next (h : s.Inv cap) (i : BitVec 32) (b : Byte) :
    (∃ t, s.hostWriteIn i b = .next t ∧ t.Inv cap) ∨
      ∃ e, s.hostWriteIn i b = .refused e ∧ (Move.writeIn i b).inContract s = false := by
  by_cases hr : s.st = .run
  · have hb : s.busy = true := State.busy_iff.2 hr
    exact .inr ⟨_, if_pos hb, by simp [Move.inContract, hb]⟩
  · exact .inl ⟨_, if_neg (mt State.busy_iff.1 hr), h.configure hr s.iw s.inLen s.expLen (Memory.wf_write h.inForm _ b)⟩

/-- Every move keeps the invariant, or it is outside the host contract and refused. -/
theorem State.Inv.perform_next (h : s.Inv cap) (hcap : cap ≤ 12) (m : Move) :
    (∃ t, s.perform m cap = .next t ∧ t.Inv cap) ∨ ∃ e, s.perform m cap = .refused e ∧ m.inContract s = false := by
  cases m with
  | engine => exact .inl (h.engineTurn_next hcap)
  | access size w => exact h.windowAccess_next hcap size w
  | writeIn i b => exact h.hostWriteIn_next i b
  | readOut j => exact .inl ⟨_, rfl, h.reply _⟩
  | hardReset => exact .inl ⟨_, rfl, h.hardReset⟩

/-- The host contract asks of the state only whether it is RUN (43_host_commands R94, R97). -/
theorem Move.inContract_congr (m : Move) {t : State} (h : s.st = t.st) : m.inContract s = m.inContract t := by
  cases m <;> simp only [Move.inContract, State.busy, h]

/-- A step keeps the invariant, or its move is outside the host contract and refused. -/
theorem State.Inv.stepAt_next (h : s.Inv cap) (hcap : cap ≤ 12) :
    (∃ t, stepAt cap s = .next t ∧ t.Inv cap) ∨ ∃ e, stepAt cap s = .refused e ∧ ¬s.NextMoveInContract := by
  cases ha : s.agenda with
  | nil =>
    left
    rw [stepAt_engine (.inl ha)]
    exact (h.withAgenda _).engineTurn_next hcap
  | cons m rest =>
    rw [stepAt_move ha]
    rcases (h.withAgenda rest).perform_next hcap m with hnext | ⟨e, he, hm⟩
    · exact .inl hnext
    · refine .inr ⟨e, he, fun hc => ?_⟩
      have hin : m.inContract { s with agenda := rest } = true := (m.inContract_congr rfl).trans (hc m rest ha)
      exact Bool.false_ne_true (hm.symm.trans hin)

/-- Settles O53: by cases on the move, with the code step of a run as the case that needs 10_state R26. -/
theorem everyCapStepKeepsInv : Obligations.EveryCapStepKeepsInv := by
  intro cap s _ hcap h
  rcases h.stepAt_next hcap with ⟨t, ht, hinv⟩ | ⟨e, he, hout⟩
  · refine ⟨fun t' ht' => ?_, fun _ => ⟨t, ht⟩⟩
    cases ht.symm.trans ht'
    exact hinv
  · refine ⟨fun t' ht' => ?_, fun hin => absurd hin hout⟩
    cases he.symm.trans ht'

end Sys2Proof.Machine
end

section
/-! PROOFS. 10_state: the machine invariant at reset and over every step (R26, R27), and that no code step of a run depends on an
undefined dictionary entry (R21). -/

namespace Sys2Proof.Machine

variable {s t : State} {cap : Nat}

/-! ## The machine invariant -/

/-- Settles O16: the block at the default cap is the one of `everyCapStepKeepsInv` at 12, where the cases on the move are. -/
theorem everyStepKeepsInv : Obligations.EveryStepKeepsInv := fun s t h ht =>
  (everyCapStepKeepsInv Config.CW_CAP s (by decide) (by decide) h).1 t ht

/-- Settles O15: the block is idle without an error, and nothing is listed or written. -/
theorem invHoldsAtReset : Obligations.InvHoldsAtReset where
  inForm := rfl
  outForm := rfl
  dictForm := rfl
  error := iff_of_true rfl nofun
  written j hj := absurd hj (Nat.not_lt_zero j)
  stop := nofun
  run := nofun

/-! ## Other values in the undefined entries: what reads the dictionary -/

/-- The same state with other free values in the undefined entries of `DICT` (10_state R21; log 5). -/
def State.withDictFresh (s : State) (n : Nat) : State := { s with dictFresh := n }

theorem State.RunInv.listed (h : s.RunInv cap) {c : Nat} (hc : s.Defined c) : ∃ e, Sparse.get? s.dict c = some e := by
  rcases hc with hlit | ⟨hlo, hhi⟩
  · exact ⟨_, h.literals c hlit⟩
  · obtain ⟨e, p, hok⟩ := h.learned c hlo hhi
    exact ⟨e, hok.listed⟩

theorem State.RunInv.entry_withDictFresh (h : s.RunInv cap) (n : Nat) {c : Nat} (hc : s.Defined c) :
    (s.withDictFresh n).entry c = s.entry c := by
  obtain ⟨e, he⟩ := h.listed hc
  rw [State.entry_of_listed he]
  exact State.entry_of_listed he

theorem State.IsRun.length_le_chainFuel {d : Code} {l : List Symbol} (h : s.IsRun d l) : l.length ≤ chainFuel :=
  h.length_eq.trans_le (Nat.le_of_lt (BitVec.isLt _))

/-- `First` follows a chain of defined entries (42_data_codes R70). -/
theorem State.RunInv.firstOnChain_withDictFresh (h : s.RunInv cap) (n : Nat) : ∀ (fuel : Nat) {d : Code}, s.Defined d.toNat →
    (s.withDictFresh n).firstOnChain fuel d = s.firstOnChain fuel d := by
  intro fuel
  induction fuel with
  | zero => exact fun _ => rfl
  | succ fuel ih =>
    intro d hd
    rw [State.firstOnChain, State.firstOnChain, h.entry_withDictFresh n hd]
    cases hp : (s.entry d.toNat).prefixCode with
    | none => rfl
    | some p =>
      obtain ⟨-, hpdef, -⟩ := h.link hd hp
      exact ih hpdef

/-- The chain of a defined code meets a NONE entry, so `First` is no free value. -/
theorem State.RunInv.first_withDictFresh (h : s.RunInv cap) (n : Nat) {d : Code} (hd : s.Defined d.toNat) :
    (s.withDictFresh n).first d = s.first d := by
  obtain ⟨l, hl, -⟩ := h.exists_run d hd
  have hfirst : s.firstOnChain chainFuel d = some (s.first d) :=
    (hl.firstOnChain _ hl.length_le_chainFuel).trans hl.first
  rw [State.first, h.firstOnChain_withDictFresh n _ hd, hfirst, Option.getD_some]

/-- The expansion walk follows a chain of defined entries (42_data_codes R78). -/
theorem State.RunInv.expand_withDictFresh (h : s.RunInv cap) (n base : Nat) : ∀ (fuel : Nat) {d : Code} (out : Memory),
    s.Defined d.toNat → (s.withDictFresh n).expand base fuel d out = s.expand base fuel d out := by
  intro fuel
  induction fuel with
  | zero => exact fun _ _ => rfl
  | succ fuel ih =>
    intro d out hd
    rw [State.expand, State.expand, h.entry_withDictFresh n hd]
    cases hp : (s.entry d.toNat).prefixCode with
    | none => rfl
    | some p =>
      obtain ⟨-, hpdef, -⟩ := h.link hd hp
      simp only [ih _ hpdef]

/-- The entry learned is made of the entries of the previous code and, unless it is the entry being learned, of the code. -/
theorem State.RunInv.learnedEntry_withDictFresh (h : s.RunInv cap) (n : Nat) {c p : Code} (hc : s.Admitted c)
    (hp : s.prev = some p) : (s.withDictFresh n).learnedEntry c p = s.learnedEntry c p := by
  have hpdef := h.defined_prev hp
  have hsuffix : ((s.withDictFresh n).learnedEntry c p).suffix = (s.learnedEntry c p).suffix := by
    by_cases hcn : c.toNat = s.next.toNat
    · exact (if_pos hcn).trans ((h.first_withDictFresh n hpdef).trans (if_pos hcn).symm)
    · have hcdef : s.Defined c.toNat := hc.resolve_right fun hx => hcn hx.1
      exact (if_neg hcn).trans ((h.first_withDictFresh n hcdef).trans (if_neg hcn).symm)
  have hlen : ((s.withDictFresh n).learnedEntry c p).len = (s.learnedEntry c p).len :=
    congrArg (·.len + 1) (h.entry_withDictFresh n hpdef)
  simpa only [State.learnedEntry, DictEntry.mk.injEq, true_and] using ⟨hlen, hsuffix⟩

theorem State.RunInv.learn_withDictFresh (h : s.RunInv cap) (n : Nat) {c : Code} (hc : s.Admitted c) :
    (s.withDictFresh n).learn c cap = (s.learn c cap).withDictFresh n := by
  cases hp : s.prev with
  | none => rw [State.learn_of_first hp, State.learn_of_first (s := s.withDictFresh n) hp]
  | some p =>
    by_cases hroom : s.next.toNat < Config.dictSize cap
    · rw [State.learn_of_room hp hroom, State.learn_of_room (s := s.withDictFresh n) hp hroom,
        h.learnedEntry_withDictFresh n hc hp]
      rfl
    · have hfull := Nat.le_of_not_lt hroom
      rw [State.learn_of_full hfull, State.learn_of_full (s := s.withDictFresh n) hfull]

/-! ## Other values in the undefined entries: what a code step does -/

theorem State.dataCode_of_overrun {c : Code}
    (hover : s.expLen.toNat < s.outpos.toNat + ((s.learn c cap).entry c.toNat).len.toNat) :
    s.dataCode c cap = .next (s.raise .overrun s.bitpos) :=
  if_pos hover

theorem State.dataCode_of_complete {c : Code} {out : Memory}
    (hfit : s.outpos.toNat + ((s.learn c cap).entry c.toNat).len.toNat ≤ s.expLen.toNat)
    (hout : (s.learn c cap).expand s.outpos.toNat chainFuel c s.outBuf = .complete out) :
    s.dataCode c cap = .next ((s.learn c cap).commit c ((s.learn c cap).entry c.toNat).len.toNat out s.width) := by
  simp only [State.dataCode, hout, if_neg (Nat.not_lt.2 hfit)]

/-- The bound check and the walk see the same after learning, where the code's entry is defined (42_data_codes R76). -/
theorem State.RunInv.dataCode_withDictFresh (h : s.RunInv cap) (hcap : cap ≤ 12) {c : Code} (hc : s.Admitted c)
    (hsmall : c.toNat < Config.dictSize cap) (n : Nat) (ht : s.dataCode c cap = .next t) :
    ∃ m, (s.withDictFresh n).dataCode c cap = .next (t.withDictFresh m) := by
  have hlearned := h.learn hcap hc
  have hdef := hc.defined_learn h hcap hsmall
  have hlearn := h.learn_withDictFresh n hc
  have hentry : ((s.withDictFresh n).learn c cap).entry c.toNat = (s.learn c cap).entry c.toNat :=
    hlearn ▸ hlearned.entry_withDictFresh n hdef
  by_cases hover : s.expLen.toNat < s.outpos.toNat + ((s.learn c cap).entry c.toNat).len.toNat
  · cases (State.dataCode_of_overrun hover).symm.trans ht
    exact ⟨n + 1, State.dataCode_of_overrun (hentry ▸ hover)⟩
  · have hfit := Nat.le_of_not_lt hover
    obtain ⟨l, hl, -⟩ := hlearned.exists_run c hdef
    obtain ⟨out, hout, -⟩ := hl.expand s.outpos.toNat chainFuel s.outBuf hl.length_le_chainFuel
    have hout' : ((s.withDictFresh n).learn c cap).expand s.outpos.toNat chainFuel c s.outBuf = .complete out :=
      hlearn ▸ (hlearned.expand_withDictFresh n _ _ _ hdef).trans hout
    cases (State.dataCode_of_complete hfit hout).symm.trans ht
    refine ⟨n, (State.dataCode_of_complete (hentry ▸ hfit) hout').trans ?_⟩
    rw [hentry, hlearn]
    rfl

theorem execExhaust_withDictFresh (n : Nat) (ht : execExhaust s = .next t) :
    ∃ m, execExhaust (s.withDictFresh n) = .next (t.withDictFresh m) := by
  by_cases hout : s.outpos = s.expLen
  · cases (if_pos hout).symm.trans ht
    exact ⟨_, if_pos hout⟩
  · cases (if_neg hout).symm.trans ht
    exact ⟨_, if_neg hout⟩

theorem execEndCode_withDictFresh (n : Nat) (ht : execEndCode s = .next t) :
    ∃ m, execEndCode (s.withDictFresh n) = .next (t.withDictFresh m) := by
  by_cases hout : s.outpos = s.expLen
  · cases (if_pos hout).symm.trans ht
    exact ⟨_, if_pos hout⟩
  · cases (if_neg hout).symm.trans ht
    exact ⟨_, if_neg hout⟩

/-- The code step of a run gives the same next state, whatever the code (40_unpacker R64). -/
theorem State.RunInv.code_step_withDictFresh (h : s.RunInv cap) (hcap : cap ≤ 12) (n : Nat)
    (ht : execAt cap (decodeCode s.context s.fetch) s = .next t) :
    ∃ m, execAt cap (decodeCode s.context s.fetch) (s.withDictFresh n) = .next (t.withDictFresh m) := by
  rcases h.code_step hcap with ⟨hf, -⟩ | ⟨c, -, hw, -, hclass⟩
  · rw [hf] at ht ⊢
    exact execExhaust_withDictFresh n ht
  rcases hclass with ⟨hd, -⟩ | ⟨hd, -⟩ | ⟨hd, -⟩ | ⟨hd, hc, -⟩
  · rw [hd] at ht ⊢
    cases ht
    exact ⟨n + 1, rfl⟩
  · rw [hd] at ht ⊢
    exact execEndCode_withDictFresh n ht
  · rw [hd] at ht ⊢
    cases ht
    exact ⟨n + 1, rfl⟩
  · rw [execAt_of_isDataCode hd] at ht ⊢
    exact h.dataCode_withDictFresh hcap hc (h.code_lt_dictSize hw) n ht

theorem State.RunInv.engineTurn_withDictFresh (h : s.RunInv cap) (hcap : cap ≤ 12) (hr : s.st = .run) (n : Nat)
    (ht : s.engineTurn cap = .next t) : ∃ m, (s.withDictFresh n).engineTurn cap = .next (t.withDictFresh m) := by
  have hb : s.busy = true := State.busy_iff.2 hr
  have hfetch : (s.withDictFresh n).fetch = s.fetch := State.fetch_congr rfl rfl rfl rfl
  obtain ⟨m, hm⟩ := h.code_step_withDictFresh hcap n ((if_pos hb).symm.trans ht)
  rw [← hfetch] at hm
  exact ⟨m, (if_pos hb).trans hm⟩

/-- Settles O20: the engine's turn in RUN is one code step, which reads defined entries only. -/
theorem undefinedEntriesAreNeverRead : Obligations.UndefinedEntriesAreNeverRead := by
  intro s t n h hr hturn ht
  rw [step_engine hturn] at ht
  rw [step_engine (s := { s with dictFresh := n }) hturn]
  exact ((h.run hr).withAgenda s.agenda.tail).engineTurn_withDictFresh (by decide) hr n ht

end Sys2Proof.Machine
end

section
/-! PROOFS. 20_memory: the bit order of a fetched code (R33), the bound on what an engine step writes to `OUT` (R32), the accesses the
window admits (R36), and the byte order of registers and elements (R34). -/

namespace Sys2Proof.Machine

variable {s t : State} {cap : Nat}

/-! ## The bits of a fetched code -/

theorem State.testBit_zero_inBit (s : State) (k : Nat) : (s.inBit k).testBit 0 = (s.inByte (k / 8)).getLsbD (k % 8) := by
  rw [State.inBit, Nat.shiftRight_eq_div_pow k 3, Nat.testBit_zero, Nat.mod_mod, ← Nat.testBit_zero,
    Nat.testBit_shiftRight, Nat.add_zero, BitVec.getLsbD]

/-- A code of `n + 1` bits is one of `n` bits with one bit above it. -/
theorem State.testBit_fetchCode_succ (s : State) (p n i : Nat) :
    (s.fetchCode p (n + 1)).testBit i =
      if i < n then (s.fetchCode p n).testBit i else (s.inBit (p + n)).testBit (i - n) := by
  rw [State.fetchCode, Nat.shiftLeft_eq, Nat.mul_comm, Nat.add_comm]
  exact Nat.testBit_two_pow_mul_add _ (s.fetchCode_lt p n) i

theorem State.testBit_fetchCode (s : State) (p : Nat) : ∀ W i, i < W →
    (s.fetchCode p W).testBit i = (s.inByte ((p + i) / 8)).getLsbD ((p + i) % 8) := by
  intro W
  induction W with
  | zero => exact fun i hi => absurd hi (Nat.not_lt_zero i)
  | succ n ih =>
    intro i hi
    rw [State.testBit_fetchCode_succ]
    by_cases hlow : i < n
    · rw [if_pos hlow, ih i hlow]
    · obtain rfl : i = n := by omega
      rw [if_neg hlow, Nat.sub_self, State.testBit_zero_inBit]

/-- Settles O4, by induction on the width: each fetched bit goes above the bits before it. -/
theorem fetchTakesLowBitsFirst : Obligations.FetchTakesLowBitsFirst := fun s p W =>
  ⟨s.fetchCode_lt p W, s.testBit_fetchCode p W⟩

/-! ## What a code step writes to OUT -/

/-- `t` has the output of `s` and perhaps more, within `EXP_LEN`: `OUT` differs only from the old count to the new one. -/
structure State.ExtendsOutput (s t : State) : Prop where
  grows : s.outpos.toNat ≤ t.outpos.toNat
  bound : t.outpos.toNat ≤ s.expLen.toNat
  frame : ∀ a, a < 2 * s.outpos.toNat ∨ 2 * t.outpos.toNat ≤ a → t.outByte a = s.outByte a

theorem State.RunInv.extendsOutput_of_eq (h : s.RunInv cap) (hpos : t.outpos = s.outpos) (hout : t.outBuf = s.outBuf) :
    s.ExtendsOutput t where
  grows := by rw [hpos]
  bound := by rw [hpos]; exact h.cursors.1
  frame a _ := State.outByte_congr hout a

theorem execExhaust_output (ht : execExhaust s = .next t) : t.outpos = s.outpos ∧ t.outBuf = s.outBuf := by
  rw [execExhaust] at ht
  split_ifs at ht
  all_goals
    cases ht
    exact ⟨rfl, rfl⟩

theorem execEndCode_output (ht : execEndCode s = .next t) : t.outpos = s.outpos ∧ t.outBuf = s.outBuf := by
  rw [execEndCode] at ht
  split_ifs at ht
  all_goals
    cases ht
    exact ⟨rfl, rfl⟩

/-- The output count does not wrap where the run fits `EXP_LEN` (42_data_codes R77, R79). -/
theorem State.commit_outpos_toNat {n : Nat} (hfit : s.outpos.toNat + n ≤ s.expLen.toNat) (c : Code) (out : Memory) (w : Nat) :
    (s.commit c n out w).outpos.toNat = s.outpos.toNat + n := by
  have := s.expLen.isLt
  rw [State.commit_outpos, BitVec.toNat_add, BitVec.toNat_ofNat, Nat.mod_eq_of_lt (a := n) (by omega),
    Nat.mod_eq_of_lt (by omega)]

/-- A data code that completes writes its run and counts it. -/
theorem RunWritten.extendsOutput {c : Code} {l : List Symbol} {out : Memory} {w : Nat}
    (hout : RunWritten s.outpos.toNat l s.outBuf out) (hfit : s.outpos.toNat + l.length ≤ s.expLen.toNat) :
    s.ExtendsOutput ((s.learn c cap).commit c l.length out w) := by
  have hpos : ((s.learn c cap).commit c l.length out w).outpos.toNat = s.outpos.toNat + l.length := by
    rw [State.commit_outpos_toNat (by rwa [State.learn_outpos, State.learn_expLen]), State.learn_outpos]
  constructor
  · omega
  · omega
  · intro a ha
    exact State.outByte_of_read (hout.other a (hpos ▸ ha))

/-- The code step of a run extends the output, whatever the code (40_unpacker R64). -/
theorem State.RunInv.code_step_extendsOutput (h : s.RunInv cap) (hcap : cap ≤ 12)
    (ht : execAt cap (decodeCode s.context s.fetch) s = .next t) : s.ExtendsOutput t := by
  rcases h.code_step hcap with ⟨-, he⟩ | ⟨c, -, -, -, hclass⟩
  · obtain ⟨hpos, hout⟩ := execExhaust_output (he ▸ ht)
    exact h.extendsOutput_of_eq hpos hout
  rcases hclass with ⟨-, he⟩ | ⟨-, he⟩ | ⟨-, he⟩ | ⟨-, -, l, -, -, ⟨-, he⟩ | ⟨hfit, out, hout, he⟩⟩
  · cases he.symm.trans ht
    exact h.extendsOutput_of_eq rfl rfl
  · obtain ⟨hpos, hout⟩ := execEndCode_output (he ▸ ht)
    exact h.extendsOutput_of_eq hpos hout
  · cases he.symm.trans ht
    exact h.extendsOutput_of_eq rfl rfl
  · cases he.symm.trans ht
    exact h.extendsOutput_of_eq rfl rfl
  · cases he.symm.trans ht
    exact hout.extendsOutput hfit

/-- Settles O22: the engine's turn in RUN is one code step, which extends the output. -/
theorem outputStaysInBounds : Obligations.OutputStaysInBounds := by
  intro s t h hr hturn ht
  have hcode : execAt Config.CW_CAP (decodeCode s.context s.fetch) { s with agenda := s.agenda.tail } = .next t :=
    (stepAt_engine_run hturn hr _).symm.trans ht
  have hfetch : State.fetch { s with agenda := s.agenda.tail } = s.fetch := State.fetch_congr rfl rfl rfl rfl
  rw [← hfetch] at hcode
  obtain ⟨hgrows, hbound, hframe⟩ :=
    ((h.run hr).withAgenda s.agenda.tail).code_step_extendsOutput (by decide) hcode
  exact ⟨hgrows, hbound, hframe⟩

/-! ## The accesses that the window admits -/

theorem State.windowAccess_of_not_word {size : AccessSize} (h : size ≠ .word) (s : State) (w : AccessWord) (cap : Nat) :
    s.windowAccess size w cap = .refused (.accessSize size) := by
  cases size with
  | word => exact absurd rfl h
  | byte | half => rfl

theorem State.windowAccess_of_misaligned {w : AccessWord} (h : (w.extractLsb' 32 8).toNat % 4 ≠ 0) (s : State) (cap : Nat) :
    s.windowAccess .word w cap = .refused (.misaligned (w.extractLsb' 32 8)) := by
  cases hw : decodeAccess w with
  | ok i => exact absurd ((decodeAccess_ok_iff w).1 ⟨i, hw⟩) h
  | error e => simp only [State.windowAccess, hw]

/-- Settles O11, by the size and the offset of the access. -/
theorem onlyAlignedWordsReachTheWindow : Obligations.OnlyAlignedWordsReachTheWindow := by
  intro s size w rest h
  refine ⟨fun hsize => ?_, fun hsize hoff => ?_, fun hsize hoff => ?_⟩
  · exact (step_move h).trans (State.windowAccess_of_not_word hsize _ w _)
  · subst hsize
    exact (step_move h).trans (State.windowAccess_of_misaligned hoff _ _)
  · subst hsize
    obtain ⟨i, hi⟩ := (decodeAccess_ok_iff w).2 hoff
    exact ⟨i, hi, (stepAt_access h hi _).trans (execAt_default i _)⟩

/-! ## Byte order -/

/-- The high-to-low bytes of a word, put together, are the word. -/
theorem Word.of_bytes (v : Word) :
    v.extractLsb' 24 8 ++ v.extractLsb' 16 8 ++ v.extractLsb' 8 8 ++ v.extractLsb' 0 8 = v := by
  rw [BitVec.extractLsb'_append_extractLsb'_eq_extractLsb' (by omega),
    BitVec.extractLsb'_append_extractLsb'_eq_extractLsb' (by omega),
    BitVec.extractLsb'_append_extractLsb'_eq_extractLsb' (by omega)]
  exact BitVec.extractLsb'_eq_self

theorem State.outElement_toNat (s : State) (j : Nat) :
    (s.outElement j).toNat = (s.outByte (2 * j)).toNat + 256 * (s.outByte (2 * j + 1)).toNat := by
  rw [State.outElement, BitVec.toNat_append, ← Nat.shiftLeft_add_eq_or_of_lt (BitVec.isLt _), Nat.shiftLeft_eq]
  omega

/-- Settles O37: a register and an element are each the concatenation of their bytes. -/
theorem bytesAreLittleEndian : Obligations.BytesAreLittleEndian := fun s =>
  ⟨fun k => Word.of_bytes (s.registerValue k), s.outElement_toNat⟩

end Sys2Proof.Machine
end

section
/-! PROOFS. 30_encoding: the class of a code (R48), the host commands and their rows of the opcode table (R53, R59), the packed stream
(R56), and the width schedule (R47). -/

namespace Sys2Proof

variable {k : CodeContext} {c : Code}

/-! ## The rows of the classification -/

theorem CodeContext.namesNoEntry_iff {n : Nat} :
    k.namesNoEntry n = true ↔ k.next.toNat < n ∨ (n = k.next.toNat ∧ k.prev = none) := by
  simp [CodeContext.namesNoEntry]

theorem CodeContext.eoi_eq (k : CodeContext) : k.eoi = k.clr + 1 := rfl

theorem decodeCode_of_clr (h : c.toNat = k.clr) : decodeCode k (some c) = .clear := if_pos h

theorem decodeCode_of_eoi (h : c.toNat = k.eoi) : decodeCode k (some c) = .endCode := by
  have hclr : c.toNat ≠ k.clr := by rw [h, k.eoi_eq]; omega
  exact (if_neg hclr).trans (if_pos h)

theorem decodeCode_of_namesNoEntry (hclr : c.toNat ≠ k.clr) (heoi : c.toNat ≠ k.eoi)
    (hno : k.namesNoEntry c.toNat = true) : decodeCode k (some c) = .invalid c :=
  (if_neg hclr).trans <| (if_neg heoi).trans (if_pos hno)

theorem decodeCode_of_lt_clr (hno : ¬k.namesNoEntry c.toNat = true) (hlt : c.toNat < k.clr) :
    decodeCode k (some c) = .literal c := by
  have heoi : c.toNat ≠ k.eoi := by rw [k.eoi_eq]; omega
  exact (if_neg hlt.ne).trans <| (if_neg heoi).trans <| (if_neg hno).trans (if_pos hlt)

/-- Above the reserved codes the last two rows are left, told apart by `next`. -/
theorem decodeCode_of_eoi_lt (hno : ¬k.namesNoEntry c.toNat = true) (hgt : k.eoi < c.toNat) :
    decodeCode k (some c) = if c.toNat = k.next.toNat then .kwkwk c else .known c := by
  have hclr : k.clr < c.toNat := by rw [k.eoi_eq] at hgt; omega
  exact (if_neg hclr.ne').trans <| (if_neg hgt.ne').trans <| (if_neg hno).trans (if_neg hclr.not_gt)

theorem decodeCode_of_next (hgt : k.eoi < c.toNat) (hnext : c.toNat = k.next.toNat) (hprev : k.prev ≠ none) :
    decodeCode k (some c) = .kwkwk c := by
  have hno : ¬k.namesNoEntry c.toNat = true := by
    rw [CodeContext.namesNoEntry_iff]
    rintro (h | ⟨-, h⟩)
    exacts [h.ne' hnext, hprev h]
  exact (decodeCode_of_eoi_lt hno hgt).trans (if_pos hnext)

theorem decodeCode_of_lt_next (hgt : k.eoi < c.toNat) (hlt : c.toNat < k.next.toNat) :
    decodeCode k (some c) = .known c := by
  have hno : ¬k.namesNoEntry c.toNat = true := by
    rw [CodeContext.namesNoEntry_iff]
    omega
  exact (decodeCode_of_eoi_lt hno hgt).trans (if_neg hlt.ne)

/-! ## Decoding an encoded instruction -/

/-- A code that fits the index space is its own value there (30_encoding R55). -/
theorem CodeContext.toNat_ofNat_of_fits {n : Nat} (h : k.fits n = true) : (BitVec.ofNat 13 n).toNat = n := by
  simp only [CodeContext.fits, Bool.and_eq_true, decide_eq_true_eq] at h
  rw [BitVec.toNat_ofNat, Nat.mod_eq_of_lt h.2]

/-- A CTRL write is told by its data bit 0, above which the other 31 bits are ignored (43_host_commands R87, R88). -/
theorem decodeWrite_ctrl (rest : BitVec 31) (b : Bool) :
    decodeWrite 0 (BitVec.ofNat 32 (2 * rest.toNat + b.toNat)) = if b then .start rest else .ctrlNop rest := by
  have hlt : 2 * rest.toNat + b.toNat < 2 ^ 32 := by have := rest.isLt; have := b.toNat_lt; omega
  have hbit : (BitVec.ofNat 32 (2 * rest.toNat + b.toNat)).getLsbD 0 = b := by
    rw [BitVec.getLsbD, BitVec.toNat_ofNat, Nat.mod_eq_of_lt hlt, Nat.testBit_zero]
    cases b <;> simp
  have hrest : (BitVec.ofNat 32 (2 * rest.toNat + b.toNat)).extractLsb' 1 31 = rest := by
    apply BitVec.eq_of_toNat_eq
    rw [BitVec.extractLsb'_toNat, BitVec.toNat_ofNat, Nat.mod_eq_of_lt hlt, Nat.shiftRight_eq_div_pow]
    have := rest.isLt
    have := b.toNat_lt
    omega
  show (if _ then Instr.start _ else Instr.ctrlNop _) = _
  rw [hbit, hrest]

/-- Settles O1, by cases on the instruction: a code by its row of the classification, a host command by its register number. -/
theorem decodeEncodeRoundTrip : Obligations.DecodeEncodeRoundTrip := by
  intro k i h
  cases i with
  | clear =>
    exact congrArg Except.ok (decodeCode_of_clr (CodeContext.toNat_ofNat_of_fits h))
  | endCode =>
    exact congrArg Except.ok (decodeCode_of_eoi (CodeContext.toNat_ofNat_of_fits h))
  | exhaust => rfl
  | invalid c =>
    simp only [Instr.wfAt, Bool.and_eq_true, decide_eq_true_eq] at h
    obtain ⟨⟨⟨-, hclr⟩, heoi⟩, hno⟩ := h
    exact congrArg Except.ok (decodeCode_of_namesNoEntry hclr heoi hno)
  | literal c =>
    simp only [Instr.wfAt, Bool.and_eq_true, decide_eq_true_eq, Bool.not_eq_true'] at h
    obtain ⟨⟨-, hlt⟩, hno⟩ := h
    exact congrArg Except.ok (decodeCode_of_lt_clr (Bool.not_eq_true _ ▸ hno) hlt)
  | kwkwk c =>
    simp only [Instr.wfAt, Bool.and_eq_true, decide_eq_true_eq] at h
    obtain ⟨⟨⟨-, hgt⟩, hnext⟩, hprev⟩ := h
    exact congrArg Except.ok (decodeCode_of_next hgt hnext (Option.isSome_iff_ne_none.1 hprev))
  | known c =>
    simp only [Instr.wfAt, Bool.and_eq_true, decide_eq_true_eq] at h
    obtain ⟨⟨-, hlo⟩, hhi⟩ := h
    exact congrArg Except.ok (decodeCode_of_lt_next hlo hhi)
  | start rest =>
    exact (decodeAccess_encodeWrite _ _).trans (congrArg Except.ok (decodeWrite_ctrl rest true))
  | ctrlNop rest =>
    exact (decodeAccess_encodeWrite _ _).trans (congrArg Except.ok (decodeWrite_ctrl rest false))
  | writeIw d | writeInLen d | writeExpLen d => exact decodeAccess_encodeWrite _ d
  | writeRo r d => cases r <;> exact decodeAccess_encodeWrite _ d
  | readRsvd j =>
    exact (decodeAccess_encodeRead j).trans (congrArg Except.ok (decodeRead_reserved (of_decide_eq_true h)))
  | writeRsvd j d =>
    exact (decodeAccess_encodeWrite j d).trans (congrArg Except.ok (decodeWrite_reserved (of_decide_eq_true h)))
  | readCtrl | readStatus | readIw | readInLen | readExpLen | readOutCount | readErrByte | readNext | readPrev | readCodeCount
  | readBitposByte | readBitposBit => rfl

/-- Settles O3: each clause is the lemma of its row, and the side facts of the last two are what the rows before them leave. -/
theorem codeClassesFollowTable : Obligations.CodeClassesFollowTable := by
  refine ⟨fun s h => ?_, fun k c => ⟨?_, ?_, ?_, ?_, ?_, ?_⟩⟩
  · rw [show s.fetch = none from if_pos h]
    rfl
  · exact decodeCode_of_clr
  · exact fun _ => decodeCode_of_eoi
  · exact fun hclr heoi hno => decodeCode_of_namesNoEntry hclr heoi (CodeContext.namesNoEntry_iff.2 hno)
  · exact fun _ _ hno hlt => decodeCode_of_lt_clr (mt CodeContext.namesNoEntry_iff.1 hno) hlt
  · intro hclr heoi hno hlt hnext
    have hprev : k.prev ≠ none := fun hp => hno (.inr ⟨hnext, hp⟩)
    have hgt : k.eoi < c.toNat := by rw [CodeContext.eoi]; omega
    exact ⟨hprev, decodeCode_of_next hgt hnext hprev⟩
  · intro hclr heoi hno hlt hnext
    have hgt : k.eoi < c.toNat := by rw [CodeContext.eoi]; omega
    have hbelow : c.toNat < k.next.toNat := by omega
    exact ⟨hgt, hbelow, decodeCode_of_lt_next hgt hbelow⟩

/-- Settles O7: each word runs through the decoder. -/
theorem tableWordsDecode : Obligations.TableWordsDecode :=
  ⟨rfl, rfl, rfl, rfl, rfl, rfl, rfl, rfl, rfl, rfl, rfl, rfl⟩

/-! ## The rows of the opcode table -/

theorem TableRow.holds_iff {r : TableRow} {w : AccessWord} : r.holds w = true ↔ w &&& r.mask = r.value := beq_iff_eq

/-- Two rows that agree where both have a mask bit are one row. -/
theorem hostRows_disjoint : ∀ r ∈ hostRows, ∀ r' ∈ hostRows, r.value &&& r'.mask = r'.value &&& r.mask → r = r' := by
  decide

/-- Every row fixes the low two offset bits to 0 (20_memory R36). -/
theorem hostRows_aligned : ∀ r ∈ hostRows, r.mask &&& 0x300000000#41 = 0x300000000#41 ∧ r.value &&& 0x300000000#41 = 0 := by
  decide

/-- The rows of reads leave the data bits open (30_encoding R59). -/
theorem hostRows_read_data : ∀ r ∈ hostRows, r.value.getLsbD 40 = false → r.mask.extractLsb' 0 32 = 0 := by
  decide

theorem TableRow.eq_of_holds {r r' : TableRow} (hr : r ∈ hostRows) (hr' : r' ∈ hostRows) {w : AccessWord}
    (h : r.holds w = true) (h' : r'.holds w = true) : r = r' := by
  refine hostRows_disjoint r hr r' hr' ?_
  rw [← TableRow.holds_iff.1 h, ← TableRow.holds_iff.1 h', BitVec.and_assoc, BitVec.and_assoc, BitVec.and_comm r.mask]

theorem AccessWord.aligned_of_and_eq_zero {w : AccessWord} (h : w &&& 0x300000000#41 = 0) :
    (w.extractLsb' 32 8).toNat % 4 = 0 := by
  have hlow : w.extractLsb' 32 8 &&& 3#8 = 0 := (BitVec.extractLsb'_and (y := 0x300000000#41)).symm.trans (congrArg _ h)
  rw [← Nat.and_two_pow_sub_one_eq_mod _ 2]
  exact congrArg BitVec.toNat hlow

theorem TableRow.aligned_of_holds {r : TableRow} (hr : r ∈ hostRows) {w : AccessWord} (h : r.holds w = true) :
    (w.extractLsb' 32 8).toNat % 4 = 0 := by
  obtain ⟨hmask, hvalue⟩ := hostRows_aligned r hr
  apply AccessWord.aligned_of_and_eq_zero
  rw [← hmask, ← BitVec.and_assoc, TableRow.holds_iff.1 h, hvalue]

/-- A row that holds the read with the data bits 0 holds it with any data bits. -/
theorem TableRow.holds_read_of_holds_zero {r : TableRow} (hr : r ∈ hostRows) {k : BitVec 6}
    (h : r.holds (encodeRead k) = true) (d : Word) : r.holds (accessWord 0 k.toNat d.toNat) = true := by
  have hdir : (encodeRead k).getLsbD 40 = false := by
    have hk := k.isLt
    rw [AccessWord.dir_eq, encodeRead, accessWord_toNat (by omega) hk (by omega)]
    exact decide_eq_false (by omega)
  have hmask : r.mask.extractLsb' 0 32 = 0 := by
    apply hostRows_read_data r hr
    rw [← TableRow.holds_iff.1 h, BitVec.getLsbD_and, hdir, Bool.false_and]
  obtain ⟨high, hsplit⟩ : ∃ high : BitVec 9, r.mask = high ++ (0 : Word) := by
    refine ⟨r.mask.extractLsb' 32 9, ?_⟩
    rw [← hmask, BitVec.extractLsb'_append_extractLsb'_eq_extractLsb' (by omega)]
    exact BitVec.extractLsb'_eq_self.symm
  have hread (d : Word) : accessWord 0 k.toNat d.toNat &&& r.mask = (Laws.TableRow.head 0 k.toNat &&& high) ++ (0 : Word) := by
    rw [Laws.TableRow.accessWord_eq 0 (by omega), hsplit, BitVec.and_append]
    exact congrArg _ BitVec.and_zero
  rw [TableRow.holds_iff] at h ⊢
  exact (hread d).trans <| (hread 0).symm.trans h

end Sys2Proof

namespace Sys2Proof.Laws.TableRow

/-- Every instruction that encodes to a window access has a row of its mnemonic that holds the word. -/
theorem statement : ∀ i, Statement i
  | .clear => clear
  | .endCode => endCode
  | .invalid c => invalid c
  | .literal c => literal c
  | .kwkwk c => kwkwk c
  | .known c => known c
  | .exhaust => exhaust
  | .start r => start r
  | .ctrlNop r => ctrlNop r
  | .readCtrl => readCtrl
  | .readStatus => readStatus
  | .writeIw d => writeIw d
  | .writeInLen d => writeInLen d
  | .writeExpLen d => writeExpLen d
  | .readIw => readIw
  | .readInLen => readInLen
  | .readExpLen => readExpLen
  | .readOutCount => readOutCount
  | .readErrByte => readErrByte
  | .readNext => readNext
  | .readPrev => readPrev
  | .readCodeCount => readCodeCount
  | .readBitposByte => readBitposByte
  | .readBitposBit => readBitposBit
  | .writeRo q d => writeRo q d
  | .readRsvd k => readRsvd k
  | .writeRsvd k d => writeRsvd k d

end Sys2Proof.Laws.TableRow

namespace Sys2Proof

/-- A word is the data bit 0 below the other 31 bits. -/
theorem Word.of_bit_zero (d : Word) :
    BitVec.ofNat 32 (2 * (d.extractLsb' 1 31).toNat + (d.getLsbD 0).toNat) = d := by
  apply BitVec.eq_of_toNat_eq
  have hd := d.isLt
  rw [BitVec.extractLsb'_toNat, Nat.shiftRight_eq_div_pow, BitVec.getLsbD, Nat.toNat_testBit, BitVec.toNat_ofNat]
  omega

/-- Encoding the read that a register number decodes to gives the read back. -/
theorem decodeRead_encodes (c : CodeContext) (k : BitVec 6) :
    (decodeRead k).wf = true ∧ encode c (decodeRead k) = .access (encodeRead k) := by
  unfold decodeRead
  split
  case h_13 =>
    refine ⟨decide_eq_true (show 12 ≤ k.toNat from ?_), rfl⟩
    simp only [imp_false] at *
    omega
  all_goals
    rename k.toNat = _ => hk
    refine ⟨rfl, ?_⟩
    rw [encodeRead, hk]
    rfl

theorem decodeWrite_encodes (c : CodeContext) (k : BitVec 6) (d : Word) :
    (decodeWrite k d).wf = true ∧ encode c (decodeWrite k d) = .access (encodeWrite k d) := by
  unfold decodeWrite
  split
  case h_1 hk =>
    have hd := Word.of_bit_zero d
    rw [encodeWrite, hk]
    split_ifs with hbit
    · rw [hbit] at hd
      exact ⟨rfl, congrArg (fun x => Encoded.access (encodeWrite 0 x)) hd⟩
    · rw [Bool.eq_false_of_not_eq_true hbit] at hd
      exact ⟨rfl, congrArg (fun x => Encoded.access (encodeWrite 0 x)) hd⟩
  case h_13 =>
    refine ⟨decide_eq_true (show 12 ≤ k.toNat from ?_), rfl⟩
    simp only [imp_false] at *
    omega
  all_goals
    rename k.toNat = _ => hk
    refine ⟨rfl, ?_⟩
    rw [encodeWrite, hk]
    rfl

/-- A word that decodes is held by a row of its instruction's mnemonic. -/
theorem exists_row_of_decodeAccess {w : AccessWord} {i : Instr} (h : decodeAccess w = .ok i) :
    ∃ r ∈ hostRows, r.holds w = true ∧ r.mnemonic = i.mnemonic := by
  obtain ⟨dir, k, d, hdir, rfl⟩ := accessWord_of_aligned ((decodeAccess_ok_iff w).1 ⟨i, h⟩)
  rw [decodeAccess_accessWord hdir] at h
  cases h
  split_ifs with hd
  · obtain ⟨hwf, he⟩ := decodeWrite_encodes tableContext k d
    obtain ⟨r, hr, hname, hholds⟩ := Laws.TableRow.statement _ _ _ hwf he
    exact ⟨r, hr, hd ▸ hholds, hname⟩
  · obtain rfl : dir = 0 := by omega
    obtain ⟨hwf, he⟩ := decodeRead_encodes tableContext k
    obtain ⟨r, hr, hname, hholds⟩ := Laws.TableRow.statement _ _ _ hwf he
    exact ⟨r, hr, TableRow.holds_read_of_holds_zero hr hholds d, hname⟩

/-- Settles O2: what a word decodes to encodes back to it up to the data bits of a read, and the masks tell the rows apart. -/
theorem hostDecodingFollowsTable : Obligations.HostDecodingFollowsTable :=
  ⟨fun _ _ h => exists_row_of_decodeAccess h,
    fun w _ hr h => (decodeAccess_ok_iff w).2 (TableRow.aligned_of_holds hr h),
    fun _ _ hr _ hr' h h' => TableRow.eq_of_holds hr hr' h h'⟩

/-! ## The bits of a packed stream -/

theorem bytesOfNumber_length (n v : Nat) : (bytesOfNumber n v).length = n := by
  induction n generalizing v with
  | zero => rfl
  | succ n ih => exact congrArg (· + 1) (ih _)

theorem getLsbD_bytesOfNumber {n i b : Nat} (v : Nat) (h : i < (bytesOfNumber n v).length) (hb : b < 8) :
    (bytesOfNumber n v)[i].getLsbD b = v.testBit (8 * i + b) := by
  induction n generalizing v i with
  | zero => exact absurd h (Nat.not_lt_zero i)
  | succ n ih =>
    cases i with
    | zero =>
      show (BitVec.ofNat 8 v).getLsbD b = _
      rw [BitVec.getLsbD_ofNat, decide_eq_true hb, Bool.true_and, Nat.mul_zero, Nat.zero_add]
    | succ i =>
      have hrest : (bytesOfNumber (n + 1) v)[i + 1].getLsbD b = (v / 256).testBit (8 * i + b) :=
        ih (v / 256) (Nat.lt_of_succ_lt_succ h)
      rw [hrest, show 256 = 2 ^ 8 from rfl, Nat.testBit_div_two_pow]
      congr 1
      omega

theorem testBit_numberOfBits {bits : List Bool} {j : Nat} (h : j < bits.length) :
    (numberOfBits bits).testBit j = bits[j] := by
  induction bits generalizing j with
  | nil => exact absurd h (Nat.not_lt_zero j)
  | cons b bits ih =>
    have hcons : numberOfBits (b :: bits) = Nat.bit b (numberOfBits bits) := by
      rw [numberOfBits, Nat.bit_val, Nat.add_comm]
    cases j with
    | zero => exact hcons ▸ Nat.testBit_bit_zero _ _
    | succ j =>
      rw [hcons, Nat.testBit_bit_succ, ih (Nat.lt_of_succ_lt_succ h)]
      rfl

theorem packBits_length (bits : List Bool) : (packBits bits).length = (bits.length + 7) / 8 := bytesOfNumber_length _ _

/-- Bit `j` of a stream is bit `j & 7` of byte `j >> 3` of its packed bytes (20_memory R33). -/
theorem getLsbD_packBits {bits : List Bool} {j : Nat} (h : j < bits.length) (hj : j / 8 < (packBits bits).length) :
    (packBits bits)[j / 8].getLsbD (j % 8) = bits[j] := by
  have hb : j % 8 < 8 := Nat.mod_lt _ (by omega)
  refine (getLsbD_bytesOfNumber (numberOfBits bits) hj hb).trans ?_
  rw [Nat.div_add_mod, testBit_numberOfBits h]

theorem bitsOfCode_length (n v : Nat) : (bitsOfCode n v).length = n := by
  induction n generalizing v with
  | zero => rfl
  | succ n ih => exact congrArg (· + 1) (ih _)

theorem getElem_bitsOfCode {n v i : Nat} (h : i < (bitsOfCode n v).length) : (bitsOfCode n v)[i] = v.testBit i := by
  induction n generalizing v i with
  | zero => exact absurd h (Nat.not_lt_zero i)
  | succ n ih =>
    cases i with
    | zero => exact (Nat.testBit_zero v).symm
    | succ i => exact (ih (Nat.lt_of_succ_lt_succ h)).trans (Nat.testBit_succ v i).symm

theorem bitsOfFields_append (before rest : List (Nat × Nat)) :
    bitsOfFields (before ++ rest) = bitsOfFields before ++ bitsOfFields rest := by
  induction before with
  | nil => rfl
  | cons f fs ih => rw [List.cons_append, bitsOfFields, bitsOfFields, ih, List.append_assoc]

/-- The codes stand one after another, with no padding between them (20_memory R35). -/
theorem bitsOfFields_length (fields : List (Nat × Nat)) : (bitsOfFields fields).length = (fields.map Prod.fst).sum := by
  induction fields with
  | nil => rfl
  | cons f fs ih => rw [bitsOfFields, List.length_append, bitsOfCode_length, ih, List.map_cons, List.sum_cons]

/-- Bit `i` of a code is that far above the sum of the widths before it. -/
theorem getElem_bitsOfFields {before rest : List (Nat × Nat)} {W v i : Nat} (hi : i < W)
    (h : (before.map Prod.fst).sum + i < (bitsOfFields (before ++ (W, v) :: rest)).length) :
    (bitsOfFields (before ++ (W, v) :: rest))[(before.map Prod.fst).sum + i] = v.testBit i := by
  have hcode : i < (bitsOfCode W v).length := by rwa [bitsOfCode_length]
  simp only [bitsOfFields_append, bitsOfFields, ← bitsOfFields_length]
  rw [List.getElem_append_right (Nat.le_add_right _ _)]
  simp only [Nat.add_sub_cancel_left]
  rw [List.getElem_append_left hcode, getElem_bitsOfCode]

end Sys2Proof

namespace Sys2Proof.Machine

/-! ## Fetching an assembled code -/

/-- A fetched code is the number of W bits that has the bits of `IN` from the cursor on. -/
theorem State.fetchCode_eq_of_bits {s : State} {p W v : Nat} (hv : v < 2 ^ W)
    (h : ∀ i, i < W → (s.inByte ((p + i) / 8)).getLsbD ((p + i) % 8) = v.testBit i) : s.fetchCode p W = v := by
  apply Nat.eq_of_testBit_eq
  intro i
  by_cases hi : i < W
  · rw [s.testBit_fetchCode p W i hi, h i hi]
  · have hpow : 2 ^ W ≤ 2 ^ i := Nat.pow_le_pow_right (by omega) (Nat.le_of_not_lt hi)
    rw [Nat.testBit_lt_two_pow ((s.fetchCode_lt p W).trans_le hpow), Nat.testBit_lt_two_pow (hv.trans_le hpow)]

/-- Settles O6, bit by bit: the packed bytes hold each bit of a code where the fetch looks for it. -/
theorem assembledCodesAreFetched : Obligations.AssembledCodesAreFetched := by
  intro s fields hfit hin before W v rest hfields
  subst hfields
  refine State.fetchCode_eq_of_bits (hfit (W, v) (List.mem_append_right before List.mem_cons_self)) fun i hi => ?_
  have hlen : (before.map Prod.fst).sum + i < (bitsOfFields (before ++ (W, v) :: rest)).length := by
    rw [bitsOfFields_length, List.map_append, List.sum_append, List.map_cons, List.sum_cons]
    omega
  have hbyte : ((before.map Prod.fst).sum + i) / 8 < (packBits (bitsOfFields (before ++ (W, v) :: rest))).length := by
    rw [packBits_length]
    omega
  rw [hin _ hbyte, getLsbD_packBits hlen, getElem_bitsOfFields hi]

variable {s t : State} {cap : Nat}

/-! ## The steps after which the block is in RUN -/

theorem execExhaust_st_ne_run (ht : execExhaust s = .next t) : t.st ≠ .run := by
  rw [execExhaust] at ht
  split_ifs at ht
  all_goals
    cases ht
    exact nofun

theorem execEndCode_st_ne_run (ht : execEndCode s = .next t) : t.st ≠ .run := by
  rw [execEndCode] at ht
  split_ifs at ht
  all_goals
    cases ht
    exact nofun

/-- A code step that stays in RUN is a CLEAR or a data code that completes (41_control_codes R67, 42_data_codes R84). -/
theorem State.RunInv.code_step_of_run (h : s.RunInv cap) (hcap : cap ≤ 12)
    (ht : execAt cap (decodeCode s.context s.fetch) s = .next t) (hr : t.st = .run) :
    (decodeCode s.context s.fetch = .clear ∧ t = s.resetTable.advance s.width) ∨
      ∃ c n out, (decodeCode s.context s.fetch).isDataCode c ∧ t = (s.learn c cap).commit c n out s.width := by
  rcases h.code_step hcap with ⟨-, he⟩ | ⟨c, -, -, -, hclass⟩
  · exact absurd hr (execExhaust_st_ne_run (he ▸ ht))
  rcases hclass with ⟨hd, he⟩ | ⟨-, he⟩ | ⟨-, he⟩ | ⟨hd, -, l, -, -, ⟨-, he⟩ | ⟨-, out, -, he⟩⟩
  · cases he.symm.trans ht
    exact .inl ⟨hd, rfl⟩
  · exact absurd hr (execEndCode_st_ne_run (he ▸ ht))
  · cases he.symm.trans ht
    cases hr
  · cases he.symm.trans ht
    cases hr
  · cases he.symm.trans ht
    exact .inr ⟨c, l.length, out, hd, rfl⟩

/-- An engine's turn in RUN that stays in RUN (40_unpacker R64). -/
theorem State.RunInv.engine_step_of_run (h : s.RunInv cap) (hcap : cap ≤ 12) (hr : s.st = .run) (hturn : s.EnginesTurn)
    (ht : stepAt cap s = .next t) (htr : t.st = .run) :
    (decodeCode s.context s.fetch = .clear ∧ t = State.advance (State.resetTable { s with agenda := s.agenda.tail }) s.width) ∨
      ∃ c n out, (decodeCode s.context s.fetch).isDataCode c ∧
        t = (State.learn { s with agenda := s.agenda.tail } c cap).commit c n out s.width := by
  have hfetch : State.fetch { s with agenda := s.agenda.tail } = s.fetch := State.fetch_congr rfl rfl rfl rfl
  rw [stepAt_engine_run hturn hr, ← hfetch] at ht
  rw [← hfetch]
  exact (h.withAgenda s.agenda.tail).code_step_of_run hcap ht htr

theorem execStart_of_next_run (hst : s.st ≠ .run) {r : BitVec 31} (ht : execStart r s cap = .next t) (hr : t.st = .run) :
    s.iw.toNat ≤ cap ∧ t = State.resetTable { s.cleared with st := .run } := by
  by_cases hiw : s.iw.toNat < 1 ∨ cap < s.iw.toNat
  · cases (execStart_of_badWidth hst hiw r).symm.trans ht
    cases hr
  · have hlo : 1 ≤ s.iw.toNat := by omega
    have hhi : s.iw.toNat ≤ cap := by omega
    cases (execStart_of_legalWidth hst hlo hhi r).symm.trans ht
    exact ⟨hhi, rfl⟩

/-- A host command after which the block is in RUN was given to a running block, and changes no more than the host's latch, or it is a
START with a legal width (43_host_commands R85, R87, R90). -/
theorem execAt_host_of_run {w : AccessWord} {i : Instr} (hw : decodeAccess w = .ok i) (ht : execAt cap i s = .next t)
    (hr : t.st = .run) :
    (s.st = .run ∧ t = { s with hostData := t.hostData }) ∨
      (s.iw.toNat ≤ cap ∧ t = State.resetTable { s.cleared with st := .run }) := by
  rcases decodeAccess_cases hw with ⟨k, rfl⟩ | ⟨k, d, rfl⟩
  · cases (execAt_decodeRead cap k s).symm.trans ht
    exact .inl ⟨hr, rfl⟩
  · by_cases hst : s.st = .run
    · cases (execAt_decodeWrite_of_run hst cap k d).symm.trans ht
      exact .inl ⟨hst, rfl⟩
    · rcases execAt_decodeWrite_cases hst cap k d with ⟨r, hi⟩ | ⟨iw, inLen, expLen, he⟩
      · rw [hi] at ht
        exact .inr (execStart_of_next_run (r := r) hst ht hr)
      · cases he.symm.trans ht
        exact absurd hr hst

/-- A move after which the block is in RUN. -/
theorem State.perform_of_run {m : Move} (ht : s.perform m cap = .next t) (hr : t.st = .run) :
    (s.st = .run ∧ m = .engine) ∨ (s.st = .run ∧ t = { s with hostData := t.hostData }) ∨
      (s.iw.toNat ≤ cap ∧ t = State.resetTable { s.cleared with st := .run }) := by
  cases m with
  | engine =>
    refine .inl ⟨?_, rfl⟩
    by_contra hst
    cases (if_neg (mt State.busy_iff.1 hst)).symm.trans ht
    exact hst hr
  | access size w =>
    right
    cases size with
    | byte | half => cases ht
    | word =>
      cases hw : decodeAccess w with
      | ok i =>
        simp only [State.perform, State.windowAccess, hw] at ht
        exact execAt_host_of_run hw ht hr
      | error e =>
        simp only [State.perform, State.windowAccess, hw] at ht
        cases ht
  | writeIn i b =>
    by_cases hb : s.busy = true
    · cases (if_pos hb).symm.trans ht
    · cases (if_neg hb).symm.trans ht
      exact absurd hr (mt State.busy_iff.2 hb)
  | readOut j =>
    cases ht
    exact .inr (.inl ⟨hr, rfl⟩)
  | hardReset =>
    cases ht
    cases hr

/-- Everything a step that leaves the block in RUN can be: the engine's turn in RUN, a host's access in RUN, or a START. -/
theorem stepAt_of_run (ht : stepAt cap s = .next t) (hr : t.st = .run) :
    (s.st = .run ∧ s.EnginesTurn) ∨ (s.st = .run ∧ t = { s with hostData := t.hostData, agenda := s.agenda.tail }) ∨
      (s.iw.toNat ≤ cap ∧ t = State.resetTable { s.cleared with st := .run, agenda := s.agenda.tail }) := by
  cases ha : s.agenda with
  | nil =>
    rw [stepAt_engine (.inl ha)] at ht
    rcases State.perform_of_run (m := .engine) ht hr with ⟨hst, -⟩ | ⟨hst, -⟩ | hstart
    · exact .inl ⟨hst, .inl ha⟩
    · exact .inl ⟨hst, .inl ha⟩
    · rw [ha] at hstart
      exact .inr (.inr hstart)
  | cons m rest =>
    rw [stepAt_move ha] at ht
    rcases State.perform_of_run ht hr with ⟨hst, rfl⟩ | hhost | hstart
    · exact .inl ⟨hst, .inr ⟨rest, ha⟩⟩
    · exact .inr (.inl hhost)
    · exact .inr (.inr hstart)

/-! ## The width schedule -/

/-- The width is the initial one, or the table has grown to need it (30_encoding R47). -/
def State.WidthNeeded (s : State) : Prop := s.cw.toNat = s.iw.toNat ∨ 2 ^ s.cw.toNat ≤ s.next.toNat

theorem State.widthNeeded_resetTable (hiw : s.iw.toNat ≤ 12) : s.resetTable.WidthNeeded :=
  .inl (State.resetTable_cw_toNat hiw)

/-- Learning widens the code only where the incremented index needs it (42_data_codes R75). -/
theorem State.WidthNeeded.learn (h : s.WidthNeeded) (hcap : cap ≤ 12) (c : Code) : (s.learn c cap).WidthNeeded := by
  rcases s.learn_cases c cap with ⟨he, -⟩ | ⟨p, -, hroom, he⟩
  · rwa [he]
  · have hnext : (s.learn c cap).next.toNat = s.next.toNat + 1 := by
      rw [he]
      exact State.next_add_one hroom hcap
    have hcw : (s.learn c cap).cw.toNat =
        if 2 ^ (s.cw.toNat + 1) ≤ s.next.toNat + 1 ∧ s.cw.toNat < cap then s.cw.toNat + 1 else s.cw.toNat := by
      rw [he]
      exact s.cw_bumped hcap
    rw [State.WidthNeeded, hnext, hcw, State.learn_iw]
    split_ifs with hbump
    · exact .inr hbump.1
    · exact h.imp_right Nat.le_succ_of_le

/-- Settles O29: a step that leaves the block in RUN resets the table, learns, or leaves the width and the table alone. -/
theorem widthFollowsTheTable : Obligations.WidthFollowsTheTable := by
  intro s t h hneed ht hr
  show t.WidthNeeded
  rcases stepAt_of_run ht hr with ⟨hst, hturn⟩ | ⟨hst, he⟩ | ⟨hiw, rfl⟩
  · have hrun := h.run hst
    rcases hrun.engine_step_of_run (by decide) hst hturn ht hr with ⟨-, rfl⟩ | ⟨c, n, out, -, rfl⟩
    · exact State.widthNeeded_resetTable (hrun.width.2.1.trans hrun.width.2.2)
    · exact State.WidthNeeded.learn (s := { s with agenda := s.agenda.tail }) (hneed hst) (by decide) c
  · rw [he]
    exact hneed hst
  · exact State.widthNeeded_resetTable hiw

/-- Settles O55: the bounds are those of the run invariant, and a code step that stays in RUN and is no CLEAR commits what it learned. -/
theorem tableFreezesAtTheCap : Obligations.TableFreezesAtTheCap := by
  intro cap s t hlo hcap h hr hturn ht htr
  have hrun : t.RunInv cap := ((everyCapStepKeepsInv cap s hlo hcap h).1 t ht).run htr
  refine ⟨Nat.succ_le_succ hrun.width.2.2, hrun.index.2, ?_⟩
  rcases (h.run hr).engine_step_of_run hcap hr hturn ht htr with ⟨hd, -⟩ | ⟨c, n, out, -, rfl⟩
  · exact ⟨fun _ hclear => absurd hd hclear, fun _ _ hclear => absurd hd hclear⟩
  · constructor
    · intro hfull _
      rw [State.learn_of_full (s := { s with agenda := s.agenda.tail }) hfull.ge]
      exact ⟨rfl, rfl, rfl⟩
    · intro hroom hprev _
      obtain ⟨p, hp⟩ := Option.ne_none_iff_exists'.1 hprev
      rw [State.learn_of_room (s := { s with agenda := s.agenda.tail }) hp hroom]
      exact ⟨State.next_add_one hroom hcap, s.cw_bumped hcap⟩

end Sys2Proof.Machine
end

section
/-! PROOFS. 40_unpacker: the stream decoder and the fetch (R61, R62), the cursor (R63), and the engine's turn (R64). -/

namespace Sys2Proof

/-- Bit `b` of byte `i` is bit `8 * i + b` of the number whose low byte comes first (20_memory R33). -/
theorem testBit_numberOfBytes {bytes : List Byte} {i b : Nat} (h : i < bytes.length) (hb : b < 8) :
    (numberOfBytes bytes).testBit (8 * i + b) = bytes[i].getLsbD b := by
  induction bytes generalizing i with
  | nil => exact absurd h (Nat.not_lt_zero i)
  | cons x xs ih =>
    rw [numberOfBytes, Nat.add_comm, Nat.testBit_two_pow_mul_add (i := 8) _ x.isLt]
    cases i with
    | zero =>
      rw [if_pos (by omega), Nat.mul_zero, Nat.zero_add]
      rfl
    | succ i =>
      have hrest : 8 * (i + 1) + b - 8 = 8 * i + b := by omega
      rw [if_neg (by omega), hrest, ih (Nat.lt_of_succ_lt_succ h), List.getElem_cons_succ]

end Sys2Proof

namespace Sys2Proof.Machine

variable {s t : State} {cap : Nat}

/-! ## The availability test and the fetch -/

theorem State.fetch_of_short (h : 8 * s.inLen.toNat < s.bitpos.toNat + s.width) : s.fetch = none :=
  if_pos h

theorem State.fetch_of_available (h : s.bitpos.toNat + s.width ≤ 8 * s.inLen.toNat) :
    s.fetch = some (BitVec.ofNat 13 (s.fetchCode s.bitpos.toNat s.width)) :=
  if_neg (Nat.not_lt.2 h)

/-- Where W bits remain, the fetch gives the code that has the stream bits at the cursor (40_unpacker R60 to R62). -/
theorem State.fetch_eq_of_bits {c : Code} (havail : s.bitpos.toNat + s.width ≤ 8 * s.inLen.toNat) (hc : c.toNat < 2 ^ s.width)
    (hbits : ∀ i, i < s.width →
      c.getLsbD i = (s.inByte ((s.bitpos.toNat + i) / 8)).getLsbD ((s.bitpos.toNat + i) % 8)) :
    s.fetch = some c := by
  have hcode : s.fetchCode s.bitpos.toNat s.width = c.toNat := State.fetchCode_eq_of_bits hc fun i hi => (hbits i hi).symm
  rw [State.fetch_of_available havail, hcode, BitVec.ofNat_toNat, BitVec.setWidth_eq]

/-- Where `IN` holds a list of bytes, a fetched code is a slice of the number that the list stands for (40_unpacker R61). -/
theorem State.fetchCode_eq_slice {bytes : List Byte} (hin : ∀ i (h : i < bytes.length), s.inByte i = bytes[i]) {p W : Nat}
    (hfit : p + W ≤ 8 * bytes.length) : s.fetchCode p W = (numberOfBytes bytes >>> p) % 2 ^ W := by
  refine State.fetchCode_eq_of_bits (Nat.mod_lt _ (Nat.two_pow_pos W)) fun i hi => ?_
  have hbyte : (p + i) / 8 < bytes.length := by omega
  rw [hin _ hbyte, ← testBit_numberOfBytes hbyte (Nat.mod_lt _ (by omega)), Nat.div_add_mod, Nat.testBit_mod_two_pow,
    decide_eq_true hi, Bool.true_and, Nat.testBit_shiftRight]

/-- Settles O5: the two availability tests are one, and the fetched bits are those of the number that the list stands for. -/
theorem streamDecoderAgreesWithFetch : Obligations.StreamDecoderAgreesWithFetch := by
  intro s bytes hlen hin
  have hwidth : s.context.width = s.width := rfl
  rw [decodeStream, hwidth, ← hlen]
  by_cases hshort : 8 * s.inLen.toNat < s.bitpos.toNat + s.width
  · rw [if_pos hshort, State.fetch_of_short hshort]
  · have havail := Nat.le_of_not_lt hshort
    rw [if_neg hshort, State.fetch_of_available havail, State.fetchCode_eq_slice hin (hlen ▸ havail)]

/-! ## The engine's turn -/

/-- Settles O8: the engine's turn in RUN runs what it fetches, and the fetch is decided by the availability test. -/
theorem engineTurnRunsFetchedCode : Obligations.EngineTurnRunsFetchedCode := by
  intro s hr hturn
  rw [step_engine_run hturn hr]
  constructor
  · intro hshort
    rw [State.fetch_of_short hshort]
    rfl
  · intro havail c hc _ hbits
    rw [State.fetch_eq_of_bits havail hc hbits]

/-- Settles O10: the turn tests RUN first. -/
theorem engineRestsOutsideRun : Obligations.EngineRestsOutsideRun := by
  intro s hst hturn
  rw [step_engine hturn]
  exact if_neg (mt State.busy_iff.1 hst)

/-! ## The cursor -/

/-- `t` has the cursor and the code count that `s` has after a code of its width (40_unpacker R63). -/
def State.AdvancedTo (s t : State) : Prop :=
  t.bitpos = (s.advance s.width).bitpos ∧ t.codes = (s.advance s.width).codes

theorem State.AdvancedTo.bitpos_toNat (h : s.AdvancedTo t) (hb : s.bitpos.toNat + s.width ≤ 8 * s.inLen.toNat) :
    t.bitpos.toNat = s.bitpos.toNat + s.width :=
  h.1 ▸ s.advance_bitpos_toNat hb

theorem State.AdvancedTo.codes_toNat (h : s.AdvancedTo t) : t.codes.toNat = (s.codes.toNat + 1) % 2 ^ 32 :=
  h.2 ▸ BitVec.toNat_add s.codes 1

theorem State.commit_learn_advancedTo (s : State) (c : Code) (cap n : Nat) (out : Memory) :
    s.AdvancedTo ((s.learn c cap).commit c n out s.width) := by
  constructor <;> simp

theorem execExhaust_cursor (ht : execExhaust s = .next t) : t.bitpos = s.bitpos ∧ t.codes = s.codes := by
  rw [execExhaust] at ht
  split_ifs at ht
  all_goals
    cases ht
    exact ⟨rfl, rfl⟩

theorem execEndCode_cursor (ht : execEndCode s = .next t) :
    (t.st = .error ∧ t.bitpos = s.bitpos ∧ t.codes = s.codes) ∨ (t.st ≠ .error ∧ s.AdvancedTo t) := by
  rw [execEndCode] at ht
  split_ifs at ht
  · cases ht
    exact .inr ⟨nofun, rfl, rfl⟩
  · cases ht
    exact .inl ⟨rfl, rfl, rfl⟩

/-- The code step of a run leaves the cursor where it reads no code or raises an error, and advances it past a code that was
there otherwise (40_unpacker R63). -/
theorem State.RunInv.code_step_cursor (h : s.RunInv cap) (hcap : cap ≤ 12) (hr : s.st = .run)
    (ht : execAt cap (decodeCode s.context s.fetch) s = .next t) :
    ((s.fetch = none ∨ t.st = .error) ∧ t.bitpos = s.bitpos ∧ t.codes = s.codes) ∨
      (s.fetch ≠ none ∧ t.st ≠ .error ∧ s.bitpos.toNat + s.width ≤ 8 * s.inLen.toNat ∧ s.AdvancedTo t) := by
  rcases h.code_step hcap with ⟨hf, he⟩ | ⟨c, hf, -, hb, hclass⟩
  · exact .inl ⟨.inl hf, execExhaust_cursor (he ▸ ht)⟩
  have hsome : s.fetch ≠ none := hf ▸ Option.some_ne_none c
  rcases hclass with ⟨-, he⟩ | ⟨-, he⟩ | ⟨-, he⟩ | ⟨-, -, l, -, -, ⟨-, he⟩ | ⟨-, out, -, he⟩⟩
  · cases he.symm.trans ht
    exact .inr ⟨hsome, by simp [hr], hb, rfl, rfl⟩
  · rcases execEndCode_cursor (he ▸ ht) with ⟨herr, hkept⟩ | ⟨hok, hadv⟩
    · exact .inl ⟨.inr herr, hkept⟩
    · exact .inr ⟨hsome, hok, hb, hadv⟩
  · cases he.symm.trans ht
    exact .inl ⟨.inr rfl, rfl, rfl⟩
  · cases he.symm.trans ht
    exact .inl ⟨.inr rfl, rfl, rfl⟩
  · cases he.symm.trans ht
    exact .inr ⟨hsome, by simp [hr], hb, s.commit_learn_advancedTo c cap l.length out⟩

/-- Settles O28: the engine's turn in RUN is one code step, which keeps the cursor or advances it; the two cases exclude each
other. -/
theorem cursorAdvancesByWidth : Obligations.CursorAdvancesByWidth := by
  intro s t h hr hturn ht
  have hfetch : State.fetch { s with agenda := s.agenda.tail } = s.fetch := State.fetch_congr rfl rfl rfl rfl
  have hcode := (stepAt_engine_run hturn hr Config.CW_CAP).symm.trans ht
  rw [← hfetch] at hcode ⊢
  rcases ((h.run hr).withAgenda s.agenda.tail).code_step_cursor (by decide) hr hcode with
    ⟨hwhy, hkept⟩ | ⟨hsome, hok, hb, hadv⟩
  · exact ⟨fun _ => hkept, fun hsome hok => absurd hwhy (not_or.2 ⟨hsome, hok⟩)⟩
  · have hpos := hadv.bitpos_toNat hb
    exact ⟨fun hwhy => absurd hwhy (not_or.2 ⟨hsome, hok⟩), fun _ _ => ⟨hpos, hpos.trans_le hb, hadv.codes_toNat⟩⟩

end Sys2Proof.Machine
end

section
/-! PROOFS. 41_control_codes: CLEAR resets the table (R65, R67), END and EXHAUST stop the run (R66, R68), and a full output does not
(R69). -/

namespace Sys2Proof.Machine

variable {s : State} {cap : Nat}

/-! ## CLEAR -/

/-- Settles O38: CLEAR is the table reset followed by the cursor advance, and the advance keeps the table. -/
theorem clearResetsTable : Obligations.ClearResetsTable := by
  intro s _ hiw hb
  have hadv : s.AdvancedTo (s.resetTable.advance s.width) := ⟨rfl, rfl⟩
  have hentry : ∀ v, v < 2 ^ s.iw.toNat → (s.resetTable.advance s.width).entry v = ⟨1, none, BitVec.ofNat 12 v⟩ :=
    fun v hv => (State.entry_congr rfl rfl v).trans (s.resetTable_entry hv)
  exact ⟨_, rfl, rfl, State.resetTable_cw_toNat hiw, State.resetTable_next_toNat hiw, hentry, hadv.bitpos_toNat hb,
    hadv.codes_toNat⟩

/-! ## END and EXHAUST, by whether the output is complete -/

theorem execEndCode_of_full (h : s.outpos = s.expLen) :
    execEndCode s = .next { State.advance { s with stopEnd := true } s.width with st := .done } :=
  if_pos h

theorem execEndCode_of_not_full (h : s.outpos ≠ s.expLen) :
    execEndCode s = .next (State.raise { s with stopEnd := true } .underrun s.bitpos) :=
  if_neg h

theorem execExhaust_of_full (h : s.outpos = s.expLen) :
    execExhaust s = .next { s with stopEnd := false, st := .done } :=
  if_pos h

theorem execExhaust_of_not_full (h : s.outpos ≠ s.expLen) :
    execExhaust s = .next (State.raise { s with stopEnd := false } .underrun s.bitpos) :=
  if_neg h

/-- Settles O39: the completing END advances the cursor, and the other one raises the error at the code's first bit. -/
theorem endStopsRun : Obligations.EndStopsRun := by
  intro s hb
  constructor
  · intro hfull
    have hadv : s.AdvancedTo { State.advance { s with stopEnd := true } s.width with st := .done } := ⟨rfl, rfl⟩
    exact ⟨_, execEndCode_of_full hfull, rfl, hadv.bitpos_toNat hb, hadv.codes_toNat⟩
  · intro hshort
    exact ⟨_, execEndCode_of_not_full hshort, rfl⟩

/-- Settles O40: neither outcome of EXHAUST touches the cursor or the count. -/
theorem exhaustStopsRun : Obligations.ExhaustStopsRun := fun _ =>
  ⟨fun hfull => ⟨_, execExhaust_of_full hfull, rfl⟩, fun hshort => ⟨_, execExhaust_of_not_full hshort, rfl⟩⟩

/-! ## A full output -/

/-- With the output full, a data code overruns: the run that it names is not empty (42_data_codes R70, R77). -/
theorem State.RunInv.dataCode_of_full (h : s.RunInv cap) (hcap : cap ≤ 12) {c : Code} (hc : s.Admitted c)
    (hw : c.toNat < 2 ^ s.width) (hfull : s.outpos = s.expLen) :
    s.dataCode c cap = .next (s.raise .overrun s.bitpos) := by
  obtain ⟨l, hl, -, ⟨-, hover⟩ | ⟨hfit, -⟩⟩ := h.dataCode hcap hc (h.code_lt_dictSize hw)
  · exact hover
  · have hpos : 0 < l.length := List.length_pos_of_ne_nil hl.ne_nil
    rw [hfull] at hfit
    omega

/-- Settles O41: CLEAR and END do not need room in the output, and every data code does. -/
theorem fullOutputDoesNotStop : Obligations.FullOutputDoesNotStop := by
  intro s h hr hfull
  refine ⟨⟨_, rfl, hr, rfl, rfl⟩, ⟨_, execEndCode_of_full hfull, rfl⟩, ?_⟩
  intro c i hi hwf
  obtain ⟨hc, hw⟩ := State.admitted_of_wfAt hi hwf
  exact ⟨_, (exec_of_isDataCode hi s).trans (h.dataCode_of_full (by decide) hc hw hfull), rfl, rfl⟩

end Sys2Proof.Machine
end

section
/-! PROOFS. 42_data_codes: the sequence of a code (R70), INVALID (R72), what a data code learns (R73 to R75), what it writes (R76, R78
to R82), and the overrun and the self-reference (R77, R83). -/

namespace Sys2Proof.Machine

variable {s t : State} {cap : Nat}

/-! ## The sequence of a defined code -/

/-- Settles O30: a defined code names a run, whose entries carry its length, and the length leaves room below the code's index. -/
theorem sequencesMatchTheirEntries : Obligations.SequencesMatchTheirEntries := by
  intro cap s d _ _ h hd
  obtain ⟨l, hl, -⟩ := h.exists_run d hd
  have hlen : l.length = (s.entry d.toNat).len.toNat := hl.length_eq
  obtain ⟨hpos, hshort⟩ := h.len_bound hd
  have hclr := State.two_le_clr h
  have hidx : s.clr + 2 ≤ s.next.toNat ∧ s.next.toNat ≤ 2 ^ (cap + 1) := h.index
  have hbound : l.length ≤ 2 ^ (cap + 1) - 3 := by
    simp only [State.Defined] at hd
    omega
  exact ⟨l, hl.isSeq, fun _ hl' => hl'.unique hl.isSeq, hlen, hlen ▸ hpos, hbound, hl.first⟩

/-- `First` of a defined code is the first symbol of its sequence (42_data_codes R70). -/
theorem State.RunInv.head?_of_isSeq (h : s.RunInv cap) {d : Code} (hd : s.Defined d.toNat) {l : List Symbol}
    (hl : s.IsSeq d l) : l.head? = some (s.first d) := by
  obtain ⟨l', hl', -⟩ := h.exists_run d hd
  rw [hl.unique hl'.isSeq]
  exact hl'.first

/-- A literal code names the sequence of its own symbol (42_data_codes R80). -/
theorem State.RunInv.isSeq_literal (h : s.RunInv cap) {c : Code} (hc : c.toNat < s.clr) :
    s.IsSeq c [BitVec.ofNat 12 c.toNat] := by
  have hentry := h.literal_entry hc
  simpa only [hentry] using State.IsSeq.literal c (congrArg DictEntry.prefixCode hentry)

/-- The sequence of a defined code depends only on the defined entries. -/
theorem State.RunInv.isSeq_congr (h : s.RunInv cap) (hsame : ∀ c, s.Defined c → t.entry c = s.entry c) {d : Code}
    {l : List Symbol} (hl : s.IsSeq d l) (hd : s.Defined d.toNat) : t.IsSeq d l := by
  induction hl with
  | literal d hp =>
    rw [← hsame _ hd] at hp ⊢
    exact .literal d hp
  | extend d p l hp _ ih =>
    obtain ⟨-, hpdef, -⟩ := h.link hd hp
    rw [← hsame _ hd] at hp ⊢
    exact .extend d p l hp (ih hpdef)

theorem State.Defined.ne_next {c : Nat} (hd : s.Defined c) (h : s.RunInv cap) : c ≠ s.next.toNat := by
  have := h.index
  simp only [State.Defined] at hd
  omega

/-- Learning leaves the sequences of the defined codes alone: the index it writes was not defined (42_data_codes R74). -/
theorem State.RunInv.isSeq_learn (h : s.RunInv cap) (c : Code) {d : Code} (hd : s.Defined d.toNat) {l : List Symbol}
    (hl : s.IsSeq d l) : (s.learn c cap).IsSeq d l :=
  h.isSeq_congr (fun _ hx => s.learn_entry_other c cap (hx.ne_next h)) hl hd

/-! ## INVALID -/

/-- Settles O42: the effect is one error, the class is its row of the classification, and no code is above a full table. -/
theorem invalidCodeRaises : Obligations.InvalidCodeRaises := by
  refine ⟨fun s c => ⟨_, rfl, rfl⟩, fun s c hclr heoi hno => ?_, fun s c h hfull hw hinv => ?_⟩
  · exact decodeCode_of_namesNoEntry hclr heoi (CodeContext.namesNoEntry_iff.2 hno)
  · have hbelow : c.toNat < s.next.toNat := hfull ▸ h.code_lt_dictSize hw
    have hwf := wfAt_decodeCode s.context c hw
    rw [hinv] at hwf
    simp only [Instr.wfAt, Bool.and_eq_true] at hwf
    obtain ⟨-, hno⟩ := hwf
    rcases CodeContext.namesNoEntry_iff.1 hno with habove | ⟨hnext, -⟩
    · exact hbelow.not_gt habove
    · exact hbelow.ne hnext

/-! ## The codes of each data class -/

theorem State.lt_clr_of_literal {c : Code} (h : (Instr.literal c).wfAt s.context = true) : c.toNat < s.clr := by
  simp only [Instr.wfAt, Bool.and_eq_true, decide_eq_true_eq] at h
  exact h.1.2

theorem State.defined_of_known {c : Code} (h : (Instr.known c).wfAt s.context = true) : s.Defined c.toNat := by
  simp only [Instr.wfAt, Bool.and_eq_true, decide_eq_true_eq] at h
  exact .inr ⟨h.1.2, h.2⟩

theorem State.eq_next_of_kwkwk {c : Code} (h : (Instr.kwkwk c).wfAt s.context = true) : c.toNat = s.next.toNat := by
  simp only [Instr.wfAt, Bool.and_eq_true, decide_eq_true_eq] at h
  exact h.1.2

theorem State.learn_entry_next {p : Code} (hp : s.prev = some p) (hroom : s.next.toNat < Config.dictSize cap) (c : Code) :
    (s.learn c cap).entry s.next.toNat = s.learnedEntry c p := by
  apply State.entry_of_listed
  rw [State.learn_of_room hp hroom, Sparse.get?_set_same]

/-- The code that is the entry just learned names the previous sequence and its first symbol (42_data_codes R76, R82). -/
theorem State.RunInv.isSeq_learned (h : s.RunInv cap) {c p : Code} (hroom : s.next.toNat < Config.dictSize cap)
    (hc : c.toNat = s.next.toNat) (hp : s.prev = some p) {l : List Symbol} (hl : s.IsSeq p l) :
    (s.learn c cap).IsSeq c (l ++ [s.first p]) := by
  have hentry : (s.learn c cap).entry c.toNat = s.learnedEntry c p := hc ▸ State.learn_entry_next hp hroom c
  have hsuffix : ((s.learn c cap).entry c.toNat).suffix = s.first p := by
    rw [hentry]
    exact if_pos hc
  have hprefix : ((s.learn c cap).entry c.toNat).prefixCode = some p := by
    rw [hentry]
    rfl
  exact hsuffix ▸ .extend c p l hprefix (h.isSeq_learn c (h.defined_prev hp) hl)

/-! ## DataCode, by the sequence that the code names after learning -/

/-- A data code of a run overruns or commits, by the sequence that its code names after learning (42_data_codes R77 to R79). -/
theorem State.RunInv.dataCode_of_isSeq (h : s.RunInv cap) (hcap : cap ≤ 12) {c : Code} (hc : s.Admitted c)
    (hw : c.toNat < 2 ^ s.width) {l : List Symbol} (hl : (s.learn c cap).IsSeq c l) :
    (s.expLen.toNat < s.outpos.toNat + l.length ∧ s.dataCode c cap = .next (s.raise .overrun s.bitpos)) ∨
      (s.outpos.toNat + l.length ≤ s.expLen.toNat ∧ ∃ out, RunWritten s.outpos.toNat l s.outBuf out ∧
        s.dataCode c cap = .next ((s.learn c cap).commit c l.length out s.width)) := by
  obtain ⟨l', hl', -, hcases⟩ := h.dataCode hcap hc (h.code_lt_dictSize hw)
  obtain rfl : l' = l := hl'.isSeq.unique hl
  exact hcases

/-- `t` is `s` after the data code `c` has written `l` and committed, whatever it has learned (42_data_codes R78, R79). -/
structure State.Committed (s : State) (c : Code) (l : List Symbol) (t : State) : Prop where
  frame : t = { s with
    dict := t.dict, next := t.next, cw := t.cw, outBuf := t.outBuf, outpos := t.outpos, prev := some c
    bitpos := t.bitpos, codes := t.codes }
  symbols : ∀ j (h : j < l.length), (t.outElement (s.outpos.toNat + j)).toNat = l[j].toNat
  bytes : ∀ a, a < 2 * s.outpos.toNat ∨ 2 * (s.outpos.toNat + l.length) ≤ a → t.outByte a = s.outByte a
  count : t.outpos.toNat = s.outpos.toNat + l.length
  cursor : s.AdvancedTo t

theorem RunWritten.committed {c : Code} {l : List Symbol} {out : Memory} (hout : RunWritten s.outpos.toNat l s.outBuf out)
    (hfit : s.outpos.toNat + l.length ≤ s.expLen.toNat) :
    s.Committed c l ((s.learn c cap).commit c l.length out s.width) where
  frame := by rcases s.learn_cases c cap with ⟨he, -⟩ | ⟨p, -, -, he⟩ <;> rw [he] <;> rfl
  symbols j hj := by
    rw [hout.element rfl hj]
    exact BitVec.toNat_setWidth_of_le (by omega)
  bytes a ha := State.outByte_of_read (hout.other a ha)
  count := by rw [State.commit_outpos_toNat (by simpa using hfit), State.learn_outpos]
  cursor := s.commit_learn_advancedTo c cap l.length out

/-- Where that sequence fits the output, the data code commits, and its code still names the sequence (42_data_codes R78, R79). -/
theorem State.RunInv.exec_commits (h : s.RunInv Config.CW_CAP) {i : Instr} {c : Code} (hi : i.isDataCode c)
    (hwf : i.wfAt s.context = true) {l : List Symbol} (hl : (s.learn c Config.CW_CAP).IsSeq c l)
    (hfit : s.outpos.toNat + l.length ≤ s.expLen.toNat) :
    ∃ t, exec i s = .next t ∧ s.Committed c l t ∧ t.IsSeq c l := by
  obtain ⟨hc, hw⟩ := State.admitted_of_wfAt hi hwf
  obtain ⟨hover, -⟩ | ⟨-, out, hout, he⟩ := h.dataCode_of_isSeq (by decide) hc hw hl
  · omega
  have hdef := hc.defined_learn h (by decide) (h.code_lt_dictSize hw)
  have hseq := (h.learn (by decide) hc).isSeq_congr (t := (s.learn c Config.CW_CAP).commit c l.length out s.width)
    (fun _ _ => rfl) hl hdef
  exact ⟨_, (exec_of_isDataCode hi s).trans he, hout.committed hfit, hseq⟩

/-- Where it does not fit, the data code overruns, and what it learned is discarded (42_data_codes R77). -/
theorem State.RunInv.exec_overruns (h : s.RunInv Config.CW_CAP) {i : Instr} {c : Code} (hi : i.isDataCode c)
    (hwf : i.wfAt s.context = true) {l : List Symbol} (hl : (s.learn c Config.CW_CAP).IsSeq c l)
    (hover : s.expLen.toNat < s.outpos.toNat + l.length) : exec i s = .next (s.raise .overrun s.bitpos) := by
  obtain ⟨hc, hw⟩ := State.admitted_of_wfAt hi hwf
  obtain ⟨-, he⟩ | ⟨hfit, -⟩ := h.dataCode_of_isSeq (by decide) hc hw hl
  · exact (exec_of_isDataCode hi s).trans he
  · omega

/-! ## The sequence that each class expands -/

theorem State.RunInv.isSeq_learn_literal (h : s.RunInv cap) {c : Code} (hwf : (Instr.literal c).wfAt s.context = true) :
    (s.learn c cap).IsSeq c [BitVec.ofNat 12 c.toNat] := by
  have hlt := State.lt_clr_of_literal hwf
  exact h.isSeq_learn c (.inl hlt) (h.isSeq_literal hlt)

theorem State.RunInv.isSeq_learn_kwkwk (h : s.RunInv cap) {c p : Code} (hwf : (Instr.kwkwk c).wfAt s.context = true)
    (hp : s.prev = some p) {l : List Symbol} (hl : s.IsSeq p l) : (s.learn c cap).IsSeq c (l ++ [s.first p]) := by
  obtain ⟨-, hw⟩ := State.admitted_of_wfAt (.inr (.inr rfl)) hwf
  have hnext := State.eq_next_of_kwkwk hwf
  exact h.isSeq_learned (hnext ▸ h.code_lt_dictSize hw) hnext hp hl

/-- Settles O43: a literal is a sequence of one symbol, the code itself. -/
theorem literalWritesItsSymbol : Obligations.LiteralWritesItsSymbol := by
  intro s c h hwf hroom hb
  have hclr : s.clr ≤ 4096 := State.clr_le (h.width.2.1.trans h.width.2.2)
  have hlt := State.lt_clr_of_literal hwf
  obtain ⟨t, ht, hcom, -⟩ := h.exec_commits (.inl rfl) hwf (h.isSeq_learn_literal hwf) hroom
  have hsymbol : (BitVec.ofNat 12 c.toNat).toNat = c.toNat := by
    rw [BitVec.toNat_ofNat, Nat.mod_eq_of_lt (by omega)]
  refine ⟨t, ht, hcom.frame, (hcom.symbols 0 Nat.one_pos).trans hsymbol, fun a ha => hcom.bytes a ?_, hcom.count,
    hcom.cursor.bitpos_toNat hb, hcom.cursor.codes_toNat⟩
  rw [List.length_singleton]
  omega

/-- Settles O44: learning leaves the sequence of a known code as it was, and the commit writes it. -/
theorem knownExpandsItsSequence : Obligations.KnownExpandsItsSequence := by
  intro s c l h hwf hl hfit hb
  have hseq := h.isSeq_learn c (State.defined_of_known hwf) hl
  obtain ⟨t, ht, hcom, -⟩ := h.exec_commits (.inr (.inl rfl)) hwf hseq hfit
  exact ⟨t, ht, hcom.frame, hcom.symbols, hcom.bytes, hcom.count, hcom.cursor.bitpos_toNat hb, hcom.cursor.codes_toNat⟩

/-- Settles O45: the entry just learned names the previous sequence and its first symbol, and the commit writes that. -/
theorem kwkwkExpandsTheNewEntry : Obligations.KwkwkExpandsTheNewEntry := by
  intro s c p l v h hwf hp hl hv hfit hb
  obtain rfl : v = s.first p := Option.some.inj (hv.symm.trans (h.head?_of_isSeq (h.defined_prev hp) hl))
  have hlen : s.outpos.toNat + (l ++ [s.first p]).length = s.outpos.toNat + l.length + 1 := by
    rw [List.length_append, List.length_singleton, Nat.add_assoc]
  obtain ⟨t, ht, hcom, hseq⟩ := h.exec_commits (.inr (.inr rfl)) hwf (h.isSeq_learn_kwkwk hwf hp hl) (hlen ▸ hfit)
  have hbytes := hcom.bytes
  rw [hlen] at hbytes
  exact ⟨t, ht, hcom.frame, hseq, hcom.symbols, hbytes, hcom.count.trans hlen, hcom.cursor.bitpos_toNat hb,
    hcom.cursor.codes_toNat⟩

/-- Settles O47: the bound check comes before the walk and sees the entry's length, which in a run is that of the sequence. -/
theorem overrunDiscardsTheStep : Obligations.OverrunDiscardsTheStep := by
  intro s c
  refine ⟨?_, fun h => ⟨?_, ?_, ?_⟩⟩
  · intro i hi hover
    exact ⟨_, (exec_of_isDataCode hi s).trans (State.dataCode_of_overrun hover), rfl⟩
  · intro hwf hover
    exact ⟨_, h.exec_overruns (.inl rfl) hwf (h.isSeq_learn_literal hwf) hover, rfl⟩
  · intro l hwf hl hover
    exact ⟨_, h.exec_overruns (.inr (.inl rfl)) hwf (h.isSeq_learn c (State.defined_of_known hwf) hl) hover, rfl⟩
  · intro p l hwf hp hl hover
    refine ⟨_, h.exec_overruns (.inr (.inr rfl)) hwf (h.isSeq_learn_kwkwk hwf hp hl) ?_, rfl⟩
    rwa [List.length_append, List.length_singleton]

/-! ## What a data code learns -/

/-- A data code after which the block is in RUN has committed what it learned. -/
theorem State.dataCode_of_run {c : Code} (ht : s.dataCode c cap = .next t) (hr : t.st = .run) :
    ∃ n out, t = (s.learn c cap).commit c n out s.width := by
  rcases s.dataCode_cases c cap with ⟨-, he⟩ | ⟨-, ⟨-, he⟩ | ⟨-, he⟩ | ⟨out, -, he⟩⟩
  · cases he.symm.trans ht
    cases hr
  · cases he.symm.trans ht
    cases hr
  · cases he.symm.trans ht
  · cases he.symm.trans ht
    exact ⟨_, out, rfl⟩

/-- The symbol learned is the first one of the code's sequence, or of the previous one where the code is the entry being learned
(42_data_codes R73). -/
theorem State.RunInv.exists_isSeq_learnedSuffix (h : s.RunInv cap) {c p : Code} (hc : s.Admitted c) (hp : s.prev = some p) :
    ∃ l v, s.IsSeq (if c.toNat = s.next.toNat then p else c) l ∧ l.head? = some v ∧ (s.learnedEntry c p).suffix = v := by
  have hsuffix : (s.learnedEntry c p).suffix = if c.toNat = s.next.toNat then s.first p else s.first c := rfl
  rw [hsuffix]
  split_ifs with hnext
  · obtain ⟨l, hl, -⟩ := h.exists_run p (h.defined_prev hp)
    exact ⟨l, _, hl.isSeq, hl.first, rfl⟩
  · obtain ⟨l, hl, -⟩ := h.exists_run c (hc.resolve_right fun hx => hnext hx.1)
    exact ⟨l, _, hl.isSeq, hl.first, rfl⟩

/-- The length of the entry learned does not wrap (10_state R20). -/
theorem State.RunInv.learnedEntry_len (h : s.RunInv cap) (hcap : cap ≤ 12) {p : Code} (hp : s.prev = some p) (c : Code) :
    (s.learnedEntry c p).len.toNat = (s.entry p.toNat).len.toNat + 1 := by
  have hlen := h.len_bound (h.defined_prev hp)
  have hclr := State.two_le_clr h
  have hbelow := (h.previous p hp).1
  have hsize := h.index.2.trans (State.dictSize_le hcap)
  exact word_add_one (by omega)

/-- Settles O46: a step that stays in RUN commits what it learned, which is nothing or the one entry at `next`. -/
theorem learningFollowsItsRule : Obligations.LearningFollowsItsRule := by
  intro s t c i h _ hi hwf ht hr
  obtain ⟨hc, -⟩ := State.admitted_of_wfAt hi hwf
  obtain ⟨n, out, rfl⟩ := State.dataCode_of_run ((exec_of_isDataCode hi s).symm.trans ht) hr
  constructor
  · intro hno
    have hsame : s.learn c Config.CW_CAP = s := hno.elim State.learn_of_first fun hfull => State.learn_of_full hfull.ge
    rw [hsame]
    exact ⟨rfl, rfl, rfl⟩
  · intro p hp hroom
    have hlearn := State.learn_of_room (c := c) (cap := Config.CW_CAP) hp hroom
    have hentry : ((s.learn c Config.CW_CAP).commit c n out s.width).entry s.next.toNat = s.learnedEntry c p :=
      State.learn_entry_next hp hroom c
    rw [hentry]
    refine ⟨h.exists_isSeq_learnedSuffix hc hp, rfl, h.learnedEntry_len (by decide) hp c,
      fun d hd => s.learn_entry_other c _ hd, h.index.1, ?_, ?_⟩
    · rw [State.commit_next, hlearn]
      exact State.next_add_one (cap := Config.CW_CAP) hroom (by decide)
    · rw [State.commit_cw, hlearn]
      exact s.cw_bumped (by decide)

/-! ## The self-reference -/

/-- `l` lists the codes on the walk from `d` to an entry that links to itself, in order (42_data_codes R83). -/
inductive State.SelfPath (s : State) : Code → List Code → Prop where
  | here (d : Code) (h : (s.entry d.toNat).prefixCode = some d) : s.SelfPath d [d]
  | later (d p : Code) (l : List Code) (h : (s.entry d.toNat).prefixCode = some p) (hne : p ≠ d) (hp : s.SelfPath p l) :
      s.SelfPath d (d :: l)

theorem State.MeetsSelf.exists_selfPath {d : Code} (h : s.MeetsSelf d) : ∃ l, s.SelfPath d l := by
  induction h with
  | here d h => exact ⟨_, .here d h⟩
  | later d p h hne _ ih =>
    obtain ⟨l, hl⟩ := ih
    exact ⟨_, .later d p l h hne hl⟩

theorem State.SelfPath.unique {d : Code} {l l' : List Code} (h : s.SelfPath d l) (h' : s.SelfPath d l') : l = l' := by
  induction h generalizing l' with
  | here d h =>
    cases h' with
    | here => rfl
    | later _ p _ h2 hne => exact absurd (Option.some.inj (h2.symm.trans h)) hne
  | later d p l h hne _ ih =>
    cases h' with
    | here _ h2 => exact absurd (Option.some.inj (h.symm.trans h2)) hne
    | later _ p' l' h2 _ hp' =>
      obtain rfl : p = p' := Option.some.inj (h.symm.trans h2)
      rw [ih hp']

/-- Every code on the walk has a walk that is no longer. -/
theorem State.SelfPath.of_mem {d : Code} {l : List Code} (h : s.SelfPath d l) :
    ∀ x ∈ l, ∃ l', s.SelfPath x l' ∧ l'.length ≤ l.length := by
  induction h with
  | here d h =>
    intro x hx
    obtain rfl := List.mem_singleton.1 hx
    exact ⟨_, .here x h, Nat.le_refl _⟩
  | later d p l h hne hp ih =>
    intro x hx
    rcases List.mem_cons.1 hx with rfl | hx
    · exact ⟨_, .later x p l h hne hp, Nat.le_refl _⟩
    · obtain ⟨l', hl', hle⟩ := ih x hx
      exact ⟨l', hl', Nat.le_succ_of_le hle⟩

/-- The walk meets no code twice, since a second meeting would give the code a shorter walk. -/
theorem State.SelfPath.nodup {d : Code} {l : List Code} (h : s.SelfPath d l) : l.Nodup := by
  induction h with
  | here d _ => exact List.nodup_singleton d
  | later d p l h hne hp ih =>
    refine List.nodup_cons.2 ⟨fun hmem => ?_, ih⟩
    obtain ⟨l', hl', hle⟩ := hp.of_mem d hmem
    rw [hl'.unique (.later d p l h hne hp)] at hle
    exact Nat.not_succ_le_self _ hle

/-- The walk follows no more links than there are codes. -/
theorem State.SelfPath.length_le_chainFuel {d : Code} {l : List Code} (h : s.SelfPath d l) : l.length ≤ chainFuel := by
  have hnodup : (l.map BitVec.toNat).Nodup := h.nodup.map fun _ _ => BitVec.eq_of_toNat_eq
  have hsub : l.map BitVec.toNat ⊆ List.range (2 ^ 13) := by
    intro n hn
    obtain ⟨c, -, rfl⟩ := List.mem_map.1 hn
    exact List.mem_range.2 c.isLt
  simpa [chainFuel] using (List.subperm_of_subset hnodup hsub).length_le

theorem State.SelfPath.expand {d : Code} {l : List Code} (h : s.SelfPath d l) (base : Nat) :
    ∀ n out, l.length ≤ n → s.expand base n d out = .selfRef := by
  induction h with
  | here d h =>
    intro n out hn
    obtain ⟨n, rfl⟩ : ∃ m, n = m + 1 := Nat.exists_eq_add_of_le' hn
    simp only [State.expand, h, if_true]
  | later d p l h hne _ ih =>
    intro n out hn
    obtain ⟨n, rfl⟩ : ∃ m, n = m + 1 := ⟨n - 1, by rw [List.length_cons] at hn; omega⟩
    simp only [State.expand, h, if_neg hne]
    exact ih n _ (Nat.le_of_succ_le_succ hn)

/-- The walk over a table with a self-reference ahead finds it (42_data_codes R83). -/
theorem State.MeetsSelf.expand {d : Code} (h : s.MeetsSelf d) (base : Nat) (out : Memory) :
    s.expand base chainFuel d out = .selfRef := by
  obtain ⟨l, hl⟩ := h.exists_selfPath
  exact hl.expand base chainFuel out hl.length_le_chainFuel

theorem State.dataCode_of_selfRef {c : Code}
    (hfit : s.outpos.toNat + ((s.learn c cap).entry c.toNat).len.toNat ≤ s.expLen.toNat)
    (hself : (s.learn c cap).expand s.outpos.toNat chainFuel c s.outBuf = .selfRef) :
    s.dataCode c cap = .next (s.corruptOutput.raise .selfRef s.bitpos) := by
  simp only [State.dataCode, hself, if_neg (Nat.not_lt.2 hfit)]

/-- A self-reference leaves `OUT` below `outpos` and from `EXP_LEN` on (60_exceptions R105). -/
theorem State.corruptOutput_outByte {a : Nat} (hpos : s.outpos.toNat ≤ s.expLen.toNat)
    (ha : a < 2 * s.outpos.toNat ∨ 2 * s.expLen.toNat ≤ a) : s.corruptOutput.outByte a = s.outByte a := by
  apply State.outByte_of_read
  rw [State.corruptOutput_outBuf]
  exact (Sparse.get?_fill ..).trans (if_neg (by omega))

/-- Settles O48: the walk reaches the entry that links to itself, since it meets no code twice before. -/
theorem selfReferenceRaises : Obligations.SelfReferenceRaises := by
  intro s c i hi learned hself hfit
  have hpos : s.outpos.toNat ≤ s.expLen.toNat := by omega
  exact ⟨_, (exec_of_isDataCode hi s).trans (State.dataCode_of_selfRef hfit (hself.expand _ _)), rfl,
    fun _ ha => State.corruptOutput_outByte hpos ha⟩

end Sys2Proof.Machine
end

section
/-! PROOFS. 43_host_commands: the window's access (R85), START (R87, R90), the writes (R86, R88 to R90, R93), the reads (R86, R88,
R91, R92), the host's accesses to `IN` and `OUT` (R94, R95), `done_o` (R96), the host contract (R97), and what DONE means (R98). -/

namespace Sys2Proof.Machine

variable {s t : State} {cap : Nat}

/-! ## The host contract -/

/-- Settles O17: a step has a next state or refuses a move outside the contract, by cases on the move; the code step of a run is the
case that needs 10_state R26. -/
theorem contractStepsNeverStop : Obligations.ContractStepsNeverStop := by
  intro s h hin
  rcases h.stepAt_next (by decide) with ⟨t, ht, -⟩ | ⟨e, -, hout⟩
  · exact ⟨t, ht⟩
  · exact absurd hin hout

/-! ## What a step in RUN changes -/

/-- An access that has a next state is that of an aligned word, and runs the command that the word decodes to
(43_host_commands R85). -/
theorem State.windowAccess_of_next {size : AccessSize} {w : AccessWord} (ht : s.windowAccess size w cap = .next t) :
    size = .word ∧ ∃ i, decodeAccess w = .ok i ∧ execAt cap i s = .next t := by
  cases size with
  | byte | half => cases ht
  | word =>
    cases hw : decodeAccess w with
    | ok i =>
      simp only [State.windowAccess, hw] at ht
      exact ⟨rfl, i, rfl, ht⟩
    | error e =>
      simp only [State.windowAccess, hw] at ht
      cases ht

/-- A move in RUN is the engine's turn or a hardware reset, or it changes no more than the host's latch (43_host_commands
R90, R94). -/
theorem State.perform_in_run (hr : s.st = .run) {m : Move} (ht : s.perform m cap = .next t) :
    m = .engine ∨ (m = .hardReset ∧ t = s.hardReset) ∨ t = { s with hostData := t.hostData } := by
  cases m with
  | engine => exact .inl rfl
  | access size w =>
    obtain ⟨-, i, hw, hi⟩ := State.windowAccess_of_next ht
    rcases decodeAccess_cases hw with ⟨k, rfl⟩ | ⟨k, d, rfl⟩
    · cases (execAt_decodeRead cap k s).symm.trans hi
      exact .inr (.inr rfl)
    · cases (execAt_decodeWrite_of_run hr cap k d).symm.trans hi
      exact .inr (.inr rfl)
  | writeIn i b => cases (if_pos (State.busy_iff.2 hr)).symm.trans ht
  | readOut j =>
    cases ht
    exact .inr (.inr rfl)
  | hardReset =>
    cases ht
    exact .inr (.inl ⟨rfl, rfl⟩)

/-- A step in RUN is the engine's turn or a hardware reset, or it changes no more than the host's latch and the agenda. -/
theorem stepAt_in_run (hr : s.st = .run) (ht : stepAt cap s = .next t) :
    s.EnginesTurn ∨ (s.agenda.head? = some .hardReset ∧ t.st = .idle) ∨
      t = { s with hostData := t.hostData, agenda := s.agenda.tail } := by
  cases ha : s.agenda with
  | nil => exact .inl (.inl ha)
  | cons m rest =>
    rw [stepAt_move ha] at ht
    rcases State.perform_in_run (s := { s with agenda := rest }) hr ht with rfl | ⟨rfl, rfl⟩ | hlatch
    · exact .inl (.inr ⟨rest, ha⟩)
    · exact .inr (.inl ⟨rfl, rfl⟩)
    · exact .inr (.inr hlatch)

/-- The engine's turn in RUN is the code step of the state without the move that gave it the turn. -/
theorem stepAt_engine_code (hturn : s.EnginesTurn) (hr : s.st = .run) (ht : stepAt cap s = .next t) :
    execAt cap (decodeCode (State.context { s with agenda := s.agenda.tail }) (State.fetch { s with agenda := s.agenda.tail }))
      { s with agenda := s.agenda.tail } = .next t := by
  have hfetch : State.fetch { s with agenda := s.agenda.tail } = s.fetch := State.fetch_congr rfl rfl rfl rfl
  rw [hfetch]
  exact (stepAt_engine_run hturn hr cap).symm.trans ht

/-! ## The end of a run in DONE -/

theorem execEndCode_of_done (ht : execEndCode s = .next t) (hd : t.st = .done) : t.outpos = t.expLen := by
  by_cases hfull : s.outpos = s.expLen
  · cases (execEndCode_of_full hfull).symm.trans ht
    exact hfull
  · cases (execEndCode_of_not_full hfull).symm.trans ht
    cases hd

theorem execExhaust_of_done (ht : execExhaust s = .next t) (hd : t.st = .done) : t.outpos = t.expLen := by
  by_cases hfull : s.outpos = s.expLen
  · cases (execExhaust_of_full hfull).symm.trans ht
    exact hfull
  · cases (execExhaust_of_not_full hfull).symm.trans ht
    cases hd

/-- Of the code steps of a run only END and EXHAUST enter DONE, and only with the output full (41_control_codes R66, R68). -/
theorem State.RunInv.code_step_of_done (h : s.RunInv cap) (hcap : cap ≤ 12) (hr : s.st = .run)
    (ht : execAt cap (decodeCode s.context s.fetch) s = .next t) (hd : t.st = .done) :
    t.outpos = t.expLen ∧ (decodeCode s.context s.fetch = .endCode ∨ decodeCode s.context s.fetch = .exhaust) := by
  have hne : s.st ≠ .done := hr ▸ nofun
  rcases h.code_step hcap with ⟨hf, he⟩ | ⟨c, -, -, -, hclass⟩
  · exact ⟨execExhaust_of_done (he ▸ ht) hd, .inr (by rw [hf]; rfl)⟩
  rcases hclass with ⟨-, he⟩ | ⟨hend, he⟩ | ⟨-, he⟩ | ⟨-, -, l, -, -, ⟨-, he⟩ | ⟨-, out, -, he⟩⟩
  · cases he.symm.trans ht
    exact absurd hd hne
  · exact ⟨execEndCode_of_done (he ▸ ht) hd, .inl hend⟩
  · cases he.symm.trans ht
    cases hd
  · cases he.symm.trans ht
    cases hd
  · cases he.symm.trans ht
    exact absurd ((State.learn_st s c cap).symm.trans hd) hne

/-- Settles O23: the step is the engine's, since no other move leads from RUN to DONE, and the invariant after it says that the
elements below `outpos` are written. -/
theorem doneMeansExactLength : Obligations.DoneMeansExactLength := by
  intro s t h hr ht hd
  have hne : s.st ≠ .done := hr ▸ nofun
  rcases stepAt_in_run hr ht with hturn | ⟨-, hidle⟩ | hlatch
  · obtain ⟨hfull, hclass⟩ := ((h.run hr).withAgenda s.agenda.tail).code_step_of_done (by decide) hr
      (stepAt_engine_code hturn hr ht) hd
    have hfetch : State.fetch { s with agenda := s.agenda.tail } = s.fetch := State.fetch_congr rfl rfl rfl rfl
    rw [hfetch] at hclass
    exact ⟨hfull, fun j hj => (everyStepKeepsInv s t h ht).written j (hfull ▸ hj), hclass⟩
  · cases hidle.symm.trans hd
  · rw [hlatch] at hd
    exact absurd hd hne

/-! ## The configuration in RUN -/

/-- `t` has the configuration and the input of `s` (43_host_commands R90, 20_memory R43). -/
def State.SameInput (s t : State) : Prop :=
  t.iw = s.iw ∧ t.inLen = s.inLen ∧ t.expLen = s.expLen ∧ t.inBuf = s.inBuf

theorem execEndCode_sameInput (ht : execEndCode s = .next t) : s.SameInput t := by
  by_cases hfull : s.outpos = s.expLen
  · cases (execEndCode_of_full hfull).symm.trans ht
    exact ⟨rfl, rfl, rfl, rfl⟩
  · cases (execEndCode_of_not_full hfull).symm.trans ht
    exact ⟨rfl, rfl, rfl, rfl⟩

theorem execExhaust_sameInput (ht : execExhaust s = .next t) : s.SameInput t := by
  by_cases hfull : s.outpos = s.expLen
  · cases (execExhaust_of_full hfull).symm.trans ht
    exact ⟨rfl, rfl, rfl, rfl⟩
  · cases (execExhaust_of_not_full hfull).symm.trans ht
    exact ⟨rfl, rfl, rfl, rfl⟩

theorem State.dataCode_sameInput {c : Code} (ht : s.dataCode c cap = .next t) : s.SameInput t := by
  rcases s.dataCode_cases c cap with ⟨-, he⟩ | ⟨-, ⟨-, he⟩ | ⟨-, he⟩ | ⟨out, -, he⟩⟩
  · cases he.symm.trans ht
    exact ⟨rfl, rfl, rfl, rfl⟩
  · cases he.symm.trans ht
    exact ⟨rfl, rfl, rfl, rfl⟩
  · cases he.symm.trans ht
  · cases he.symm.trans ht
    exact ⟨s.learn_iw c cap, s.learn_inLen c cap, s.learn_expLen c cap, s.learn_inBuf c cap⟩

/-- No code step changes the configuration or the input, in any state. -/
theorem execAt_decodeCode_sameInput {k : CodeContext} {fetched : Option Code}
    (ht : execAt cap (decodeCode k fetched) s = .next t) : s.SameInput t := by
  cases fetched with
  | none => exact execExhaust_sameInput ht
  | some c =>
    rcases decodeCode_cases k c with hd | hd | hd | hd
    · rw [hd] at ht
      cases ht
      exact ⟨rfl, rfl, rfl, rfl⟩
    · rw [hd] at ht
      exact execEndCode_sameInput ht
    · rw [hd] at ht
      cases ht
      exact ⟨rfl, rfl, rfl, rfl⟩
    · rw [execAt_of_isDataCode hd] at ht
      exact State.dataCode_sameInput ht

/-- Settles O24: the writes and START test RUN first, and in RUN only a code step and a hardware reset change more than the host's
latch. -/
theorem configurationIsConstantInRun : Obligations.ConfigurationIsConstantInRun := by
  intro s hr
  have hb : s.busy = true := State.busy_iff.2 hr
  refine ⟨fun d => ⟨if_pos hb, if_pos hb, if_pos hb⟩, fun r => execStart_of_run hr r _, fun t ht hreset => ?_⟩
  rcases stepAt_in_run hr ht with hturn | ⟨hhead, -⟩ | hlatch
  · obtain ⟨hiw, hinLen, hexpLen, hinBuf⟩ := execAt_decodeCode_sameInput (stepAt_engine_code hturn hr ht)
    exact ⟨hiw, hinLen, hexpLen, hinBuf⟩
  · exact absurd hhead hreset
  · rw [hlatch]
    exact ⟨rfl, rfl, rfl, rfl⟩

/-! ## What a step outside RUN changes -/

/-- `t` is `s` but for what the host writes outside RUN, and for the host's latch (43_host_commands R89, R94). -/
def State.SameBlock (s t : State) : Prop :=
  t = { s with iw := t.iw, inLen := t.inLen, expLen := t.expLen, inBuf := t.inBuf, hostData := t.hostData }

theorem State.SameBlock.st_eq (h : s.SameBlock t) : t.st = s.st := by
  rw [State.SameBlock] at h
  rw [h]

/-- A host command outside RUN that is no START changes the configuration or the host's latch at most. -/
theorem execAt_host_of_stopped (hst : s.st ≠ .run) {w : AccessWord} {i : Instr} (hw : decodeAccess w = .ok i)
    (hi : ∀ r, i ≠ .start r) (ht : execAt cap i s = .next t) : s.SameBlock t := by
  rcases decodeAccess_cases hw with ⟨k, rfl⟩ | ⟨k, d, rfl⟩
  · cases (execAt_decodeRead cap k s).symm.trans ht
    rfl
  · rcases execAt_decodeWrite_cases hst cap k d with ⟨r, hr⟩ | ⟨iw, inLen, expLen, he⟩
    · exact absurd hr (hi r)
    · cases he.symm.trans ht
      rfl

/-- A step outside RUN that is neither a hardware reset nor a START changes the configuration, `IN`, the host's latch and the agenda
at most (60_exceptions R110). -/
theorem stepAt_of_stopped (hst : s.st ≠ .run) (ht : stepAt cap s = .next t) (hreset : s.agenda.head? ≠ some .hardReset)
    (hstart : ∀ r, s.nextCommand ≠ some (.start r)) : State.SameBlock { s with agenda := s.agenda.tail } t := by
  have hidle : ∀ a, State.engineTurn { s with agenda := a } cap = .next { s with agenda := a } := fun _ =>
    if_neg (mt State.busy_iff.1 hst)
  cases ha : s.agenda with
  | nil =>
    rw [stepAt_engine (.inl ha), hidle, ha] at ht
    cases ht
    rfl
  | cons m rest =>
    rw [stepAt_move ha] at ht
    cases m with
    | engine =>
      cases (hidle rest).symm.trans ht
      rfl
    | access size w =>
      obtain ⟨rfl, i, hw, hi⟩ := State.windowAccess_of_next ht
      have hcommand : s.nextCommand = some i := by simp only [State.nextCommand, ha, hw, Except.toOption]
      exact execAt_host_of_stopped hst hw (fun r hr => hstart r (hr ▸ hcommand)) hi
    | writeIn i b =>
      cases (if_neg (mt State.busy_iff.1 hst)).symm.trans ht
      rfl
    | readOut j =>
      cases ht
      rfl
    | hardReset => exact absurd (by rw [ha]; rfl) hreset

/-! ## The completion level -/

theorem State.doneO_iff : s.doneO = true ↔ s.st = .done ∨ s.st = .error := by
  simp [State.doneO]

theorem State.not_run_of_doneO (h : s.doneO = true) : s.st ≠ .run := by
  rcases State.doneO_iff.1 h with hs | hs <;> rw [hs] <;> exact nofun

/-- Settles O26: the level is a function of STATE, which only START and a hardware reset change outside RUN. -/
theorem completionLevelHolds : Obligations.CompletionLevelHolds := by
  refine ⟨fun s => State.doneO_iff, fun s t hdone ht hreset hstart => ?_⟩
  have hst : t.st = s.st := (stepAt_of_stopped (State.not_run_of_doneO hdone) ht hreset hstart).st_eq
  rwa [State.doneO_iff, hst, ← State.doneO_iff]

/-! ## START -/

/-- Settles O31: each case is one equation of `execStart`. -/
theorem startFollowsItsRule : Obligations.StartFollowsItsRule := by
  intro s r
  refine ⟨fun hr => execStart_of_run hr r _, fun hst hiw => ?_, fun hst hlo hhi => ?_⟩
  · exact ⟨_, execStart_of_badWidth hst hiw r, rfl⟩
  · exact ⟨_, execStart_of_legalWidth hst hlo hhi r, rfl, State.resetTable_cw_toNat hhi, State.resetTable_next_toNat hhi,
      fun _ hv => State.resetTable_entry _ hv⟩

/-! ## Host accesses to the window, `IN` and `OUT` -/

/-- Settles O9: one step at the default cap, where `execAt` is `exec`. -/
theorem hostAccessRunsDecodedCommand : Obligations.HostAccessRunsDecodedCommand := fun _ _ i _ ha hw =>
  (stepAt_access ha hw _).trans (execAt_default i _)

/-- A byte of `IN` reads as written, and every other byte as before (43_host_commands R94). -/
theorem State.inByte_write (s : State) (a : List Move) (i : Nat) (b : Byte) (j : Nat) :
    State.inByte { s with inBuf := Memory.write s.inBuf i b, agenda := a } j = if j = i then b else s.inByte j := by
  simp only [State.inByte, Memory.read_write]
  split_ifs <;> rfl

/-- Settles O12: the write tests RUN, and outside it is one write of the memory. -/
theorem inputWritesOnlyOutsideRun : Obligations.InputWritesOnlyOutsideRun := by
  intro s i b rest ha
  rw [step_move ha]
  refine ⟨fun hr => if_pos (State.busy_iff.2 hr), fun hst => ⟨_, if_neg (mt State.busy_iff.1 hst), rfl, ?_, fun a hne => ?_⟩⟩
  · exact (s.inByte_write rest _ b _).trans (if_pos rfl)
  · exact (s.inByte_write rest _ b a).trans (if_neg hne)

/-- Settles O13: the element is zero-extended, and the invariant says that it is written below `outpos`. -/
theorem outputReadsReturnElements : Obligations.OutputReadsReturnElements := by
  intro s j rest ha h
  have hvalue : ((s.outElement j.toNat).setWidth 32).toNat = (s.outElement j.toNat).toNat :=
    BitVec.toNat_setWidth_of_le (by decide)
  refine ⟨(s.outElement j.toNat).setWidth 32, step_move ha, hvalue, fun hj => ?_⟩
  have hw := h.written _ hj
  exact ⟨hw, hvalue ▸ hw.2.2⟩

/-! ## Writes of the register window -/

/-- Settles O32: each write sets its register outside RUN, and the read at that register gives it back. -/
theorem configurationWritesTakeEffect : Obligations.ConfigurationWritesTakeEffect := by
  intro s d hst
  have hb : ¬s.busy = true := mt State.busy_iff.1 hst
  refine ⟨⟨{ s with iw := d.setWidth 8 }, if_neg hb, rfl, BitVec.toNat_setWidth 8 d, ?_⟩, ⟨{ s with inLen := d }, if_neg hb, rfl, rfl⟩,
    ⟨{ s with expLen := d }, if_neg hb, rfl, rfl⟩⟩
  have hvalue : (d.setWidth 8).setWidth 32 = BitVec.ofNat 32 (d.toNat % 256) := by
    apply BitVec.eq_of_toNat_eq
    simp
  exact congrArg (fun v => Host.Outcome.next (State.reply { s with iw := d.setWidth 8 } v)) hvalue

/-- A write of 0 in bit 0 of CTRL, to a read-only register or to a reserved one does nothing (43_host_commands R86, R88, R93). -/
theorem exec_decodeWrite_of_ineffective {k : BitVec 6} {d : Word}
    (h : (k.toNat = 0 ∧ d.getLsbD 0 = false) ∨ k.toNat = 1 ∨ 5 ≤ k.toNat) (s : State) :
    exec (decodeWrite k d) s = .next s := by
  unfold decodeWrite
  split
  case h_1 =>
    obtain ⟨-, hd⟩ : k.toNat = 0 ∧ d.getLsbD 0 = false := h.resolve_right (by omega)
    rw [hd]
    rfl
  case h_3 | h_4 | h_5 => omega
  all_goals rfl

theorem decodeAccess_of_write {w : AccessWord} (hoff : (w.extractLsb' 32 8).toNat % 4 = 0) (hdir : w.getLsbD 40 = true) :
    decodeAccess w = .ok (decodeWrite ((w.extractLsb' 32 8).extractLsb' 2 6) (w.extractLsb' 0 32)) := by
  rw [decodeAccess, if_neg (not_not.2 hoff), if_pos hdir]

/-- Settles O33: the words of the fourth part decode to writes of register 0 with bit 0 clear, of register 1, or of one from 5 on. -/
theorem ineffectiveWritesChangeNothing : Obligations.IneffectiveWritesChangeNothing := by
  refine ⟨fun _ _ => rfl, fun _ _ _ => rfl, fun _ _ _ => rfl, fun s w rest ha hdir hoff => ?_⟩
  have hbit : (w.extractLsb' 0 32).getLsbD 0 = w.getLsbD 0 := by simp
  have hoffset : ((w.extractLsb' 32 8).toNat = 0 ∧ w.getLsbD 0 = false) ∨ (w.extractLsb' 32 8).toNat = 4 ∨
      (0x14 ≤ (w.extractLsb' 32 8).toNat ∧ (w.extractLsb' 32 8).toNat % 4 = 0) :=
    hoff.imp (And.imp_left fun h => by rw [h]; rfl) (Or.imp_left fun h => by rw [h]; rfl)
  have hdecode := decodeAccess_of_write (w := w) (by omega) hdir
  rw [hostAccessRunsDecodedCommand s w _ rest ha hdecode]
  apply exec_decodeWrite_of_ineffective
  rw [offset_index, hbit]
  rcases hoffset with ⟨hzero, hclear⟩ | hro | ⟨hlo, -⟩
  · exact .inl ⟨by omega, hclear⟩
  · exact .inr (.inl (by omega))
  · exact .inr (.inr (by omega))

/-! ## Reads of the register window -/

/-- A field put above the bits of a word adds its multiple. -/
theorem Word.toNat_or_shiftLeft {lo hi : Word} {n : Nat} (hlo : lo.toNat < 2 ^ n) (hhi : hi.toNat * 2 ^ n < 2 ^ 32) :
    (lo ||| hi <<< n).toNat = lo.toNat + 2 ^ n * hi.toNat := by
  have hshift : (hi <<< n).toNat = hi.toNat <<< n := by
    rw [BitVec.toNat_shiftLeft, Nat.shiftLeft_eq, Nat.mod_eq_of_lt hhi]
  rw [BitVec.toNat_or, hshift, Nat.or_comm, ← Nat.shiftLeft_add_eq_or_of_lt hlo, Nat.shiftLeft_eq, Nat.mul_comm,
    Nat.add_comm]

/-- The low three bits of a bit offset are its place in its byte. -/
theorem BitOffset.toNat_and_seven (p : BitOffset) : ((p &&& 7).setWidth 32).toNat = p.toNat % 8 := by
  have hand : (p &&& 7).toNat = p.toNat % 8 := (BitVec.toNat_and p 7).trans (Nat.and_two_pow_sub_one_eq_mod p.toNat 3)
  rw [BitVec.toNat_setWidth, hand]
  omega

/-- The rest of a bit offset is the number of its byte. -/
theorem BitOffset.toNat_shiftRight_three (p : BitOffset) : ((p >>> 3).setWidth 32).toNat = p.toNat / 8 := by
  have := p.isLt
  rw [BitVec.toNat_setWidth, BitVec.toNat_ushiftRight, Nat.shiftRight_eq_div_pow]
  omega

/-- The fields of the `STATUS` word (43_host_commands R91). -/
theorem State.statusWord_toNat (s : State) : s.statusWord.toNat =
    s.st.code.toNat + 4 * s.stopEnd.toNat + 16 * s.err.code.toNat + 256 * s.cw.toNat + 4096 * (s.errPos.toNat % 8) := by
  have hst : (s.st.code.setWidth 32).toNat = s.st.code.toNat := BitVec.toNat_setWidth_of_le (by decide)
  have hstop : ((BitVec.ofBool s.stopEnd).setWidth 32).toNat = s.stopEnd.toNat :=
    (BitVec.toNat_setWidth_of_le (by decide)).trans (BitVec.toNat_ofBool _)
  have herr : (s.err.code.setWidth 32).toNat = s.err.code.toNat := BitVec.toNat_setWidth_of_le (by decide)
  have hcw : (s.cw.setWidth 32).toNat = s.cw.toNat := BitVec.toNat_setWidth_of_le (by decide)
  have hpos := BitOffset.toNat_and_seven s.errPos
  have := Bool.toNat_lt s.stopEnd
  have hstopped := Word.toNat_or_shiftLeft (lo := s.st.code.setWidth 32) (hi := (BitVec.ofBool s.stopEnd).setWidth 32) (n := 2)
    (by omega) (by omega)
  have hraised := Word.toNat_or_shiftLeft (hi := s.err.code.setWidth 32) (n := 4) (hstopped.trans_lt (by omega)) (by omega)
  have hwidth := Word.toNat_or_shiftLeft (hi := s.cw.setWidth 32) (n := 8) (hraised.trans_lt (by omega)) (by omega)
  have hword := Word.toNat_or_shiftLeft (hi := (s.errPos &&& 7).setWidth 32) (n := 12) (hwidth.trans_lt (by omega)) (by omega)
  exact hword.trans (by omega)

theorem RunState.code_toNat (x : RunState) :
    x.code.toNat = if x = .idle then 0 else if x = .run then 1 else if x = .done then 2 else 3 := by
  cases x <;> rfl

theorem ErrCode.code_toNat (e : ErrCode) :
    e.code.toNat = if e = .eNone then 0 else if e = .badWidth then 1 else if e = .invalidCode then 2
      else if e = .overrun then 3 else if e = .underrun then 4 else 5 := by
  cases e <;> rfl

/-- Settles O34: the fields do not overlap, so that the word is their sum. -/
theorem statusReadShowsFields : Obligations.StatusReadShowsFields := fun s =>
  ⟨s.statusWord, rfl, by rw [s.statusWord_toNat, RunState.code_toNat, ErrCode.code_toNat]⟩

theorem State.prevWord_of_none (h : s.prev = none) : s.prevWord.toNat = 2 ^ 31 := by
  rw [State.prevWord, h]
  rfl

theorem State.prevWord_of_some {p : Code} (h : s.prev = some p) : s.prevWord.toNat = p.toNat := by
  rw [State.prevWord, h]
  exact BitVec.toNat_setWidth_of_le (by decide)

/-- Settles O35: the registers narrower than a word are zero-extended, and the two cursors are split into byte and bit. -/
theorem registerReadsShowValues : Obligations.RegisterReadsShowValues := by
  intro s
  refine ⟨⟨_, rfl, rfl⟩, ⟨_, rfl, ?_⟩, ⟨_, rfl, ?_⟩, ⟨_, rfl, fun p hp => ?_, fun hp => ?_⟩, ⟨_, rfl, rfl⟩, ⟨_, rfl, ?_⟩,
    ⟨_, rfl, ?_⟩, ⟨_, rfl, ?_⟩, ⟨_, rfl, rfl⟩, ⟨_, rfl, rfl⟩⟩
  · exact BitOffset.toNat_shiftRight_three s.errPos
  · exact BitVec.toNat_setWidth_of_le (by decide)
  · exact State.prevWord_of_some hp
  · exact State.prevWord_of_none hp
  · exact BitOffset.toNat_shiftRight_three s.bitpos
  · exact BitOffset.toNat_and_seven s.bitpos
  · exact BitVec.toNat_setWidth_of_le (by decide)

theorem State.registerValue_reserved (s : State) {k : BitVec 6} (h : reservedIndex k = true) : s.registerValue k = 0 := by
  have hk : 12 ≤ k.toNat := of_decide_eq_true h
  unfold State.registerValue
  split
  case h_12 => rfl
  all_goals omega

/-- Settles O36: register 0 and the reserved ones read as 0. -/
theorem reservedReadsReturnZero : Obligations.ReservedReadsReturnZero := fun s =>
  ⟨rfl, fun _ hk => congrArg (fun v => Host.Outcome.next (s.reply v)) (s.registerValue_reserved hk)⟩

end Sys2Proof.Machine
end

section
/-! PROOFS. 60_exceptions: the error that a code step raises is precise (R105, R106), the order of its checks (R109), and the stopped
block (R110). -/

namespace Sys2Proof.Machine

variable {s t : State} {cap : Nat}

/-! ## The stopped block -/

/-- Settles O25: the frame of a step outside RUN, at the default cap. -/
theorem stoppedBlockHolds : Obligations.StoppedBlockHolds := fun _ _ hst ht hreset hstart =>
  stepAt_of_stopped hst ht hreset hstart

/-! ## The end of a run in DONE or in E_UNDERRUN -/

/-- `t` is `s` after the end of its run, in DONE where the output is complete and in E_UNDERRUN otherwise (41_control_codes R66, R68). -/
def State.RunEnded (s : State) (stopEnd : Bool) (t : State) : Prop :=
  (s.outpos = s.expLen ∧ t.st = .done) ∨
    (s.outpos ≠ s.expLen ∧ t = State.raise { s with stopEnd := stopEnd } .underrun s.bitpos)

theorem execEndCode_runEnded (ht : execEndCode s = .next t) : s.RunEnded true t := by
  by_cases hfull : s.outpos = s.expLen
  · cases (execEndCode_of_full hfull).symm.trans ht
    exact .inl ⟨hfull, rfl⟩
  · cases (execEndCode_of_not_full hfull).symm.trans ht
    exact .inr ⟨hfull, rfl⟩

theorem execExhaust_runEnded (ht : execExhaust s = .next t) : s.RunEnded false t := by
  by_cases hfull : s.outpos = s.expLen
  · cases (execExhaust_of_full hfull).symm.trans ht
    exact .inl ⟨hfull, rfl⟩
  · cases (execExhaust_of_not_full hfull).symm.trans ht
    exact .inr ⟨hfull, rfl⟩

theorem State.RunEnded.eq_raise {stopEnd : Bool} (h : s.RunEnded stopEnd t) (he : t.st = .error) :
    t = State.raise { s with stopEnd := stopEnd } .underrun s.bitpos := by
  rcases h with ⟨-, hdone⟩ | ⟨-, hraise⟩
  · cases hdone.symm.trans he
  · exact hraise

theorem State.RunEnded.error_iff {stopEnd : Bool} (h : s.RunEnded stopEnd t) : t.st = .error ↔ s.outpos ≠ s.expLen := by
  rcases h with ⟨hfull, hdone⟩ | ⟨hshort, hraise⟩
  · simp [hfull, hdone]
  · simp [hshort, hraise]

theorem State.RunEnded.err_eq_underrun {stopEnd : Bool} (h : s.RunEnded stopEnd t) (he : t.st = .error) : t.err = .underrun := by
  rw [h.eq_raise he, State.raise_err]

/-! ## The error of a code step -/

/-- `t` is `s` after the instruction `i` has raised an error of a code step at the cursor, with STOP_END for END alone
(60_exceptions R105, R106). -/
def State.FailedAt (s : State) (i : Instr) (t : State) : Prop :=
  ∃ e stopEnd, (e = .underrun ∨ e = .invalidCode ∨ e = .overrun) ∧ (stopEnd = true ↔ i = .endCode) ∧
    t = State.raise { s with stopEnd := stopEnd } e s.bitpos

/-- An error raised by another instruction than END leaves STOP_END 0, as it is in RUN. -/
theorem State.raise_failedAt {e : ErrCode} {i : Instr} (hstop : s.stopEnd = false) (he : e = .invalidCode ∨ e = .overrun)
    (hi : i ≠ .endCode) : s.FailedAt i (s.raise e s.bitpos) :=
  ⟨e, s.stopEnd, .inr he, by simp [hstop, hi], rfl⟩

theorem Instr.ne_endCode_of_isDataCode {i : Instr} {c : Code} (h : i.isDataCode c) : i ≠ .endCode := by
  rcases h with rfl | rfl | rfl <;> exact nofun

/-- A code step of a run that ends in ERROR has raised E_UNDERRUN, E_INVALID_CODE or E_OVERRUN on the state at its start. -/
theorem State.RunInv.code_step_of_error (h : s.RunInv cap) (hcap : cap ≤ 12) (hr : s.st = .run) (hstop : s.stopEnd = false)
    (ht : execAt cap (decodeCode s.context s.fetch) s = .next t) (herr : t.st = .error) :
    s.FailedAt (decodeCode s.context s.fetch) t := by
  have hne : s.st ≠ .error := hr ▸ nofun
  rcases h.code_step hcap with ⟨hf, he⟩ | ⟨c, -, -, -, hclass⟩
  · rw [hf]
    exact ⟨.underrun, false, .inl rfl, ⟨nofun, nofun⟩, (execExhaust_runEnded (he ▸ ht)).eq_raise herr⟩
  rcases hclass with ⟨-, he⟩ | ⟨hd, he⟩ | ⟨hd, he⟩ | ⟨hd, -, l, -, -, ⟨-, he⟩ | ⟨-, out, -, he⟩⟩
  · cases he.symm.trans ht
    exact absurd herr hne
  · exact ⟨.underrun, true, .inl rfl, ⟨fun _ => hd, fun _ => rfl⟩, (execEndCode_runEnded (he ▸ ht)).eq_raise herr⟩
  · cases he.symm.trans ht
    exact State.raise_failedAt hstop (.inl rfl) (hd ▸ nofun)
  · cases he.symm.trans ht
    exact State.raise_failedAt hstop (.inr rfl) (Instr.ne_endCode_of_isDataCode hd)
  · cases he.symm.trans ht
    exact absurd ((State.learn_st s c cap).symm.trans herr) hne

/-- Settles O49: the engine's turn in RUN is one code step, whose error is raised on the state at its start. -/
theorem errorsArePrecise : Obligations.ErrorsArePrecise := by
  intro s t h hr hturn ht herr
  have hfetch : State.fetch { s with agenda := s.agenda.tail } = s.fetch := State.fetch_congr rfl rfl rfl rfl
  obtain ⟨e, stopEnd, he, hstop, rfl⟩ := ((h.run hr).withAgenda s.agenda.tail).code_step_of_error (by decide) hr (h.stop hr)
    (stepAt_engine_code hturn hr ht) herr
  rw [hfetch] at hstop
  refine ⟨rfl, ?_, ?_, ?_, hstop⟩
  all_goals rcases he with rfl | rfl | rfl <;> exact nofun

/-! ## The order of the checks -/

/-- Settles O50: the fetch comes before the class, the class says which checks are left, and DataCode tests the bound before it
walks. -/
theorem errorPriority : Obligations.ErrorPriority := by
  constructor
  · intro s t h hr hturn ht
    have hcode := (step_engine_run hturn hr).symm.trans ht
    constructor
    · intro hf
      rw [hf] at hcode
      have hended := execExhaust_runEnded hcode
      exact ⟨hended.error_iff, hended.err_eq_underrun⟩
    · intro c hf i hi
      rw [hf, hi] at hcode
      refine ⟨?_, ?_, ?_, ?_⟩
      · rintro rfl
        cases hcode
        exact hr
      · rintro rfl
        have hended := execEndCode_runEnded hcode
        exact ⟨hended.error_iff, hended.err_eq_underrun⟩
      · rintro rfl
        cases hcode
        exact ⟨rfl, rfl⟩
      · intro hdata
        obtain ⟨hw, hb⟩ := State.fetch_some hf
        obtain ⟨u, hu, hcases⟩ := ((h.run hr).withAgenda s.agenda.tail).dataCode_keeps (by decide) (hi ▸ hdata) hw hb
        cases hu.symm.trans ((exec_of_isDataCode hdata _).symm.trans hcode)
        exact hcases.imp_left fun hkept => hkept.1.trans hr
  · intro s c i hi _ hover
    exact ⟨_, (exec_of_isDataCode hi s).trans (State.dataCode_of_overrun hover), rfl, rfl⟩

end Sys2Proof.Machine
end

section
/-! PROOFS. 70_reset_and_hazards: the hardware reset (R115), what a run depends on (R116), how RUN is entered (R117), and the bound on
the length of a run (R128). -/

namespace Sys2Proof.Machine

variable {s t u : State} {cap : Nat}

/-! ## The hardware reset, and how RUN is entered -/

theorem State.reset_registerValue : ∀ k : BitVec 6, State.reset.registerValue k = if k = 8 then 0x80000000 else 0 := by
  decide

/-- No register reads a field that a hardware reset keeps. -/
theorem State.hardReset_registerValue (s : State) (k : BitVec 6) :
    s.hardReset.registerValue k = if k = 8 then 0x80000000 else 0 :=
  State.reset_registerValue k

/-- Outside RUN, STATE changes only by a hardware reset or a START (60_exceptions R110, 70_reset_and_hazards R115). -/
theorem stepAt_leaves_stopped (hst : s.st ≠ .run) (ht : stepAt cap s = .next t) (hne : t.st ≠ s.st) :
    s.agenda.head? = some .hardReset ∨ ∃ r, s.nextCommand = some (.start r) := by
  by_contra hneither
  obtain ⟨hreset, hstart⟩ := not_or.1 hneither
  exact hne (stepAt_of_stopped hst ht hreset (not_exists.1 hstart)).st_eq

/-- Settles O14: the reset state is written out by `State.hardReset`, and the frame of a stopped block says what leaves it. -/
theorem hardResetClearsRegisters : Obligations.HardResetClearsRegisters := by
  refine ⟨fun s rest ha => ⟨_, step_move ha, rfl, rfl, rfl, rfl, rfl, rfl, rfl, rfl, rfl, rfl, rfl, rfl, rfl, rfl, rfl, rfl,
    State.hardReset_registerValue _⟩, fun s t hst ht hne => ?_⟩
  have hstopped : s.st ≠ .run := State.not_run_of_doneO (State.doneO_iff.2 hst)
  exact stepAt_leaves_stopped hstopped ht hne

theorem State.nextCommand_eq_some {i : Instr} (h : s.nextCommand = some i) :
    ∃ w rest, s.agenda = .access .word w :: rest ∧ decodeAccess w = .ok i := by
  unfold State.nextCommand at h
  split at h
  · rename_i w rest ha
    cases hw : decodeAccess w with
    | ok j =>
      rw [hw] at h
      cases h
      exact ⟨w, rest, ha, hw⟩
    | error e =>
      rw [hw] at h
      cases h
  · cases h

/-- Settles O27: a reset leads to IDLE, so that the step is a START, which raises an error where the width is illegal. -/
theorem onlyStartEntersRun : Obligations.OnlyStartEntersRun := by
  intro s t hst ht hr
  rcases stepAt_leaves_stopped hst ht (hr.trans_ne hst.symm) with hhead | ⟨r, hcommand⟩
  · obtain ⟨rest, ha⟩ := List.head?_eq_some_iff.1 hhead
    cases (step_move ha).symm.trans ht
    cases hr
  · refine ⟨⟨r, hcommand⟩, ?_⟩
    obtain ⟨w, rest, ha, hw⟩ := State.nextCommand_eq_some hcommand
    have hstart : execStart r { s with agenda := rest } = .next t := (stepAt_access ha hw _).symm.trans ht
    by_contra hiw
    have hillegal : s.iw.toNat < 1 ∨ 12 < s.iw.toNat := by omega
    cases (execStart_of_badWidth (s := { s with agenda := rest }) hst hillegal r).symm.trans hstart
    cases hr

/-! ## Several steps -/

theorem State.after_succ_of_next (ht : stepAt cap s = .next t) (n : Nat) : s.after (n + 1) cap = t.after n cap := by
  rw [State.after, ht]

theorem State.after_succ_eq_some {n : Nat} (h : s.after (n + 1) cap = some u) :
    ∃ t, stepAt cap s = .next t ∧ t.after n cap = some u := by
  cases ht : stepAt cap s with
  | next t => exact ⟨t, rfl, (State.after_succ_of_next ht n).symm.trans h⟩
  | fault _ | refused _ =>
    rw [State.after, ht] at h
    cases h

/-! ## Another past: what a code step reads -/

/-- `s` with the memories, the host's latch and the free values of another block. A run depends on these no further than
`State.SameData` says. -/
def State.withPast (s p : State) : State :=
  { s with inBuf := p.inBuf, outBuf := p.outBuf, hostData := p.hostData, dictFresh := p.dictFresh, outFresh := p.outFresh }

/-- The bytes that a run of `s` reads and the symbols that it has written are the same in `p` (70_reset_and_hazards R116). -/
def State.SameData (s p : State) : Prop :=
  (∀ i, i < s.inLen.toNat → s.inByte i = p.inByte i) ∧ ∀ j, j < s.outpos.toNat → s.outElement j = p.outElement j

variable {p : State}

/-- A fetched code lies within the input bytes (40_unpacker R62). -/
theorem State.SameData.fetch_withPast (h : s.SameData p) : (s.withPast p).fetch = s.fetch := by
  by_cases hshort : 8 * s.inLen.toNat < s.bitpos.toNat + s.width
  · exact (State.fetch_of_short (s := s.withPast p) hshort).trans (State.fetch_of_short hshort).symm
  have havail := Nat.le_of_not_lt hshort
  have hcode : (s.withPast p).fetchCode s.bitpos.toNat s.width = s.fetchCode s.bitpos.toNat s.width := by
    refine State.fetchCode_eq_of_bits (s.fetchCode_lt _ _) fun i hi => ?_
    rw [s.testBit_fetchCode _ _ i hi, h.1 _ (by omega)]
    rfl
  rw [State.fetch_of_available havail]
  exact (State.fetch_of_available (s := s.withPast p) havail).trans (congrArg (fun n => some (BitVec.ofNat 13 n)) hcode)

theorem State.RunInv.entry_withPast (h : s.RunInv cap) {c : Nat} (hc : s.Defined c) :
    (s.withPast p).entry c = s.entry c :=
  h.entry_withDictFresh p.dictFresh hc

/-- `First` of a defined code is the first symbol of its sequence, which depends on defined entries alone. -/
theorem State.RunInv.first_withPast (h : s.RunInv cap) (hp : (s.withPast p).RunInv cap) {d : Code} (hd : s.Defined d.toNat) :
    (s.withPast p).first d = s.first d := by
  obtain ⟨l, hl, -⟩ := h.exists_run d hd
  have hseq : (s.withPast p).IsSeq d l := h.isSeq_congr (fun _ hc => h.entry_withPast hc) hl.isSeq hd
  exact Option.some.inj ((hp.head?_of_isSeq hd hseq).symm.trans hl.first)

theorem State.RunInv.learnedEntry_withPast (h : s.RunInv cap) (hp : (s.withPast p).RunInv cap) {c q : Code}
    (hc : s.Admitted c) (hq : s.prev = some q) : (s.withPast p).learnedEntry c q = s.learnedEntry c q := by
  have hnext : (s.withPast p).next = s.next := rfl
  have hqdef := h.defined_prev hq
  rw [State.learnedEntry, State.learnedEntry, hnext, h.entry_withPast hqdef, h.first_withPast hp hqdef]
  split_ifs with hcn
  · rfl
  · rw [h.first_withPast hp (hc.resolve_right fun hx => hcn hx.1)]

theorem State.RunInv.learn_withPast (h : s.RunInv cap) (hp : (s.withPast p).RunInv cap) {c : Code} (hc : s.Admitted c) :
    (s.withPast p).learn c cap = (s.learn c cap).withPast p := by
  rcases s.learn_cases c cap with ⟨he, hno⟩ | ⟨q, hq, hroom, he⟩
  · rw [he]
    exact hno.elim (State.learn_of_first (s := s.withPast p)) (State.learn_of_full (s := s.withPast p))
  · rw [he, State.learn_of_room (s := s.withPast p) hq hroom, h.learnedEntry_withPast hp hc hq]
    rfl

/-! ## Another past: what a code step does -/

/-- Two runs written at one place make equal elements, if the elements below it are equal. -/
theorem RunWritten.outElement_eq {base : Nat} {l : List Symbol} {out out' : Memory} (hs : RunWritten base l s.outBuf out)
    (hp : RunWritten base l p.outBuf out') {t' : State} (ht : t.outBuf = out) (ht' : t'.outBuf = out')
    (hbelow : ∀ j, j < base → s.outElement j = p.outElement j) {j : Nat} (hj : j < base + l.length) :
    t.outElement j = t'.outElement j := by
  by_cases hlow : j < base
  · rw [hs.element_other rfl ht (.inl hlow), hp.element_other rfl ht' (.inl hlow), hbelow j hlow]
  · obtain ⟨i, rfl⟩ : ∃ i, j = base + i := ⟨j - base, by omega⟩
    have hi : i < l.length := by omega
    rw [hs.element ht hi, hp.element ht' hi]

/-- `t'` differs from `t` only in what a run does not depend on. -/
def State.SameButPast (t t' : State) : Prop := ∃ p, t' = t.withPast p ∧ t.SameData p

theorem State.SameButPast.intro {t' : State} (hpast : t' = t.withPast t') (hdata : t.SameData t') : t.SameButPast t' :=
  ⟨t', hpast, hdata⟩

/-- The code names the same sequence with another past, so that both data codes overrun or both write that sequence. -/
theorem State.RunInv.dataCode_withPast (h : s.RunInv cap) (hp : (s.withPast p).RunInv cap) (hdata : s.SameData p)
    (hcap : cap ≤ 12) {c : Code} (hc : s.Admitted c) (hw : c.toNat < 2 ^ s.width) (ht : s.dataCode c cap = .next t) :
    ∃ t', (s.withPast p).dataCode c cap = .next t' ∧ t.SameButPast t' := by
  have hlearn := h.learn_withPast hp hc
  have hlearned := h.learn hcap hc
  have hdef := hc.defined_learn h hcap (h.code_lt_dictSize hw)
  obtain ⟨l, hl, -⟩ := hlearned.exists_run c hdef
  have hseq : ((s.withPast p).learn c cap).IsSeq c l :=
    hlearn ▸ hlearned.isSeq_congr (fun _ hx => hlearned.entry_withPast hx) hl.isSeq hdef
  rcases h.dataCode_of_isSeq hcap hc hw hl.isSeq with ⟨hover, he⟩ | ⟨hfit, out, hout, he⟩
  · rcases hp.dataCode_of_isSeq hcap hc hw hseq with ⟨-, he'⟩ | ⟨hfit, -⟩
    · cases he.symm.trans ht
      exact ⟨_, he', .intro rfl hdata⟩
    · exact absurd hover hfit.not_gt
  · rcases hp.dataCode_of_isSeq hcap hc hw hseq with ⟨hover, -⟩ | ⟨-, out', hout', he'⟩
    · exact absurd hover hfit.not_gt
    · cases he.symm.trans ht
      rw [hlearn] at he'
      have hcount : ((s.learn c cap).commit c l.length out s.width).outpos.toNat = s.outpos.toNat + l.length := by
        rw [State.commit_outpos_toNat (by simpa using hfit), State.learn_outpos]
      refine ⟨_, he', .intro rfl ⟨fun i hi => ?_, fun j hj => ?_⟩⟩
      · rw [State.commit_inLen, State.learn_inLen] at hi
        exact (State.inByte_congr (s.learn_inBuf c cap) i).trans (hdata.1 i hi)
      · exact RunWritten.outElement_eq hout hout' rfl rfl hdata.2 (hcount ▸ hj)

theorem execExhaust_withPast (hdata : s.SameData p) (ht : execExhaust s = .next t) :
    ∃ t', execExhaust (s.withPast p) = .next t' ∧ t.SameButPast t' := by
  by_cases hfull : s.outpos = s.expLen
  · cases (execExhaust_of_full hfull).symm.trans ht
    exact ⟨_, execExhaust_of_full (s := s.withPast p) hfull, .intro rfl hdata⟩
  · cases (execExhaust_of_not_full hfull).symm.trans ht
    exact ⟨_, execExhaust_of_not_full (s := s.withPast p) hfull, .intro rfl hdata⟩

theorem execEndCode_withPast (hdata : s.SameData p) (ht : execEndCode s = .next t) :
    ∃ t', execEndCode (s.withPast p) = .next t' ∧ t.SameButPast t' := by
  by_cases hfull : s.outpos = s.expLen
  · cases (execEndCode_of_full hfull).symm.trans ht
    exact ⟨_, execEndCode_of_full (s := s.withPast p) hfull, .intro rfl hdata⟩
  · cases (execEndCode_of_not_full hfull).symm.trans ht
    exact ⟨_, execEndCode_of_not_full (s := s.withPast p) hfull, .intro rfl hdata⟩

/-- The code step of a run does the same with another past, whatever the code (40_unpacker R64). -/
theorem State.RunInv.code_step_withPast (h : s.RunInv cap) (hp : (s.withPast p).RunInv cap) (hdata : s.SameData p)
    (hcap : cap ≤ 12) (ht : execAt cap (decodeCode s.context s.fetch) s = .next t) :
    ∃ t', execAt cap (decodeCode s.context s.fetch) (s.withPast p) = .next t' ∧ t.SameButPast t' := by
  rcases h.code_step hcap with ⟨hf, -⟩ | ⟨c, -, hw, -, hclass⟩
  · rw [hf] at ht ⊢
    exact execExhaust_withPast hdata ht
  rcases hclass with ⟨hd, -⟩ | ⟨hd, -⟩ | ⟨hd, -⟩ | ⟨hd, hc, -⟩
  · rw [hd] at ht ⊢
    cases ht
    exact ⟨_, rfl, .intro rfl hdata⟩
  · rw [hd] at ht ⊢
    exact execEndCode_withPast hdata ht
  · rw [hd] at ht ⊢
    cases ht
    exact ⟨_, rfl, .intro rfl hdata⟩
  · rw [execAt_of_isDataCode hd] at ht ⊢
    exact h.dataCode_withPast hp hdata hcap hc hw ht

/-! ## The run invariant over the steps of a run, without the invariant of the memories -/

/-- A code step that stays in RUN keeps the run invariant: it resets the table, or it learns and commits (10_state R26). -/
theorem State.RunInv.code_step_keeps (h : s.RunInv cap) (hcap : cap ≤ 12)
    (ht : execAt cap (decodeCode s.context s.fetch) s = .next t) (hr : t.st = .run) : t.RunInv cap := by
  rcases h.code_step hcap with ⟨-, he⟩ | ⟨c, -, hw, hb, hclass⟩
  · exact absurd hr (execExhaust_st_ne_run (he ▸ ht))
  rcases hclass with ⟨-, he⟩ | ⟨-, he⟩ | ⟨-, he⟩ | ⟨-, hc, l, -, hl, ⟨-, he⟩ | ⟨hfit, out, hout, he⟩⟩
  · cases he.symm.trans ht
    exact State.runInv_resetTable (s := s.advance s.width) h.width.1 (h.width.2.1.trans h.width.2.2) hcap
      ⟨h.cursors.1, (s.advance_bitpos_toNat hb).trans_le hb⟩ h.symbols
  · exact absurd hr (execEndCode_st_ne_run (he ▸ ht))
  · cases he.symm.trans ht
    cases hr
  · cases he.symm.trans ht
    cases hr
  · cases he.symm.trans ht
    exact h.learn_commit hcap hc hw hb hl hout hfit

theorem State.RunInv.reply (h : s.RunInv cap) (v : Word) : (s.reply v).RunInv cap :=
  h.of_core rfl rfl rfl rfl rfl rfl rfl rfl rfl rfl

/-! ## Two blocks in step -/

/-- Two blocks with the same moves ahead show the same run, and in RUN they differ only in what a run does not depend on. -/
structure State.InStep (cap : Nat) (s t : State) : Prop where
  same   : s.SameRun t
  agenda : s.agenda = t.agenda
  run    : s.st = .run → s.SameButPast t ∧ s.RunInv cap ∧ t.RunInv cap

theorem State.SameButPast.inStep (h : s.SameButPast t) (hinv : s.st = .run → s.RunInv cap ∧ t.RunInv cap) :
    s.InStep cap t := by
  refine ⟨?_, ?_, fun hr => ⟨h, hinv hr⟩⟩
  all_goals obtain ⟨p, rfl, -, hout⟩ := h
  · exact ⟨rfl, rfl, rfl, rfl, rfl, rfl, rfl, rfl, rfl, rfl, hout⟩
  · rfl

theorem State.RunInv.engineTurn_inStep (h : s.RunInv cap) (hp : (s.withPast p).RunInv cap) (hdata : s.SameData p)
    (hcap : cap ≤ 12) (hr : s.st = .run) (ht : s.engineTurn cap = .next t) :
    ∃ t', (s.withPast p).engineTurn cap = .next t' ∧ t.InStep cap t' := by
  have hb : s.busy = true := State.busy_iff.2 hr
  have hcode := (if_pos hb).symm.trans ht
  obtain ⟨t', ht', hsame⟩ := h.code_step_withPast hp hdata hcap hcode
  rw [← hdata.fetch_withPast] at ht'
  refine ⟨t', (if_pos hb).trans ht', hsame.inStep fun htr => ⟨h.code_step_keeps hcap hcode htr, ?_⟩⟩
  obtain ⟨q, rfl, -⟩ := hsame
  exact hp.code_step_keeps hcap ht' htr

/-- A move of a running block keeps it in step with the other one, which answers it in the same way. -/
theorem State.RunInv.perform_inStep (h : s.RunInv cap) (hp : (s.withPast p).RunInv cap) (hdata : s.SameData p)
    (hcap : cap ≤ 12) (hr : s.st = .run) {m : Move} (ht : s.perform m cap = .next t) :
    ∃ t', (s.withPast p).perform m cap = .next t' ∧ t.InStep cap t' := by
  have hreply : ∀ v v', (s.reply v).InStep cap ((s.withPast p).reply v') := fun v v' =>
    State.SameButPast.inStep (.intro rfl hdata) fun _ => ⟨h.reply v, hp.reply v'⟩
  cases m with
  | engine => exact h.engineTurn_inStep hp hdata hcap hr ht
  | access size w =>
    obtain ⟨rfl, i, hw, hi⟩ := State.windowAccess_of_next ht
    have haccess : (s.withPast p).perform (.access .word w) cap = execAt cap i (s.withPast p) := by
      simp only [State.perform, State.windowAccess, hw]
    rw [haccess]
    rcases decodeAccess_cases hw with ⟨k, rfl⟩ | ⟨k, d, rfl⟩
    · cases (execAt_decodeRead cap k s).symm.trans hi
      exact ⟨_, execAt_decodeRead cap k _, hreply _ _⟩
    · cases (execAt_decodeWrite_of_run hr cap k d).symm.trans hi
      exact ⟨_, execAt_decodeWrite_of_run (s := s.withPast p) hr cap k d,
        State.SameButPast.inStep ⟨p, rfl, hdata⟩ fun _ => ⟨h, hp⟩⟩
  | writeIn i b => cases (if_pos (State.busy_iff.2 hr)).symm.trans ht
  | readOut j =>
    cases ht
    exact ⟨_, rfl, hreply _ _⟩
  | hardReset =>
    cases ht
    have hnone : s.hardReset.SameData (s.withPast p).hardReset :=
      ⟨fun i hi => absurd hi (Nat.not_lt_zero i), fun j hj => absurd hj (Nat.not_lt_zero j)⟩
    exact ⟨_, rfl, State.SameButPast.inStep (.intro rfl hnone) nofun⟩

theorem stepAt_of_no_move (ha : s.agenda = []) : stepAt cap s = s.perform .engine cap := by
  simp only [stepAt, State.turn, ha, State.perform]

/-- A step keeps two blocks in step, in RUN and where no move is left. -/
theorem State.InStep.step_next (h : s.InStep cap t) (hcap : cap ≤ 12) (hgo : s.st = .run ∨ s.agenda = [])
    (hu : stepAt cap s = .next u) : ∃ u', stepAt cap t = .next u' ∧ u.InStep cap u' := by
  by_cases hr : s.st = .run
  · obtain ⟨⟨p, rfl, hdata⟩, hs, hp⟩ := h.run hr
    cases ha : s.agenda with
    | nil =>
      rw [stepAt_of_no_move ha] at hu
      rw [stepAt_of_no_move (s := s.withPast p) ha]
      exact hs.perform_inStep hp hdata hcap hr hu
    | cons m rest =>
      rw [stepAt_move ha] at hu
      rw [stepAt_move (s := s.withPast p) ha]
      exact (hs.withAgenda rest).perform_inStep (p := p) (hp.withAgenda rest) hdata hcap hr hu
  · have ha := hgo.resolve_left hr
    rw [stepAt_of_no_move ha] at hu
    cases (if_neg (mt State.busy_iff.1 hr)).symm.trans hu
    have hidle : ¬t.busy = true := mt State.busy_iff.1 (h.same.st ▸ hr)
    exact ⟨t, (stepAt_of_no_move (h.agenda ▸ ha)).trans (if_neg hidle), h⟩

theorem State.InStep.after (hcap : cap ≤ 12) : ∀ {n : Nat} {s t : State}, s.InStep cap t →
    (∀ m v, m < n → s.after m cap = some v → v.st = .run ∨ v.agenda = []) → s.after n cap = some u →
    ∃ u', t.after n cap = some u' ∧ u.InStep cap u' := by
  intro n
  induction n with
  | zero =>
    intro s t h _ hu
    cases hu
    exact ⟨t, rfl, h⟩
  | succ n ih =>
    intro s t h hgo hu
    obtain ⟨s₁, hs₁, hu₁⟩ := State.after_succ_eq_some hu
    obtain ⟨t₁, ht₁, h₁⟩ := h.step_next hcap (hgo 0 s (Nat.zero_lt_succ n) rfl) hs₁
    rw [State.after_succ_of_next ht₁]
    exact ih h₁ (fun m v hm hv => hgo (m + 1) v (Nat.succ_lt_succ hm) ((State.after_succ_of_next hs₁ m).trans hv)) hu₁

/-! ## START -/

theorem State.start_runInv (hlo : 1 ≤ s.iw.toNat) (hhi : s.iw.toNat ≤ cap) (hcap : cap ≤ 12) :
    (State.resetTable { s.cleared with st := .run }).RunInv cap :=
  State.runInv_resetTable (s := { s.cleared with st := .run }) hlo hhi hcap ⟨Nat.zero_le _, Nat.zero_le _⟩
    fun j hj => absurd hj (Nat.not_lt_zero j)

/-- START clears or sets every register, so that two stopped blocks with the same moves ahead, the same configuration and the same
input are in step after it (43_host_commands R87, 70_reset_and_hazards R116). -/
theorem execStart_inStep {s' t' : State} {r r' : BitVec 31} (hcap : cap ≤ 12) (hst : s.st ≠ .run) (hst' : s'.st ≠ .run)
    (hagenda : s.agenda = s'.agenda) (hiw : s.iw = s'.iw) (hinLen : s.inLen = s'.inLen) (hexpLen : s.expLen = s'.expLen)
    (hin : ∀ i, i < s.inLen.toNat → s.inByte i = s'.inByte i) (ht : execStart r s cap = .next t)
    (ht' : execStart r' s' cap = .next t') : t.InStep cap t' := by
  by_cases hwidth : s.iw.toNat < 1 ∨ cap < s.iw.toNat
  · cases (execStart_of_badWidth hst hwidth r).symm.trans ht
    cases (execStart_of_badWidth hst' (hiw ▸ hwidth) r').symm.trans ht'
    exact ⟨⟨rfl, rfl, rfl, rfl, rfl, rfl, rfl, rfl, rfl, rfl, fun j hj => absurd hj (Nat.not_lt_zero j)⟩, hagenda, nofun⟩
  · have hlo : 1 ≤ s.iw.toNat := by omega
    have hhi : s.iw.toNat ≤ cap := by omega
    cases (execStart_of_legalWidth hst hlo hhi r).symm.trans ht
    cases (execStart_of_legalWidth hst' (hiw ▸ hlo) (hiw ▸ hhi) r').symm.trans ht'
    refine State.SameButPast.inStep (.intro ?_ ⟨hin, fun j hj => absurd hj (Nat.not_lt_zero j)⟩) fun _ =>
      ⟨State.start_runInv hlo hhi hcap, State.start_runInv (hiw ▸ hlo) (hiw ▸ hhi) hcap⟩
    simp only [State.withPast, State.resetTable, State.cleared, hagenda, hiw, hinLen, hexpLen]

/-- Settles O21: START puts the two blocks in step, and every step of a run keeps them so. -/
theorem runResultIgnoresThePast : Obligations.RunResultIgnoresThePast := by
  intro s s' t t' r r' hst hst' hagenda hiw hinLen hexpLen hin ht ht' n u hgo hu
  have hstart : t.InStep Config.CW_CAP t' :=
    execStart_inStep (r := r) (r' := r') (by decide) hst hst' hagenda hiw hinLen hexpLen hin ht ht'
  obtain ⟨u', hu', hstep⟩ := hstart.after (by decide) hgo hu
  exact ⟨u', hu', hstep.same⟩

/-! ## How long a run can be -/

/-- The most steps that a run has left: one for every two bits that it has not read, the step that ends it, and the moves of the
host that are listed (70_reset_and_hazards R128). -/
def State.stepsLeft (s : State) : Nat :=
  (8 * s.inLen.toNat - s.bitpos.toNat) / 2 + 1 + s.agenda.countP (fun m => decide (m ≠ .engine))

theorem State.RunEnded.stopped {stopEnd : Bool} (h : s.RunEnded stopEnd t) : t.st = .done ∨ t.st = .error := by
  rcases h with ⟨-, hdone⟩ | ⟨-, rfl⟩
  exacts [.inl hdone, .inr rfl]

/-- `t` is a state of the run of `s`, at least two bits of the input further on. -/
structure State.ReadsOn (s t : State) : Prop where
  st     : t.st = .run
  inLen  : t.inLen = s.inLen
  agenda : t.agenda = s.agenda
  reads  : s.bitpos.toNat + 2 ≤ t.bitpos.toNat
  bound  : t.bitpos.toNat ≤ 8 * s.inLen.toNat

theorem State.RunInv.two_le_width (h : s.RunInv cap) : 2 ≤ s.width :=
  Nat.succ_le_succ (h.width.1.trans h.width.2.1)

/-- A code step ends the run or reads a code, which has two bits at least (30_encoding R45, 40_unpacker R63). -/
theorem State.RunInv.code_step_progress (h : s.RunInv cap) (hcap : cap ≤ 12) (hr : s.st = .run)
    (ht : execAt cap (decodeCode s.context s.fetch) s = .next t) : (t.st = .done ∨ t.st = .error) ∨ s.ReadsOn t := by
  have hwidth := h.two_le_width
  rcases h.code_step hcap with ⟨-, he⟩ | ⟨c, -, -, hb, hclass⟩
  · exact .inl (execExhaust_runEnded (he ▸ ht)).stopped
  rcases hclass with ⟨-, he⟩ | ⟨-, he⟩ | ⟨-, he⟩ | ⟨-, -, l, -, -, ⟨-, he⟩ | ⟨-, out, -, he⟩⟩
  · cases he.symm.trans ht
    have hpos : (s.resetTable.advance s.width).bitpos.toNat = s.bitpos.toNat + s.width := s.advance_bitpos_toNat hb
    exact .inr ⟨hr, rfl, rfl, by omega, by omega⟩
  · exact .inl (execEndCode_runEnded (he ▸ ht)).stopped
  · cases he.symm.trans ht
    exact .inl (.inr rfl)
  · cases he.symm.trans ht
    exact .inl (.inr rfl)
  · cases he.symm.trans ht
    have hpos := (s.commit_learn_advancedTo c cap l.length out).bitpos_toNat hb
    exact .inr ⟨(s.learn_st c cap).trans hr, s.learn_inLen c cap, s.learn_agenda c cap, by omega, by omega⟩

theorem State.ReadsOn.stepsLeft_lt (h : s.ReadsOn t) : t.stepsLeft < s.stepsLeft := by
  obtain ⟨-, hlen, hagenda, hlo, hhi⟩ := h
  simp only [State.stepsLeft, hlen, hagenda]
  omega

/-- The engine's turn takes no move of the host off the agenda. -/
theorem State.stepsLeft_tail_le (s : State) : State.stepsLeft { s with agenda := s.agenda.tail } ≤ s.stepsLeft :=
  Nat.add_le_add_left ((List.tail_sublist s.agenda).countP_le) _

/-- Any other turn takes one. -/
theorem State.stepsLeft_tail_lt (hturn : ¬s.EnginesTurn) (v : Word) :
    State.stepsLeft { s with hostData := v, agenda := s.agenda.tail } < s.stepsLeft := by
  apply Nat.add_lt_add_left
  cases ha : s.agenda with
  | nil => exact absurd (.inl ha) hturn
  | cons m rest =>
    have hm : m ≠ .engine := fun hm => hturn (.inr ⟨rest, hm ▸ ha⟩)
    simp [hm]

/-- A step in RUN that the contract allows, and that is no reset, ends the run or leaves it fewer steps. -/
theorem State.Inv.step_progress (h : s.Inv cap) (hcap : cap ≤ 12) (hr : s.st = .run) (hin : s.NextMoveInContract)
    (hreset : s.agenda.head? ≠ some .hardReset) :
    ∃ t, stepAt cap s = .next t ∧ t.Inv cap ∧
      ((t.st = .done ∨ t.st = .error) ∨ (t.st = .run ∧ t.agenda = s.agenda.tail ∧ t.stepsLeft < s.stepsLeft)) := by
  obtain ⟨t, ht, hinv⟩ := (h.stepAt_next hcap).resolve_right fun ⟨_, _, hout⟩ => hout hin
  refine ⟨t, ht, hinv, ?_⟩
  by_cases hturn : s.EnginesTurn
  · refine (((h.run hr).withAgenda s.agenda.tail).code_step_progress hcap hr (stepAt_engine_code hturn hr ht)).imp_right ?_
    exact fun hon => ⟨hon.st, hon.agenda, hon.stepsLeft_lt.trans_le s.stepsLeft_tail_le⟩
  · rcases stepAt_in_run hr ht with hengine | ⟨hhead, -⟩ | hlatch
    · exact absurd hengine hturn
    · exact absurd hhead hreset
    · rw [hlatch]
      exact .inr ⟨hr, rfl, State.stepsLeft_tail_lt hturn _⟩

/-- The run of `s` has come to `t`, where the next move resets the block or is outside the contract. -/
structure State.BrokenOffAt (s t : State) : Prop where
  st     : t.st = .run
  agenda : t.agenda <:+ s.agenda
  broken : t.agenda.head? = some .hardReset ∨ ¬t.NextMoveInContract

/-- A run ends or is broken off by the host within the steps that it has left. -/
theorem State.Inv.run_ends (hcap : cap ≤ 12) : ∀ (n : Nat) {s : State}, s.Inv cap → s.st = .run → s.stepsLeft ≤ n →
    ∃ k t, k ≤ n ∧ s.after k cap = some t ∧ ((t.st = .done ∨ t.st = .error) ∨ s.BrokenOffAt t) := by
  intro n
  induction n with
  | zero => exact fun _ _ hn => absurd (Nat.le_of_add_right_le hn) (Nat.not_succ_le_zero _)
  | succ n ih =>
    intro s h hr hn
    by_cases hbroken : s.agenda.head? = some .hardReset ∨ ¬s.NextMoveInContract
    · exact ⟨0, s, Nat.zero_le _, rfl, .inr ⟨hr, List.suffix_rfl, hbroken⟩⟩
    obtain ⟨hreset, hin⟩ := not_or.1 hbroken
    obtain ⟨t, ht, hinv, hended | ⟨htr, hagenda, hless⟩⟩ := h.step_progress hcap hr (not_not.1 hin) hreset
    · exact ⟨1, t, Nat.le_add_left 1 n, State.after_succ_of_next ht 0, .inl hended⟩
    · obtain ⟨k, u, hk, hu, hcases⟩ := ih hinv htr (Nat.le_of_lt_succ (hless.trans_le hn))
      refine ⟨k + 1, u, Nat.succ_le_succ hk, (State.after_succ_of_next ht k).trans hu, hcases.imp_right ?_⟩
      rintro ⟨hur, hsuffix, hwhy⟩
      exact ⟨hur, hsuffix.trans (hagenda ▸ s.agenda.tail_suffix), hwhy⟩

/-- A run is not broken off by an agenda without resets and with moves that the contract allows. -/
theorem State.not_brokenOffAt (hr : s.st = .run) (hall : ∀ m ∈ s.agenda, m ≠ .hardReset ∧ m.inContract s = true) :
    ¬s.BrokenOffAt t := by
  rintro ⟨htr, hsuffix, hhead | hout⟩
  · exact (hall _ (hsuffix.subset (List.mem_of_head? hhead))).1 rfl
  · refine hout fun m rest ha => ?_
    have hm : m ∈ s.agenda := hsuffix.subset (ha ▸ List.mem_cons_self)
    exact (m.inContract_congr (htr.trans hr.symm)).trans (hall m hm).2

/-- Settles O19: each step of the engine reads two bits or more or ends the run, and the host's moves are taken off the agenda. -/
theorem runsTerminate : Obligations.RunsTerminate := by
  intro cap s _ hcap h hr bound
  have hbound : s.stepsLeft ≤ bound :=
    Nat.add_le_add_right (Nat.add_le_add_right (Nat.div_le_div_right (Nat.sub_le _ _)) 1) _
  obtain ⟨n, t, hn, ht, hcases⟩ := State.Inv.run_ends hcap bound h hr hbound
  refine ⟨⟨n, t, hn, ht, ?_⟩, fun hall => ⟨n, t, hn, ht, hcases.resolve_right (State.not_brokenOffAt hr hall)⟩⟩
  exact or_assoc.1 (hcases.imp_right fun hbroken => hbroken.broken)

end Sys2Proof.Machine
end
